-- ==== Sys2Proof/Word.lean ====
section
/-! DEFINITION. The three word sizes of the block: data bytes, 16-bit registers, 32-bit descriptor words. -/

namespace Sys2Proof

/-- A byte of the data bus or of buffer memory (00_scope R8: data bus width 8). -/
abbrev Byte := BitVec 8

/-- A 16-bit register: `CNT`, `CCR_REQ`, `CCR_TRIG`, `SAMPLE`, `RES` (10_state R23). -/
abbrev Half := BitVec 16

/-- A descriptor word of `PROG` (30_encoding R100). -/
abbrev Word := BitVec 32

end Sys2Proof
end

