-- ==== Sys2Proof/Syntax.lean ====
section
/-! DEFINITION. The seventeen operations of 30_encoding R105, one constructor each, with the operands of R101 and R102. -/

namespace Sys2Proof

/-- One operation of the block. A mask has bit d set iff device id d is in the set; a data byte has bit k on data line k (R104);
`buf` is the first byte address and `count` the number of bytes (R102). Every value of every operand is legal in the encoding. -/
inductive Instr where
  | beginOp (mask : Byte)
  | endOp
  | readStrobe
  | readAck
  | isIdle
  | driveData (b : Byte)
  | releaseData
  | acquireData
  | pullIrq
  | releaseIrq
  | waitCommand (mask : Byte)
  | sendByte (b : Byte)
  | sendBytes (buf count : Word)
  | readByte
  | readBytes (buf count : Word)
  | readBlock (buf count : Word)
  | writeBlock (buf count : Word)
  deriving DecidableEq, Repr

end Sys2Proof
end

