-- ==== Sys2Proof/Decode.lean ====
section
/-! DEFINITION. The descriptor encoding (30_encoding): the opcode table, the total decoder, the encoder, and the serialized form
of a program (20_memory R75). -/

namespace Sys2Proof

/-! ## Fields of `W0` (R101) -/

/-- `OPC = W0[31:24]`. -/
def opcField (w0 : Word) : Byte := w0.extractLsb' 24 8

/-- `IMM8 = W0[23:16]`. -/
def immField (w0 : Word) : Byte := w0.extractLsb' 16 8

/-- `RSV = W0[15:0]`. -/
def rsvField (w0 : Word) : Half := w0.extractLsb' 0 16

/-- `W0` of an opcode and an immediate, the reserved field 0. -/
def packW0 (opc imm : Byte) : Word := opc ++ imm ++ 0#16

/-! ## The opcode table (R105) -/

/-- A row of R105: the code, the mnemonic, whether `IMM8` is used, the length in words. -/
structure OpRow where
  code     : Byte
  mnemonic : String
  usesImm  : Bool
  words    : Nat
  deriving DecidableEq, Repr

/-- R105, row by row. -/
def opTable : List OpRow :=
  [⟨0x01#8, "begin", true, 1⟩, ⟨0x02#8, "end", false, 1⟩,
   ⟨0x10#8, "read_strobe", false, 1⟩, ⟨0x11#8, "read_ack", false, 1⟩, ⟨0x12#8, "is_idle", false, 1⟩,
   ⟨0x20#8, "drive_data", true, 1⟩, ⟨0x21#8, "release_data", false, 1⟩, ⟨0x22#8, "acquire_data", false, 1⟩,
   ⟨0x23#8, "pull_irq", false, 1⟩, ⟨0x24#8, "release_irq", false, 1⟩,
   ⟨0x30#8, "wait_command", true, 1⟩,
   ⟨0x40#8, "send_byte", true, 1⟩, ⟨0x41#8, "send_bytes", false, 3⟩,
   ⟨0x42#8, "read_byte", false, 1⟩, ⟨0x43#8, "read_bytes", false, 3⟩,
   ⟨0x50#8, "read_block", false, 3⟩, ⟨0x51#8, "write_block", false, 3⟩]

/-- The row of an opcode, none for the 239 unused values (R106). -/
def rowOf (opc : Byte) : Option OpRow := opTable.find? (·.code == opc)

/-- The operation of an opcode with its operands `IMM8`, `BUF`, `COUNT` (R104, R105). -/
def instrOf (opc imm : Byte) (buf count : Word) : Option Instr :=
  match opc with
  | 0x01#8 => some (.beginOp imm)
  | 0x02#8 => some .endOp
  | 0x10#8 => some .readStrobe
  | 0x11#8 => some .readAck
  | 0x12#8 => some .isIdle
  | 0x20#8 => some (.driveData imm)
  | 0x21#8 => some .releaseData
  | 0x22#8 => some .acquireData
  | 0x23#8 => some .pullIrq
  | 0x24#8 => some .releaseIrq
  | 0x30#8 => some (.waitCommand imm)
  | 0x40#8 => some (.sendByte imm)
  | 0x41#8 => some (.sendBytes buf count)
  | 0x42#8 => some .readByte
  | 0x43#8 => some (.readBytes buf count)
  | 0x50#8 => some (.readBlock buf count)
  | 0x51#8 => some (.writeBlock buf count)
  | _ => none

/-- `OPC` of an operation (R105). -/
def Instr.opcode : Instr → Byte
  | .beginOp _ => 0x01#8
  | .endOp => 0x02#8
  | .readStrobe => 0x10#8
  | .readAck => 0x11#8
  | .isIdle => 0x12#8
  | .driveData _ => 0x20#8
  | .releaseData => 0x21#8
  | .acquireData => 0x22#8
  | .pullIrq => 0x23#8
  | .releaseIrq => 0x24#8
  | .waitCommand _ => 0x30#8
  | .sendByte _ => 0x40#8
  | .sendBytes _ _ => 0x41#8
  | .readByte => 0x42#8
  | .readBytes _ _ => 0x43#8
  | .readBlock _ _ => 0x50#8
  | .writeBlock _ _ => 0x51#8

/-- `IMM8` of an operation: its mask or data byte, 0 where the column `imm` of R105 is 0. -/
def Instr.imm : Instr → Byte
  | .beginOp mask => mask
  | .endOp => 0#8
  | .readStrobe => 0#8
  | .readAck => 0#8
  | .isIdle => 0#8
  | .driveData b => b
  | .releaseData => 0#8
  | .acquireData => 0#8
  | .pullIrq => 0#8
  | .releaseIrq => 0#8
  | .waitCommand mask => mask
  | .sendByte b => b
  | .sendBytes _ _ => 0#8
  | .readByte => 0#8
  | .readBytes _ _ => 0#8
  | .readBlock _ _ => 0#8
  | .writeBlock _ _ => 0#8

/-- The words `W1 = BUF` and `W2 = COUNT` of an operation that takes a buffer (R102). -/
def Instr.bufferWords : Instr → Option (Word × Word)
  | .beginOp _ => none
  | .endOp => none
  | .readStrobe => none
  | .readAck => none
  | .isIdle => none
  | .driveData _ => none
  | .releaseData => none
  | .acquireData => none
  | .pullIrq => none
  | .releaseIrq => none
  | .waitCommand _ => none
  | .sendByte _ => none
  | .sendBytes buf count => some (buf, count)
  | .readByte => none
  | .readBytes buf count => some (buf, count)
  | .readBlock buf count => some (buf, count)
  | .writeBlock buf count => some (buf, count)

/-- The descriptor length in words: 3 with a buffer, otherwise 1 (R103). -/
def Instr.words (i : Instr) : Nat := if i.bufferWords.isSome then 3 else 1

/-! ## Decoding (R106, R107, R108) -/

/-- The result of decoding the words from `S.PC` on: the operation, or one of the three rejections of R108 in R342's order. -/
inductive Decoded where
  | ok (i : Instr)
  | illegalOp
  | truncated
  | reservedBits
  deriving DecidableEq, Repr

/-- R106: `RSV ≠ 0`, or `IMM8 ≠ 0` for an operation without an immediate. -/
def reservedSet (row : OpRow) (w0 : Word) : Bool :=
  rsvField w0 != 0#16 || (!row.usesImm && immField w0 != 0#8)

/-- Decode the descriptor at the head of a word list, with the checks of R108 in their order. The empty list has no opcode and
its length has run out: it is `truncated` (SEQ never fetches there, R108 asks `S.PC < |PROG|`, log 18). -/
def decode : List Word → Decoded
  | [] => .truncated
  | w0 :: rest =>
    match rowOf (opcField w0) with
    | none => .illegalOp
    | some row =>
      if rest.length + 1 < row.words then .truncated
      else if reservedSet row w0 then .reservedBits
      else
        match instrOf (opcField w0) (immField w0) (rest.getD 0 0#32) (rest.getD 1 0#32) with
        | some i => .ok i
        | none => .illegalOp

/-! ## Encoding (R101, R102) -/

/-- The descriptor words of an operation. -/
def encode (i : Instr) : List Word :=
  packW0 i.opcode i.imm ::
    match i.bufferWords with
    | some (buf, count) => [buf, count]
    | none => []

/-! ## Serialized programs (R75) -/

/-- A word's four bytes, least significant first. -/
def wordBytes (w : Word) : List Byte :=
  [w.extractLsb' 0 8, w.extractLsb' 8 8, w.extractLsb' 16 8, w.extractLsb' 24 8]

/-- `PROG` written to bytes. -/
def progBytes : List Word → List Byte
  | [] => []
  | w :: ws => wordBytes w ++ progBytes ws

/-- Bytes read back as words; one to three bytes left over are no word. -/
def bytesProg : List Byte → List Word
  | b0 :: b1 :: b2 :: b3 :: rest => (b3 ++ b2 ++ b1 ++ b0 : Word) :: bytesProg rest
  | _ => []

/-! ## The opcode table's numbering of bits -/

/-- The words of an instruction whose bits are `w`: bit 0 is the least significant bit of the first word and a later word's bits
count on from it. Bits at `nbits` and above are 0, up to the longest descriptor of three words. -/
def tableWords (nbits w : Nat) : List Word :=
  let v := w % 2 ^ nbits
  [BitVec.ofNat 32 v, BitVec.ofNat 32 (v / 2 ^ 32), BitVec.ofNat 32 (v / 2 ^ 64)]

/-- The operation the decoder reads from those words, laid out as serialized bytes and read back (R75). -/
def decodeTableWord (nbits w : Nat) : Option Instr :=
  match decode (bytesProg (progBytes (tableWords nbits w))) with
  | .ok i => some i
  | .illegalOp => none
  | .truncated => none
  | .reservedBits => none

end Sys2Proof
end

