-- ==== Sys2Proof/Config.lean ====
section
/-! DEFINITION. What the spec fixes for every machine (00_scope R8) and the free values behind `draw()` (00_scope R10). -/

namespace Sys2Proof.Config

/-- `CNT_TOP`, the largest counter value (R8, decision D11). -/
def cntTop : Half := 0xFFFF#16

/-- `CCR_REQ_VAL` (R8, decision D12). -/
def ccrReqVal : Half := 1#16

/-- `CCR_TRIG_VAL` (R8, decision D12). -/
def ccrTrigVal : Half := 1#16

/-- `CNT_INIT`, the counter value `begin` writes (R8, decision D16). -/
def cntInit : Half := 1#16

/-- `ADDR_WIDTH = 32`: buffer addresses are below this (R8, 20_memory R70). -/
def addrSpace : Nat := 0x100000000

/-- `N_DEV`, the number of device ids (R8). -/
def nDev : Nat := 8

/-- `BATCH`: "`BATCH` changes no rule" (45_block_transfer R264). Nothing reads it. -/
def batch : Nat := 16

/-- What an address with no launch byte reads as. DESIGN CHOICE, unsafe (log 7): the launch memory is a model argument
(70_reset R381), and any launch memory can be listed in `State.mem`. -/
def unlistedByte : Byte := 0x00#8

/-- The n-th `draw()` of a byte: a floating data bus, an unwritten driven `DOUT`, the low half of the port, a best-effort byte
(R10, R45, R36, R272). It has no body, so nothing can be proved of its values (log 3). -/
opaque drawByte : Nat → Byte

/-- The n-th `draw()` of a 16-bit value: `CNT`, `CCR_REQ`, `CCR_TRIG` at a reset (10_state R48). No body (log 3). -/
opaque drawHalf : Nat → Half

/-- The n-th `draw()` in {strobe_first, idle_first} of `wait_command` (43_command_capture R200); true is strobe_first.
No body (log 3). -/
opaque drawStrobeFirst : Nat → Bool

end Sys2Proof.Config
end

