-- ==== Sys2Proof/Machine/State.lean ====
section
/-! DEFINITION. The state of the block, its environment and the caller's program (10_state), the reasons a step stops, and the
state after a power-on reset. Plain data throughout. -/

namespace Sys2Proof.Machine

/-! ## Parts of the state -/

/-- A register that the spec's reset table leaves `unwritten` until its first write (10_state R48): the spec's own third
condition of the register, which R26, R32 and fault code 10 refer to (log 11). -/
inductive Latch (n : Nat) where
  | unwritten
  | holds (v : BitVec n)
  deriving DecidableEq, Repr

/-- `CTRL` (R24). The fields by name; `Ctrl.word` in Machine/Operands.lean packs them at the bits of R24 (log 15). -/
structure Ctrl where
  init    : Bool
  jsusp   : Bool
  ddir    : Bool
  irqPull : Bool
  reqMode : Bool
  deriving DecidableEq, Repr

/-- `TCFG` (R28); `Tcfg.word` packs the fields. -/
structure Tcfg where
  ten    : Bool
  opm    : Bool
  cks    : BitVec 2
  cke    : Bool
  ocmReq : Bool
  trige  : Bool
  deriving DecidableEq, Repr

/-- `DCFG` with the fields of R33, 15 bits; `Dcfg.word` packs them. R23's table says "9 used bits", against R33's own list of fields:
the fields are followed, a DESIGN CHOICE (log 24). -/
structure Dcfg where
  den       : Bool
  circ      : Bool
  size      : BitVec 2
  srcPort   : Bool
  dstSample : Bool
  trigTmr   : Bool
  ndt       : Byte
  deriving DecidableEq, Repr

/-- The block registers (R23). `PORT_IN` is a view, computed in Machine/Lines.lean (R36). -/
structure Regs where
  ctrl    : Ctrl
  devmask : Latch 8
  dout    : Latch 8
  res     : Half
  tcfg    : Tcfg
  cnt     : Half
  ccrReq  : Half
  ccrTrig : Half
  sample  : Latch 16
  dcfg    : Dcfg
  fault   : Byte
  deriving DecidableEq, Repr

/-- `S.PHASE` (R37): `idle`, or the pseudocode line at which SEQ is. Which lines exist depends on the running operation
(`Instr.hasLine`). -/
inductive Phase where
  | idle
  | l1
  | l2
  | l2a
  | l2b
  | l2c
  | l2d
  | l3
  | l4
  | l5
  | l6
  | l7
  | l8
  deriving DecidableEq, Repr

/-- `Snap` of `wait_command` (43 R200): CS and A1 asserted, and the data byte, read in one step. -/
structure Snapshot where
  cs : Bool
  a1 : Bool
  d  : Byte
  deriving DecidableEq, Repr

/-- SEQ's hidden state (R37), with the locals `s`, `cmd` and `v` that the pseudocode of 43 and 44 carries from line to line
(log 10). -/
structure Seq where
  phase      : Phase
  opc        : Byte
  imm8       : Byte
  buf        : Word
  count      : Word
  idx        : Nat
  savedJsusp : Bool
  snap       : Snapshot
  cmd        : Byte
  v          : Byte
  deriving DecidableEq, Repr

/-- The external lines, owned by HOST and ENV (R41): true is asserted or pulled; `dh` is what the host drives onto D. -/
structure Lines where
  csH  : Bool
  a1H  : Bool
  ackH : Bool
  dh   : Option Byte
  irqE : Bool
  reqE : Bool
  deriving DecidableEq, Repr

/-- The lines that a `Host(L, a, d)` event names with a Boolean (R34). -/
inductive Line where
  | cs
  | a1
  | ack
  | irqE
  | reqE
  deriving DecidableEq, Repr

/-- The cause of a reset (R34, 70 R380). -/
inductive Cause where
  | power
  | watchdog
  deriving DecidableEq, Repr

/-- The events of `S.LOG` (R34). `line` and `data` are `Host(L, a, d)` for a control line and for D. -/
inductive Event where
  | line (l : Line) (asserted : Bool) (d : Byte)
  | data (drive : Option Byte) (d : Byte)
  | tick (c : Half) (cap : Bool)
  | done (pc : Nat) (opc : Byte) (res : Half)
  | reset (cause : Cause)
  deriving DecidableEq, Repr

/-- A step of HOST (49 R301 to R304). -/
inductive HostMove where
  | toggleCS
  | toggleA1
  | ackFall
  | ackRise
  | data (drive : Option Byte)
  deriving DecidableEq, Repr

/-- A step of ENV (49 R305). -/
inductive EnvMove where
  | toggleIrq
  | toggleReq
  deriving DecidableEq, Repr

/-- Which agent moves next (R20). TMR has no move of its own. -/
inductive Move where
  | seq
  | host (m : HostMove)
  | env (m : EnvMove)
  | wdog
  deriving DecidableEq, Repr

/-- A range of admitted buffer addresses, `base` to `base + size - 1`. -/
structure Region where
  base : Nat
  size : Nat
  deriving DecidableEq, Repr

/-- The OPEN parameters of 00_scope R8, which no step changes (R50): held here so that every claim is for every value (log 6). -/
structure Params where
  strict : Bool
  ovrT   : Half
  admits  : List Region
  deriving DecidableEq, Repr

/-- Buffer memory: pairs of address and byte in canonical form (`Memory.wf` in Machine/Ops.lean). -/
abbrev Memory := List Host.Cell

/-! ## The state -/

/-- Everything the spec gives the machine, and two fields of the model's own: `draws` counts the free values used (log 3), `sched`
is the order in which agents move from here on, SEQ when it is empty (log 1). -/
structure State where
  prog   : List Word
  pc     : Nat
  regs   : Regs
  seq    : Seq
  ovr    : Bool
  log    : List Event
  lines  : Lines
  mem    : Memory
  params : Params
  draws  : Nat
  sched  : List Move
  deriving DecidableEq, Repr

/-! ## Why a step stops -/

/-- The model faults of 60_exceptions R340. Raising one is a next state with `FAULT` written (R341), not a stop. -/
inductive FaultCode where
  | illegalOp
  | truncated
  | reservedBits
  | uninit
  | reinit
  | notAcquired
  | busOwnership
  | busContention
  | counterWrap
  | unwritten
  deriving DecidableEq, Repr

/-- Why the machine stops. -/
inductive Fault where
  /-- Raised by `step` in a state with `FAULT ≠ 0`: "no agent has a step" and "the run ends there" (R341). Safe: nothing goes on. -/
  | faulted (code : Byte)
  /-- Raised by a meaning when `S.PHASE` names a line its operation does not have. No reachable state does (`Inv`). Safe (log 13). -/
  | noSuchLine
  /-- Raised by the sequencer when a line is running and `OPC` is no opcode. No reachable state does (`Inv`). Safe (log 13). -/
  | noOperation
  deriving DecidableEq, Repr

/-- Why an instruction is refused. -/
inductive Refusal where
  /-- Raised by `exec` alone, for an instruction without a meaning yet; no arm does so now. Safe. -/
  | notModelled (mnemonic : String)
  deriving DecidableEq, Repr

/-! ## Reset -/

/-- `TCFG` after reset: 0x00, the timer stopped (R48). -/
def Tcfg.reset : Tcfg := ⟨false, false, 0#2, false, false, false⟩

/-- `DCFG` after reset: 0x0000, the sampler disabled (R48). -/
def Dcfg.reset : Dcfg := ⟨false, false, 0#2, false, false, false, 0#8⟩

/-- `CTRL` after reset: every field 0 (R48). -/
def Ctrl.reset : Ctrl := ⟨false, false, false, false, false⟩

/-- SEQ after reset: idle; the rest is unwritten in R48 and holds zeros here, a DESIGN CHOICE that no rule can see (log 9, 10). -/
def Seq.reset : Seq := ⟨.idle, 0#8, 0#8, 0#32, 0#32, 0, false, ⟨false, false, 0#8⟩, 0#8, 0#8⟩

/-- The launch values of the external lines, default all released and nobody driving D (70 R387). -/
def Lines.launch : Lines := ⟨false, false, false, none, false, false⟩

/-- The default parameters: `STRICT = false`, `OVR_T = 2` (R8); `MEM_ADMIT` is OPEN, the whole address space here, a DESIGN CHOICE
(log 6). -/
def Params.launch : Params := ⟨false, 2#16, [⟨0, Config.addrSpace⟩]⟩

/-- The state after a power-on reset (70 R381) with an empty program, the default lines and parameters and no launch byte listed:
the log holds the reset, and `CNT`, `CCR_REQ`, `CCR_TRIG` hold the first three drawn values. A program is loaded from outside
(log 8). -/
def State.reset : State where
  prog := []
  pc := 0
  regs :=
    { ctrl := Ctrl.reset, devmask := .unwritten, dout := .unwritten, res := 0x0000#16, tcfg := Tcfg.reset,
      cnt := Config.drawHalf 0, ccrReq := Config.drawHalf 1, ccrTrig := Config.drawHalf 2,
      sample := .unwritten, dcfg := Dcfg.reset, fault := 0x00#8 }
  seq := Seq.reset
  ovr := false
  log := [.reset .power]
  lines := Lines.launch
  mem := []
  params := Params.launch
  draws := 3
  sched := []

end Sys2Proof.Machine
end

