-- ==== Sys2Proof/Machine/Operands.lean ====
section
/-! DEFINITION. Operand forms and bit fields: the effective address, the device mask and id, the sample's data byte, the packed
views of CTRL, TCFG and DCFG, and the values `begin` writes to them. -/

namespace Sys2Proof.Machine

/-- The effective address `BUF + I`, a natural number without wrap-around (20_memory R72). -/
def effAddr (buf : Word) (i : Nat) : Nat := buf.toNat + i

/-- The device id of a command byte, `d[7:5]` (43_command_capture R202). -/
def deviceId (d : Byte) : Nat := (d.extractLsb' 5 3).toNat

/-- `mask[id] = 1` (30_encoding R104). -/
def maskHas (mask : Byte) (id : Nat) : Bool := mask.getLsbD id

/-- The data byte of a 16-bit port sample, bits 15:8 (20_memory R74). -/
def sampleByte (h : Half) : Byte := h.extractLsb' 8 8

/-- A truth value as a returned byte, 0 or 1 (10_state R27). -/
def boolByte (b : Bool) : Byte := if b then 0x01#8 else 0x00#8

/-- `CTRL` as a word: the bits of 10_state R24, bits 31:5 read as 0. -/
def Ctrl.word (c : Ctrl) : Word :=
  0#27 ++ BitVec.ofBool c.reqMode ++ BitVec.ofBool c.irqPull ++ BitVec.ofBool c.ddir ++ BitVec.ofBool c.jsusp ++ BitVec.ofBool c.init

/-- `TCFG` as a byte: the bits of 10_state R28, no bit above 6. -/
def Tcfg.word (t : Tcfg) : Byte :=
  0#1 ++ BitVec.ofBool t.trige ++ BitVec.ofBool t.ocmReq ++ BitVec.ofBool t.cke ++ t.cks ++ BitVec.ofBool t.opm ++ BitVec.ofBool t.ten

/-- `DCFG` as a half word: the bits of 10_state R33, bit 7 reads as 0. -/
def Dcfg.word (d : Dcfg) : Half :=
  d.ndt ++ 0#1 ++ BitVec.ofBool d.trigTmr ++ BitVec.ofBool d.dstSample ++ BitVec.ofBool d.srcPort ++ d.size ++
    BitVec.ofBool d.circ ++ BitVec.ofBool d.den

/-- `TCFG` as `begin` writes it, 0x77: enabled, one-shot, clocked by ACK's falling edge, REQ compare output, sampler trigger
(10_state R28, 42 R160). -/
def Tcfg.begun : Tcfg := ⟨true, true, 0b01#2, true, true, true⟩

/-- `DCFG` as `begin` writes it, 0x0177: enabled, circular, 16 bits, port to sample on the timer's trigger, one transfer
(10_state R33, 42 R160). -/
def Dcfg.begun : Dcfg := ⟨true, true, 0b01#2, true, true, true, 0x01#8⟩

/-- The operation whose descriptor SEQ latched at issue (10_state R37), none if `OPC` is no opcode. -/
def State.current (s : State) : Option Instr := instrOf s.seq.opc s.seq.imm8 s.seq.buf s.seq.count

/-- The pseudocode lines of an operation at which SEQ can be. The tests and the choice marked "(not a step)" are made on arrival
(log 4), so that line 2 of `wait_command` is 2a or 2c. -/
def hasLine (i : Instr) (p : Phase) : Bool :=
  match i with
  | .beginOp _ => p == .l1
  | .endOp => p == .l1
  | .readStrobe => p == .l1
  | .readAck => p == .l1
  | .isIdle => p == .l1
  | .driveData _ => p == .l1
  | .releaseData => p == .l1
  | .acquireData => p == .l1
  | .pullIrq => p == .l1
  | .releaseIrq => p == .l1
  | .waitCommand _ => [.l1, .l2a, .l2b, .l2c, .l2d, .l3, .l4].contains p
  | .sendByte _ => [.l1, .l2, .l3, .l4, .l5, .l6].contains p
  | .sendBytes _ _ => [.l1, .l2, .l3, .l4, .l5, .l6, .l7, .l8].contains p
  | .readByte => [.l1, .l2, .l3, .l4, .l5].contains p
  | .readBytes _ _ => [.l1, .l2, .l3, .l4, .l5, .l6, .l7, .l8].contains p
  | .readBlock _ _ => [.l1, .l2, .l3, .l4, .l5, .l6, .l7].contains p
  | .writeBlock _ _ => [.l1, .l2, .l3, .l4, .l5, .l6, .l7].contains p

end Sys2Proof.Machine
end

