-- ==== Sys2Proof/Machine/Lines.lean ====
section
/-! DEFINITION. The electrical levels of the bus (10_state R40 to R45) and the port view (R36). A level is true for high
(released), false for low (asserted). -/

namespace Sys2Proof.Machine

/-- `level(CS)` (R42). -/
def levelCS (s : State) : Bool := !s.lines.csH

/-- `level(A1)` (R42). -/
def levelA1 (s : State) : Bool := !s.lines.a1H

/-- `level(ACK)` (R42). -/
def levelACK (s : State) : Bool := !s.lines.ackH

/-- `level(IRQ)`, low if the block or another device pulls it (R43). -/
def levelIRQ (s : State) : Bool := !(s.regs.ctrl.irqPull || s.lines.irqE)

/-- The block itself holds REQ low: the pin is the timer's compare output and `CNT < CCR_REQ` (R44). -/
def blockRequests (s : State) : Bool := s.regs.ctrl.reqMode && decide (s.regs.cnt.toNat < s.regs.ccrReq.toNat)

/-- `level(REQ)`, low if the block or another device pulls it (R44). -/
def levelREQ (s : State) : Bool := !(blockRequests s || s.lines.reqE)

/-- A control line is asserted iff its level is low (R40). -/
def asserted (level : Bool) : Bool := !level

/-- `level(D)` where the spec gives it a value: driven by the block from a written `DOUT`, or by the host alone. None where the
level is `draw()`: an unwritten `DOUT`, a floating bus, and the two drivers that no reachable state has (R45, log 12). -/
def dataDriven (s : State) : Option Byte :=
  match s.regs.ctrl.ddir, s.lines.dh, s.regs.dout with
  | true, none, .holds b => some b
  | true, none, .unwritten => none
  | false, some b, _ => some b
  | false, none, _ => none
  | true, some _, _ => none

/-- `level(D)` at a read of it: the driven value, or a free value (R45). A read is followed by `drawn` (log 3). -/
def levelD (s : State) : Byte := (dataDriven s).getD (Config.drawByte s.draws)

/-- The next read of a free value is a fresh one (00_scope R10, log 3). -/
def State.drawn (n : Nat) (s : State) : State := { s with draws := s.draws + n }

/-- `PORT_IN`: the data bus in bits 15:8, the other port bits a free value (R36). Two draws. -/
def portIn (s : State) : Half := levelD s ++ Config.drawByte (s.draws + 1)

end Sys2Proof.Machine
end

