-- ==== Sys2Proof/Machine/Flags.lean ====
section
/-! DEFINITION. The block has no condition codes (10_state R46). What plays their part: the status and value of `RES`, the idle and
strobe conditions, the strict overrun check and the ghost overrun bit. -/

namespace Sys2Proof.Machine

/-- `STATUS` OK (R27). -/
def statusOk : Byte := 0x00#8

/-- `STATUS` INTEGRITY_FAULT (R27, 45 R266). -/
def statusIntegrity : Byte := 0x01#8

/-- `RES = {STATUS, VALUE}` (R27, 30 R109). -/
def packRes (status value : Byte) : Half := status ++ value

/-- `Idle`: IRQ, REQ and ACK all high, read at one instant (41 R133, 43 R200). -/
def busIdle (s : State) : Bool := levelIRQ s && levelREQ s && levelACK s

/-- `Snap`: CS, A1 and D read in one step (43 R200, R201). One draw. -/
def snapshot (s : State) : Snapshot := ⟨asserted (levelCS s), asserted (levelA1 s), levelD s⟩

/-- `Strobe(s)`: CS and A1 asserted and the byte's device id in the mask operand (43 R200, R203). -/
def strobe (mask : Byte) (r : Snapshot) : Bool := r.cs && r.a1 && maskHas mask (deviceId r.d)

/-- `Overrun(c)`: strict validation is on and the count reached the threshold (42 R177). -/
def overrun (p : Params) (c : Half) : Bool := p.strict && decide (p.ovrT.toNat ≤ c.toNat)

/-- The tick that makes the count `c` records a second edge: `c ≥ 2` while the block drives REQ (10_state R38, 42 R170). -/
def secondEdge (c : Half) (s : State) : Bool := decide (2 ≤ c.toNat) && s.regs.ctrl.reqMode

end Sys2Proof.Machine
end

