-- ==== Sys2Proof/Machine/Ops.lean ====
section
/-! DEFINITION. The operations that the meanings share: buffer memory, raising a model fault, issue and completion, the release and
guard procedures, the byte slot, and reset. -/

namespace Sys2Proof.Machine

/-- What a meaning answers. -/
abbrev Out := Host.Outcome State Fault Refusal

/-! ## Buffer memory (20_memory) -/

/-- The byte at an address (R71). -/
def Memory.read (m : Memory) (a : Nat) : Byte :=
  match m with
  | [] => Config.unlistedByte
  | (k, b) :: rest => if k = a then b else Memory.read rest a

/-- A memory without an entry for the address. -/
def Memory.erase (m : Memory) (a : Nat) : Memory := m.filter (fun c => c.1 != a)

/-- A memory with an entry put before the first greater address. -/
def Memory.insert (m : Memory) (a : Nat) (b : Byte) : Memory :=
  match m with
  | [] => [(a, b)]
  | (k, c) :: rest => if a < k then (a, b) :: (k, c) :: rest else (k, c) :: Memory.insert rest a b

/-- Set the byte at an address (R71). A byte equal to what an unlisted address reads as is not listed. -/
def Memory.write (m : Memory) (a : Nat) (b : Byte) : Memory :=
  if b = Config.unlistedByte then Memory.erase m a else Memory.insert (Memory.erase m a) a b

/-- The addresses from the first on are above `lo` and strictly rising, and no entry equals what an unlisted address reads as. -/
def Memory.wfAbove (lo : Nat) (m : Memory) : Bool :=
  match m with
  | [] => true
  | (k, b) :: rest => decide (lo ≤ k) && b != Config.unlistedByte && Memory.wfAbove (k + 1) rest

/-- Canonical form: addresses strictly rising, no entry equal to what an unlisted address reads as. -/
def Memory.wf (m : Memory) : Bool := Memory.wfAbove 0 m

/-- An access to the address is admitted: it is in `MEM_ADMIT` and below 2^32 (R71, R72). -/
def admitted (p : Params) (a : Nat) : Bool :=
  decide (a < Config.addrSpace) && p.admits.any (fun r => decide (r.base ≤ a) && decide (a < r.base + r.size))

/-! ## Model faults (60_exceptions) -/

/-- The codes of R340. -/
def FaultCode.code : FaultCode → Byte
  | .illegalOp => 1#8
  | .truncated => 2#8
  | .reservedBits => 3#8
  | .uninit => 4#8
  | .reinit => 5#8
  | .notAcquired => 6#8
  | .busOwnership => 7#8
  | .busContention => 8#8
  | .counterWrap => 9#8
  | .unwritten => 10#8

/-- `raise Fault(code)`: `FAULT` takes the code and nothing else of the step happens (R341, log 5). The block has no handler and no
return from a fault (R349). -/
def raise (c : FaultCode) (s : State) : Out := .next { s with regs.fault := c.code }

/-! ## Issue and completion (30_encoding R108, R109) -/

/-- SEQ goes to a line. -/
def State.goto (p : Phase) (s : State) : State := { s with seq.phase := p }

/-- Append an event to the log (10_state R34). -/
def State.emit (e : Event) (s : State) : State := { s with log := s.log ++ [e] }

/-- Latch the descriptor and go to line 1: `BUF` and `COUNT` only for the three-word operations (R108). -/
def State.latch (i : Instr) (s : State) : State :=
  { s with
    seq.opc := i.opcode
    seq.imm8 := i.imm
    seq.buf := match i.bufferWords with | some w => w.1 | none => s.seq.buf
    seq.count := match i.bufferWords with | some w => w.2 | none => s.seq.count
    seq.phase := .l1 }

/-- Line 0 of `begin`: `Fault(REINIT)` if it has been executed (R108, R383). -/
def issueBegin (i : Instr) (s : State) : Out := if s.regs.ctrl.init then raise .reinit s else .next (s.latch i)

/-- Line 0 of every other operation: `Fault(UNINIT)` before `begin` (R108, R343). The decoder made the checks before this one. -/
def issue (i : Instr) (s : State) : Out := if s.regs.ctrl.init then .next (s.latch i) else raise .uninit s

/-- `Complete(value, status)` (R109). -/
def State.complete (i : Instr) (value status : Byte) (s : State) : State :=
  { s with
    regs.res := packRes status value
    log := s.log ++ [.done s.pc i.opcode (packRes status value)]
    pc := s.pc + i.words
    seq.phase := .idle }

/-! ## Shared procedures (41_bus_line_access) -/

/-- `SafeRelease` (R139). -/
def State.safeRelease (s : State) : State :=
  { s with regs.ctrl.ddir := false, regs.ctrl.irqPull := false, regs.ctrl.reqMode := false }

/-- `GuardEnter` (R140). -/
def State.guardEnter (s : State) : State :=
  { s with seq.savedJsusp := s.regs.ctrl.jsusp, regs.ctrl.jsusp := true }

/-- `GuardExit` (R140). -/
def State.guardExit (s : State) : State := { s with regs.ctrl.jsusp := s.seq.savedJsusp }

/-- The last line of the transfer operations of 44 and 45: `SafeRelease; GuardExit; Complete(value, status)`. -/
def State.finish (i : Instr) (value status : Byte) (s : State) : State := s.safeRelease.guardExit.complete i value status

/-- `wait until C then A` (00_scope R11): the line's actions in the step that sees the condition hold; otherwise SEQ polled and is
still there (log 2). -/
def waitUntil (c : Bool) (act : State) (still : State) : Out := if c then .next act else .next still

/-- `CTRL.DDIR <- v`. -/
def State.setDdir (v : Bool) (s : State) : State := { s with regs.ctrl.ddir := v }

/-- `CTRL.IRQ_PULL <- v`. -/
def State.setIrqPull (v : Bool) (s : State) : State := { s with regs.ctrl.irqPull := v }

/-- `DOUT <- b` (10_state R26). -/
def State.setDout (b : Byte) (s : State) : State := { s with regs.dout := .holds b }

/-- `I <- n` (10_state R37). -/
def State.setIdx (n : Nat) (s : State) : State := { s with seq.idx := n }

/-- `MemWrite(a, 1, b)` (20_memory R71). -/
def State.store (a : Nat) (b : Byte) (s : State) : State := { s with mem := s.mem.write a b }

/-! ## The byte slot (42_handshake_timer_sampler R176, R177) -/

/-- `SlotReset(i)` in one step: on a detected overrun of the slot before, go to the abort line with `CNT` unchanged; otherwise
`CNT <- 0`, which asserts REQ, and go on. Slot 0 checks nothing (R265). -/
def slotReset (onAbort onOk : Phase) (s : State) : State :=
  if s.seq.idx ≠ 0 ∧ overrun s.params s.regs.cnt = true then s.goto onAbort
  else { s with regs.cnt := 0#16, seq.phase := onOk }

/-- The arrival at line 2 of a block operation with its tests that are no steps: all bytes done goes to `FinalCheck` (line 5) in
strict mode with `COUNT > 0`, else to line 6; otherwise the next slot (45 R262, R263, log 4). -/
def State.arriveSlot (count : Word) (s : State) : State :=
  s.goto (if s.seq.idx = count.toNat then
      (if s.params.strict = true ∧ count.toNat ≠ 0 then .l5 else .l6)
    else .l2)

/-- The arrival at line 2 of `send_bytes` and `read_bytes` with its test `I = COUNT`, which is no step (44 R221, R223, log 4). -/
def State.arriveByte (count : Word) (done : Phase) (s : State) : State :=
  s.goto (if s.seq.idx = count.toNat then done else .l2)

/-- `FinalCheck` (R177). -/
def State.finalCheck (s : State) : State := s.goto (if overrun s.params s.regs.cnt then .l7 else .l6)

/-! ## Reset (70_reset_and_hazards) -/

/-- A reset of either cause (R380): every element of 10_state R48 takes its value there, three of them drawn at this reset (R381),
`Reset(cause)` is appended to the log; memory, the external lines, `PROG` and the parameters are unchanged (log 16). -/
def blockReset (cause : Cause) (s : State) : State :=
  { s with
    pc := 0
    regs :=
      { ctrl := Ctrl.reset, devmask := .unwritten, dout := .unwritten, res := 0x0000#16, tcfg := Tcfg.reset,
        cnt := Config.drawHalf s.draws, ccrReq := Config.drawHalf (s.draws + 1), ccrTrig := Config.drawHalf (s.draws + 2),
        sample := .unwritten, dcfg := Dcfg.reset, fault := 0x00#8 }
    seq := Seq.reset
    ovr := false
    log := s.log ++ [.reset cause]
    draws := s.draws + 3 }

end Sys2Proof.Machine
end

