-- ==== Sys2Proof/Machine/Block.lean ====
section
/-! DEFINITION. Block transfer engine (45_block_transfer R260 to R272). -/

namespace Sys2Proof.Machine

/-- Line 1 of both operations but for the data bus: `GuardEnter; S.OVR <- 0; I <- 0; CTRL.REQ_MODE <- 1` (R261, R262, R263). -/
def State.blockStart (s : State) : State :=
  { s.guardEnter with ovr := false, seq.idx := 0, regs.ctrl.reqMode := true }

/-- Line 4 of `read_block` once its access is admitted: the captured byte, or a free value after a second edge with strict
validation off (R272), is stored; an unwritten `SAMPLE` faults (10_state R32, log 14). -/
def storeSample (buf count : Word) (s : State) : Out :=
  match s.regs.sample with
  | .unwritten => raise .unwritten s
  | .holds h =>
    let a := effAddr buf s.seq.idx
    let next (s1 : State) : Out := .next ((s1.setIdx (s.seq.idx + 1)).arriveSlot count)
    if !s.params.strict && s.ovr then next ((s.drawn 1).store a (Config.drawByte s.draws))
    else next (s.store a (sampleByte h))

/-- `read_block buf, count` (R262). -/
def execReadBlock (buf count : Word) (s : State) : Out :=
  match s.seq.phase with
  | .idle => issue (.readBlock buf count) s
  | .l1 => if s.regs.ctrl.ddir then raise .busOwnership s else .next (s.blockStart.arriveSlot count)
  | .l2 => .next (slotReset .l7 .l3 s)
  | .l3 => waitUntil (s.regs.cnt != 0#16) (s.goto .l4) s
  | .l4 => if admitted s.params (effAddr buf s.seq.idx) then storeSample buf count s else .next s
  | .l5 => .next s.finalCheck
  | .l6 => .next (s.finish (.readBlock buf count) 0#8 statusOk)
  | .l7 => .next (s.finish (.readBlock buf count) 0#8 statusIntegrity)
  | _ => .fault .noSuchLine

/-- `write_block buf, count` (R263). -/
def execWriteBlock (buf count : Word) (s : State) : Out :=
  match s.seq.phase with
  | .idle => issue (.writeBlock buf count) s
  | .l1 =>
    if s.lines.dh.isSome then raise .busContention s else .next ((s.blockStart.setDdir true).arriveSlot count)
  | .l2 =>
    waitUntil (admitted s.params (effAddr buf s.seq.idx))
      ((s.setDout (s.mem.read (effAddr buf s.seq.idx))).goto .l3) s
  | .l3 => .next (slotReset .l7 .l4 s)
  | .l4 => waitUntil (s.regs.cnt != 0#16) ((s.setIdx (s.seq.idx + 1)).arriveSlot count) s
  | .l5 => .next s.finalCheck
  | .l6 => .next (s.finish (.writeBlock buf count) 0#8 statusOk)
  | .l7 => .next (s.finish (.writeBlock buf count) 0#8 statusIntegrity)
  | _ => .fault .noSuchLine

end Sys2Proof.Machine
end

