-- ==== Sys2Proof/Machine/BusLine.lean ====
section
/-! DEFINITION. Bus line access operations (41_bus_line_access R130 to R138): one body step each. -/

namespace Sys2Proof.Machine

/-- `read_strobe` (R131). -/
def execReadStrobe (s : State) : Out :=
  match s.seq.phase with
  | .idle => issue .readStrobe s
  | .l1 => .next (s.complete .readStrobe (boolByte (levelA1 s)) statusOk)
  | _ => .fault .noSuchLine

/-- `read_ack` (R132). -/
def execReadAck (s : State) : Out :=
  match s.seq.phase with
  | .idle => issue .readAck s
  | .l1 => .next (s.complete .readAck (boolByte (levelACK s)) statusOk)
  | _ => .fault .noSuchLine

/-- `is_idle` (R133). -/
def execIsIdle (s : State) : Out :=
  match s.seq.phase with
  | .idle => issue .isIdle s
  | .l1 => .next (s.complete .isIdle (boolByte (busIdle s)) statusOk)
  | _ => .fault .noSuchLine

/-- `drive_data b` (R134). -/
def execDriveData (b : Byte) (s : State) : Out :=
  match s.seq.phase with
  | .idle => issue (.driveData b) s
  | .l1 => if s.regs.ctrl.ddir then .next ((s.setDout b).complete (.driveData b) 0#8 statusOk) else raise .notAcquired s
  | _ => .fault .noSuchLine

/-- `release_data` (R135). -/
def execReleaseData (s : State) : Out :=
  match s.seq.phase with
  | .idle => issue .releaseData s
  | .l1 => .next ((s.setDdir false).complete .releaseData 0#8 statusOk)
  | _ => .fault .noSuchLine

/-- `acquire_data` (R136). -/
def execAcquireData (s : State) : Out :=
  match s.seq.phase with
  | .idle => issue .acquireData s
  | .l1 =>
    if s.lines.dh.isSome then raise .busContention s else .next ((s.setDdir true).complete .acquireData 0#8 statusOk)
  | _ => .fault .noSuchLine

/-- `pull_irq` (R137). -/
def execPullIrq (s : State) : Out :=
  match s.seq.phase with
  | .idle => issue .pullIrq s
  | .l1 => .next ((s.setIrqPull true).complete .pullIrq 0#8 statusOk)
  | _ => .fault .noSuchLine

/-- `release_irq` (R138). -/
def execReleaseIrq (s : State) : Out :=
  match s.seq.phase with
  | .idle => issue .releaseIrq s
  | .l1 => .next ((s.setIrqPull false).complete .releaseIrq 0#8 statusOk)
  | _ => .fault .noSuchLine

end Sys2Proof.Machine
end

