-- ==== Sys2Proof/Machine/Capture.lean ====
section
/-! DEFINITION. Command capture (43_command_capture R200 to R205). -/

namespace Sys2Proof.Machine

/-- The arrival at line 2: the order of the two reads is drawn afresh, and SEQ is at line 2a or 2c (R200, R201, log 4). -/
def arrivePoll (s : State) : State :=
  (s.drawn 1).goto (if Config.drawStrobeFirst s.draws then .l2a else .l2c)

/-- `s <- Snap`. -/
def State.setSnap (r : Snapshot) (s : State) : State := { s with seq.snap := r }

/-- `cmd <- d`. -/
def State.setCmd (d : Byte) (s : State) : State := { s with seq.cmd := d }

/-- `wait_command mask` (R200). -/
def execWaitCommand (mask : Byte) (s : State) : Out :=
  match s.seq.phase with
  | .idle => issue (.waitCommand mask) s
  | .l1 => if s.regs.ctrl.ddir then raise .busOwnership s else .next (arrivePoll s.guardEnter)
  | .l2a => waitUntil (strobe mask (snapshot s)) (((s.drawn 1).setSnap (snapshot s)).goto .l2b) (s.drawn 1)
  | .l2b => if busIdle s then .next ((s.setCmd s.seq.snap.d).goto .l3) else .next (arrivePoll s)
  | .l2c => waitUntil (busIdle s) (s.goto .l2d) s
  | .l2d =>
    let s1 := (s.drawn 1).setSnap (snapshot s)
    if strobe mask (snapshot s) then .next ((s1.setCmd (snapshot s).d).goto .l3) else .next (arrivePoll s1)
  | .l3 => waitUntil (!asserted (levelCS s)) (s.goto .l4) s
  | .l4 => .next (s.guardExit.complete (.waitCommand mask) s.seq.cmd statusOk)
  | _ => .fault .noSuchLine

end Sys2Proof.Machine
end

