-- ==== Sys2Proof/Machine/IrqByte.lean ====
section
/-! DEFINITION. Interrupt byte protocol (44_interrupt_byte_protocol R220 to R226). -/

namespace Sys2Proof.Machine

/-- `v <- level(D)` (R222). -/
def State.sampleD (s : State) : State := { s with seq.v := levelD s, draws := s.draws + 1 }

/-- `send_byte b` (R220). -/
def execSendByte (b : Byte) (s : State) : Out :=
  match s.seq.phase with
  | .idle => issue (.sendByte b) s
  | .l1 => if s.lines.dh.isSome then raise .busContention s else .next ((s.guardEnter.setDdir true).goto .l2)
  | .l2 => .next ((s.setDout b).goto .l3)
  | .l3 => .next ((s.setIrqPull true).goto .l4)
  | .l4 => waitUntil (asserted (levelCS s)) (s.goto .l5) s
  | .l5 => waitUntil (!asserted (levelCS s)) (s.goto .l6) s
  | .l6 => .next (s.finish (.sendByte b) 0#8 statusOk)
  | _ => .fault .noSuchLine

/-- `send_bytes buf, count` (R221). -/
def execSendBytes (buf count : Word) (s : State) : Out :=
  match s.seq.phase with
  | .idle => issue (.sendBytes buf count) s
  | .l1 => .next ((s.guardEnter.setIdx 0).arriveByte count .l8)
  | .l2 => if s.lines.dh.isSome then raise .busContention s else .next ((s.setDdir true).goto .l3)
  | .l3 =>
    waitUntil (admitted s.params (effAddr buf s.seq.idx))
      ((s.setDout (s.mem.read (effAddr buf s.seq.idx))).goto .l4) s
  | .l4 => .next ((s.setIrqPull true).goto .l5)
  | .l5 => waitUntil (asserted (levelCS s)) (s.goto .l6) s
  | .l6 => waitUntil (!asserted (levelCS s)) (s.goto .l7) s
  | .l7 => .next ((((s.setDdir false).setIrqPull false).setIdx (s.seq.idx + 1)).arriveByte count .l8)
  | .l8 => .next (s.finish (.sendBytes buf count) 0#8 statusOk)
  | _ => .fault .noSuchLine

/-- `read_byte` (R222). -/
def execReadByte (s : State) : Out :=
  match s.seq.phase with
  | .idle => issue .readByte s
  | .l1 => if s.regs.ctrl.ddir then raise .busOwnership s else .next (s.guardEnter.goto .l2)
  | .l2 => .next ((s.setIrqPull true).goto .l3)
  | .l3 => waitUntil (asserted (levelCS s)) (s.goto .l4) s
  | .l4 => waitUntil (!asserted (levelCS s)) (s.sampleD.goto .l5) s
  | .l5 => .next (s.finish .readByte s.seq.v statusOk)
  | _ => .fault .noSuchLine

/-- `read_bytes buf, count` (R223). -/
def execReadBytes (buf count : Word) (s : State) : Out :=
  match s.seq.phase with
  | .idle => issue (.readBytes buf count) s
  | .l1 =>
    if s.regs.ctrl.ddir then raise .busOwnership s else .next ((s.guardEnter.setIdx 0).arriveByte count .l7)
  | .l2 => .next ((s.setIrqPull true).goto .l3)
  | .l3 => waitUntil (asserted (levelCS s)) (s.goto .l4) s
  | .l4 => waitUntil (!asserted (levelCS s)) (s.sampleD.goto .l5) s
  | .l5 =>
    waitUntil (admitted s.params (effAddr buf s.seq.idx)) ((s.store (effAddr buf s.seq.idx) s.seq.v).goto .l6) s
  | .l6 => .next (((s.setIrqPull false).setIdx (s.seq.idx + 1)).arriveByte count .l7)
  | .l7 => waitUntil (!asserted (levelCS s)) (s.goto .l8) s
  | .l8 => .next (s.finish (.readBytes buf count) 0#8 statusOk)
  | _ => .fault .noSuchLine

end Sys2Proof.Machine
end

