-- ==== Sys2Proof/Machine/Session.lean ====
section
/-! DEFINITION. Session operations (42_handshake_timer_sampler R160, R161). -/

namespace Sys2Proof.Machine

/-- The writes of `begin` before its completion (R160). -/
def beginSetup (mask : Byte) (s : State) : State :=
  let s1 := State.safeRelease
    { s with
      regs.devmask := .holds mask
      regs.ccrReq := Config.ccrReqVal
      regs.ccrTrig := Config.ccrTrigVal
      regs.cnt := Config.cntInit
      regs.tcfg := Tcfg.begun
      regs.dcfg := Dcfg.begun }
  { s1 with regs.ctrl.init := true }

/-- The writes of `end` before its completion (R161). -/
def endTeardown (s : State) : State :=
  { s.safeRelease with regs.tcfg.ten := false, regs.dcfg.den := false, regs.ctrl.init := false }

/-- `begin mask` (R160). -/
def execBeginOp (mask : Byte) (s : State) : Out :=
  match s.seq.phase with
  | .idle => issueBegin (.beginOp mask) s
  | .l1 => .next ((beginSetup mask s).complete (.beginOp mask) 0#8 statusOk)
  | _ => .fault .noSuchLine

/-- `end` (R161). -/
def execEndOp (s : State) : Out :=
  match s.seq.phase with
  | .idle => issue .endOp s
  | .l1 => .next ((endTeardown s).complete .endOp 0#8 statusOk)
  | _ => .fault .noSuchLine

end Sys2Proof.Machine
end

