-- ==== Sys2Proof/Machine/Dispatch.lean ====
section
/-! DEFINITION. One arm per operation: the SEQ step of that operation at the line where SEQ is (`idle` is line 0, the issue). -/

namespace Sys2Proof.Machine

def exec (i : Instr) (s : State) : Host.Outcome State Fault Refusal :=
  match i with
  | .beginOp mask => Sys2Proof.Machine.execBeginOp mask s
  | .endOp => Sys2Proof.Machine.execEndOp s
  | .readStrobe => Sys2Proof.Machine.execReadStrobe s
  | .readAck => Sys2Proof.Machine.execReadAck s
  | .isIdle => Sys2Proof.Machine.execIsIdle s
  | .driveData b => Sys2Proof.Machine.execDriveData b s
  | .releaseData => Sys2Proof.Machine.execReleaseData s
  | .acquireData => Sys2Proof.Machine.execAcquireData s
  | .pullIrq => Sys2Proof.Machine.execPullIrq s
  | .releaseIrq => Sys2Proof.Machine.execReleaseIrq s
  | .waitCommand mask => Sys2Proof.Machine.execWaitCommand mask s
  | .sendByte b => Sys2Proof.Machine.execSendByte b s
  | .sendBytes buf count => Sys2Proof.Machine.execSendBytes buf count s
  | .readByte => Sys2Proof.Machine.execReadByte s
  | .readBytes buf count => Sys2Proof.Machine.execReadBytes buf count s
  | .readBlock buf count => Sys2Proof.Machine.execReadBlock buf count s
  | .writeBlock buf count => Sys2Proof.Machine.execWriteBlock buf count s

end Sys2Proof.Machine
end

