-- ==== Sys2Proof/Machine/Environment.lean ====
section
/-! DEFINITION. The agents outside the block (49_environment_steps): HOST with the timer and sampler in its ACK falling step, ENV,
and WDOG. A move that is not enabled changes nothing (log 2). -/

namespace Sys2Proof.Machine

/-- Append `Host(L, a, level(D))` for the state after the move (10_state R34). -/
def State.logLine (l : Line) (a : Bool) (s : State) : State := (s.emit (.line l a (levelD s))).drawn 1

/-! ## The timer and the sampler (42_handshake_timer_sampler R170, R171) -/

/-- The tick with the sampler's capture of the port value read in the same step: `cap` iff the new count is `CCR_TRIG` with the
trigger and the channel enabled. -/
def tick (port : Half) (s : State) : State :=
  let c := s.regs.cnt + 1#16
  let cap := decide (c = s.regs.ccrTrig) && s.regs.tcfg.trige && s.regs.dcfg.den
  let s1 : State :=
    { s with
      regs.cnt := c
      regs.sample := if cap then .holds port else s.regs.sample
      ovr := s.ovr || secondEdge c s }
  s1.emit (.tick c cap)

/-- The ACK falling edge (49 R302): the line changes, the edge is logged with `level(D)`, and a counted tick follows in the same
step (log 21); a tick at the counter's top raises `COUNTER_WRAP` and nothing else happens (R174, R341). -/
def ackFalls (s : State) : Out :=
  if s.regs.tcfg.ten then
    if s.regs.cnt = Config.cntTop then raise .counterWrap s
    else
      let s1 := State.emit (.line .ack true (levelD s)) { s with lines.ackH := true }
      .next ((tick (portIn s) s1).drawn 2)
  else .next (State.drawn 1 (State.emit (.line .ack true (levelD s)) { s with lines.ackH := true }))

/-! ## HOST and ENV -/

/-- A host step (R301 to R304). -/
def hostMove (m : HostMove) (s : State) : Out :=
  match m with
  | .toggleCS => .next (State.logLine .cs (!s.lines.csH) { s with lines.csH := !s.lines.csH })
  | .toggleA1 => .next (State.logLine .a1 (!s.lines.a1H) { s with lines.a1H := !s.lines.a1H })
  | .ackFall => if s.lines.ackH then .next s else ackFalls s
  | .ackRise =>
    if s.lines.ackH then .next (State.logLine .ack false { s with lines.ackH := false }) else .next s
  | .data drive =>
    if drive.isSome && s.regs.ctrl.ddir then raise .busContention s
    else
      let s1 : State := { s with lines.dh := drive }
      .next ((s1.emit (.data drive (levelD s1))).drawn 1)

/-- A step of the other devices (R305). -/
def envMove (m : EnvMove) (s : State) : Out :=
  match m with
  | .toggleIrq => .next (State.logLine .irqE (!s.lines.irqE) { s with lines.irqE := !s.lines.irqE })
  | .toggleReq => .next (State.logLine .reqE (!s.lines.reqE) { s with lines.reqE := !s.lines.reqE })

/-! ## The watchdog -/

/-- The lines of an operation that are `wait until` lines (43, 44, 45). -/
def waitsAt (i : Instr) (p : Phase) : Bool :=
  match i with
  | .beginOp _ => false
  | .endOp => false
  | .readStrobe => false
  | .readAck => false
  | .isIdle => false
  | .driveData _ => false
  | .releaseData => false
  | .acquireData => false
  | .pullIrq => false
  | .releaseIrq => false
  | .waitCommand _ => p == .l2a || p == .l2c || p == .l3
  | .sendByte _ => p == .l4 || p == .l5
  | .sendBytes _ _ => p == .l5 || p == .l6
  | .readByte => p == .l3 || p == .l4
  | .readBytes _ _ => p == .l3 || p == .l4 || p == .l7
  | .readBlock _ _ => p == .l3
  | .writeBlock _ _ => p == .l4

/-- The buffer address that a line of an operation accesses, with the byte index `n` (20_memory R71, R72). -/
def accessAt (i : Instr) (p : Phase) (n : Nat) : Option Nat :=
  match i with
  | .beginOp _ => none
  | .endOp => none
  | .readStrobe => none
  | .readAck => none
  | .isIdle => none
  | .driveData _ => none
  | .releaseData => none
  | .acquireData => none
  | .pullIrq => none
  | .releaseIrq => none
  | .waitCommand _ => none
  | .sendByte _ => none
  | .sendBytes buf _ => if p = .l3 then some (effAddr buf n) else none
  | .readByte => none
  | .readBytes buf _ => if p = .l5 then some (effAddr buf n) else none
  | .readBlock buf _ => if p = .l4 then some (effAddr buf n) else none
  | .writeBlock buf _ => if p = .l2 then some (effAddr buf n) else none

/-- SEQ is at a line whose memory access is not admitted (20_memory R71). -/
def stuckAccess (i : Instr) (s : State) : Bool :=
  match accessAt i s.seq.phase s.seq.idx with
  | some a => !admitted s.params a
  | none => false

/-- The watchdog's step is enabled (R307); `step` asks `FAULT = 0` of every agent. -/
def watchdogEnabled (s : State) : Bool :=
  match s.current with
  | some i => waitsAt i s.seq.phase || stuckAccess i s
  | none => false

/-- A step of the watchdog: a reset with cause `watchdog` (R307, 70 R382). -/
def watchdogMove (s : State) : Out := if watchdogEnabled s then .next (blockReset .watchdog s) else .next s

end Sys2Proof.Machine
end

