-- ==== Sys2Proof/Machine/Sequencer.lean ====
section
/-! DEFINITION. The sequencer's step, and one step of any agent (10_state R20). -/

namespace Sys2Proof.Machine

/-- The descriptor at `S.PC`, decoded (30_encoding R108, 20_memory R87). -/
def fetch (s : State) : Decoded := decode (s.prog.drop s.pc)

/-- Line 0: fetch, the checks on the words in R342's order, then line 0 of the operation. At the end of the program SEQ has no step
(70 R386, log 2). -/
def issueStep (s : State) : Out :=
  if s.pc < s.prog.length then
    match fetch s with
    | .ok i => exec i s
    | .illegalOp => raise .illegalOp s
    | .truncated => raise .truncated s
    | .reservedBits => raise .reservedBits s
  else .next s

/-- A line of the running operation, whose descriptor was latched at issue (10_state R37). -/
def lineStep (s : State) : Out :=
  match s.current with
  | some i => exec i s
  | none => .fault .noOperation

/-- SEQ's step (10_state R20, 00_scope R11). -/
def seqStep (s : State) : Out := if s.seq.phase = .idle then issueStep s else lineStep s

/-- One agent's step. -/
def agentStep (m : Move) (s : State) : Out :=
  match m with
  | .seq => seqStep s
  | .host h => hostMove h s
  | .env e => envMove e s
  | .wdog => watchdogMove s

/-- The next move of the schedule, SEQ when nothing is scheduled (log 1). -/
def nextMove (s : State) : Move :=
  match s.sched with
  | [] => .seq
  | m :: _ => m

/-- The state once its next move is taken off the schedule. -/
def State.popped (s : State) : State := { s with sched := s.sched.tail }

/-- The state with the words put at `S.PC` and SEQ ready to fetch them: idle, not faulted, first in the schedule. -/
def State.withWordsAtPc (ws : List Word) (s : State) : State :=
  { s with
    prog := s.prog.take s.pc ++ List.replicate (s.pc - s.prog.length) 0#32 ++ ws ++ s.prog.drop (s.pc + ws.length)
    regs.fault := 0x00#8
    seq.phase := .idle
    sched := [] }

end Sys2Proof.Machine
end

