-- ==== Sys2Proof/Machine/Step.lean ====
section
/-! DEFINITION. One step of the machine: the next agent's move, none once a model fault is raised. -/

namespace Sys2Proof.Machine

/-- "When `FAULT ≠ 0` no agent has a step" (60_exceptions R341); otherwise the agent that the schedule names takes one (log 23). -/
def step (s : State) : Host.Outcome State Fault Refusal :=
  if s.regs.fault ≠ 0x00#8 then .fault (.faulted s.regs.fault) else agentStep (nextMove s) s.popped

/-- The state with an instruction placed where SEQ fetches next (log 8). -/
def State.withFetchWord (s : State) (nbits w : Nat) : State := s.withWordsAtPc (tableWords nbits w)

end Sys2Proof.Machine
end

