-- ==== Sys2Proof/WellFormed.lean ====
section
/-! DEFINITION. Well-formed source statements (30_encoding R110): a mnemonic with natural-number operands, before encoding.
An operation as `Instr` needs no check of its own: its operands are bit vectors of the widths of R101 and R102. -/

namespace Sys2Proof

/-- A statement of R110: a mnemonic and its operands as numbers. -/
structure Source where
  mnemonic : String
  operands : List Nat
  deriving DecidableEq, Repr

/-- The row of R105 that a mnemonic names. -/
def rowNamed (m : String) : Option OpRow := opTable.find? (·.mnemonic == m)

/-- The exclusive bounds of a row's operands: a mask or byte is in 0..255, `buf` and `count` in 0..2^32-1 (R110). -/
def operandBounds (row : OpRow) : List Nat :=
  (if row.usesImm then [2 ^ 8] else []) ++ (if row.words = 3 then [2 ^ 32, 2 ^ 32] else [])

/-- Every operand is below its bound, and there are as many operands as bounds. -/
def inBounds : List Nat → List Nat → Bool
  | [], [] => true
  | v :: vs, b :: bs => decide (v < b) && inBounds vs bs
  | _, _ => false

/-- The statement names an operation, with the right number of operands, each in range. "An operand out of its range is an assembly
error, not an encoding" (R110). -/
def Source.wellFormed (s : Source) : Bool :=
  match rowNamed s.mnemonic with
  | some row => inBounds s.operands (operandBounds row)
  | none => false

/-- The operation a statement stands for, none for an ill-formed one. -/
def Source.assemble (s : Source) : Option Instr :=
  match rowNamed s.mnemonic with
  | none => none
  | some row =>
    if inBounds s.operands (operandBounds row) then
      instrOf row.code
        (if row.usesImm then BitVec.ofNat 8 (s.operands.getD 0 0) else 0#8)
        (BitVec.ofNat 32 (s.operands.getD 0 0)) (BitVec.ofNat 32 (s.operands.getD 1 0))
    else none

/-- The mnemonic of an operation (R105). -/
def Instr.mnemonic (i : Instr) : String :=
  match rowOf i.opcode with
  | some row => row.mnemonic
  | none => ""

/-- The operands of an operation as R110 writes them. -/
def Instr.operands (i : Instr) : List Nat :=
  match rowOf i.opcode with
  | some row =>
    (if row.usesImm then [i.imm.toNat] else []) ++
      (match i.bufferWords with
       | some (buf, count) => [buf.toNat, count.toNat]
       | none => [])
  | none => []

/-- The statement that names an operation. -/
def Instr.source (i : Instr) : Source := ⟨i.mnemonic, i.operands⟩

/-- An operation is well formed iff the statement that names it is. Every `Instr` is (its types hold the bounds). -/
def Instr.wellFormed (i : Instr) : Bool := i.source.wellFormed

end Sys2Proof
end

