-- ==== Sys2Proof/Machine/Assembler.lean ====
section
/-! DEFINITION. The assembler syntax of 30_encoding R110: one statement per line, numbers in three bases, comments after `;`. Text is
a list of characters. -/

namespace Sys2Proof.Machine

/-- A blank between tokens. R110 does not say which characters separate tokens; a space and a tab here (log 20). -/
def isBlank (c : Char) : Bool := c == ' ' || c == '\t'

/-- Text without the blanks at its ends. -/
def trim (cs : List Char) : List Char := ((cs.dropWhile isBlank).reverse.dropWhile isBlank).reverse

/-- The value of a digit, letters in either case (log 20). -/
def digitValue (c : Char) : Option Nat :=
  if '0'.toNat ≤ c.toNat ∧ c.toNat ≤ '9'.toNat then some (c.toNat - '0'.toNat)
  else if 'a'.toNat ≤ c.toNat ∧ c.toNat ≤ 'f'.toNat then some (c.toNat - 'a'.toNat + 10)
  else if 'A'.toNat ≤ c.toNat ∧ c.toNat ≤ 'F'.toNat then some (c.toNat - 'A'.toNat + 10)
  else none

/-- Digits of a base, most significant first, after the value `acc` of those before. -/
def digitsFrom (base acc : Nat) : List Char → Option Nat
  | [] => some acc
  | c :: cs =>
    match digitValue c with
    | some d => if d < base then digitsFrom base (acc * base + d) cs else none
    | none => none

/-- At least one digit. -/
def digits (base : Nat) (cs : List Char) : Option Nat := if cs.isEmpty then none else digitsFrom base 0 cs

/-- A number: hexadecimal after `0x`, binary after `0b`, otherwise decimal (R110). -/
def number (cs : List Char) : Option Nat :=
  match cs with
  | '0' :: 'x' :: ds => digits 16 ds
  | '0' :: 'b' :: ds => digits 2 ds
  | ds => digits 10 ds

/-- The pieces of a text between commas. -/
def commaPieces : List Char → List (List Char)
  | [] => [[]]
  | c :: cs =>
    if c = ',' then [] :: commaPieces cs
    else
      match commaPieces cs with
      | [] => [[c]]
      | p :: ps => (c :: p) :: ps

/-- Every piece is a number. -/
def numbers : List (List Char) → Option (List Nat)
  | [] => some []
  | p :: ps =>
    match number (trim p), numbers ps with
    | some v, some vs => some (v :: vs)
    | _, _ => none

/-- The statement of a line, `some none` for a line with nothing but a comment, none for a line that is no statement (R110). -/
def parseLine (line : List Char) : Option (Option Source) :=
  let text := trim (line.takeWhile (· != ';'))
  if text.isEmpty then some none
  else
    let mnemonic := String.ofList (text.takeWhile (fun c => !isBlank c))
    let rest := trim (text.dropWhile (fun c => !isBlank c))
    if rest.isEmpty then some (some ⟨mnemonic, []⟩)
    else
      match numbers (commaPieces rest) with
      | some vs => some (some ⟨mnemonic, vs⟩)
      | none => none

/-- The words of a line; none is an assembly error. -/
def assembleLine (line : List Char) : Option (List Word) :=
  match parseLine line with
  | some none => some []
  | some (some src) => src.assemble.map encode
  | none => none

/-- The words of a program, one descriptor per line (R110). -/
def assembleProgram : List (List Char) → Option (List Word)
  | [] => some []
  | l :: ls =>
    match assembleLine l, assembleProgram ls with
    | some ws, some rest => some (ws ++ rest)
    | _, _ => none

end Sys2Proof.Machine
end

