-- ==== Sys2Proof/Safety.lean ====
section
/-! DEFINITION. What claims about the block speak of: the invariant of every run, where SEQ is, the observation of R308, runs and
their traces, and the host duties of 49_environment_steps R309 as named premises. -/

namespace Sys2Proof.Machine

/-! ## Where SEQ is -/

/-- The operation that SEQ is running, none when idle. -/
def running (s : State) : Option Instr := if s.seq.phase = .idle then none else s.current

/-- The operations that suspend the periodic interrupt source (41 R140). -/
def isGuarded (i : Instr) : Bool :=
  match i with
  | .waitCommand _ | .sendByte _ | .sendBytes _ _ | .readByte | .readBytes _ _ | .readBlock _ _ | .writeBlock _ _ => true
  | .beginOp _ | .endOp | .readStrobe | .readAck | .isIdle | .driveData _ | .releaseData | .acquireData | .pullIrq
  | .releaseIrq => false

/-- The operations of the block transfer engine (45). -/
def isBlock (i : Instr) : Bool :=
  match i with
  | .readBlock _ _ | .writeBlock _ _ => true
  | .waitCommand _ | .sendByte _ | .sendBytes _ _ | .readByte | .readBytes _ _
  | .beginOp _ | .endOp | .readStrobe | .readAck | .isIdle | .driveData _ | .releaseData | .acquireData | .pullIrq
  | .releaseIrq => false

/-- The operations that sample D and must not drive it (60 R340 code 7). -/
def isSampling (i : Instr) : Bool :=
  match i with
  | .waitCommand _ | .readByte | .readBytes _ _ | .readBlock _ _ => true
  | .sendByte _ | .sendBytes _ _ | .writeBlock _ _
  | .beginOp _ | .endOp | .readStrobe | .readAck | .isIdle | .driveData _ | .releaseData | .acquireData | .pullIrq
  | .releaseIrq => false

/-- `begin` itself. -/
def isBegin (i : Instr) : Bool :=
  match i with
  | .beginOp _ => true
  | .waitCommand _ | .sendByte _ | .sendBytes _ _ | .readByte | .readBytes _ _ | .readBlock _ _ | .writeBlock _ _
  | .endOp | .readStrobe | .readAck | .isIdle | .driveData _ | .releaseData | .acquireData | .pullIrq | .releaseIrq => false

/-- SEQ is past line 1 of an operation of the class. -/
def inside (c : Instr → Bool) (s : State) : Bool :=
  match running s with
  | some i => c i && s.seq.phase != .l1
  | none => false

/-- The lines between an acquire of D and its release: the block drives D there (44 R220, R221, 45 R263). -/
def drivesAt (i : Instr) (p : Phase) : Bool :=
  match i with
  | .sendByte _ => [.l2, .l3, .l4, .l5, .l6].contains p
  | .sendBytes _ _ => [.l3, .l4, .l5, .l6, .l7].contains p
  | .writeBlock _ _ => [.l2, .l3, .l4, .l5, .l6, .l7].contains p
  | .waitCommand _ | .readByte | .readBytes _ _ | .readBlock _ _
  | .beginOp _ | .endOp | .readStrobe | .readAck | .isIdle | .driveData _ | .releaseData | .acquireData | .pullIrq
  | .releaseIrq => false

/-- SEQ is at the wait of a byte slot: the counter has been reset and the slot's tick may still be to come (42 R176). -/
def slotWaiting (s : State) : Bool :=
  match running s with
  | some (.readBlock _ _) => s.seq.phase == .l3
  | some (.writeBlock _ _) => s.seq.phase == .l4
  | _ => false

/-- A byte slot is open: from a slot reset to the next one or the operation's completion (49 R309, `H_ONE_ACK`). -/
def slotOpen (s : State) : Bool :=
  match running s with
  | some (.readBlock _ _) => s.seq.phase != .l1 && (s.seq.phase == .l3 || s.seq.phase == .l4 || s.seq.idx != 0)
  | some (.writeBlock _ _) => s.seq.phase != .l1 && (s.seq.phase == .l4 || s.seq.idx != 0)
  | _ => false

/-- The byte index at each line of a multi-byte operation: below `COUNT` while a byte is moved, `COUNT` after the last one, and not 0
at the abort of a block operation. -/
def indexOk (i : Instr) (p : Phase) (n : Nat) : Bool :=
  match i with
  | .sendBytes _ count =>
    if p = .l1 then true else if p = .l8 then n == count.toNat else decide (n < count.toNat)
  | .readBytes _ count =>
    if p = .l1 then true else if p = .l7 ∨ p = .l8 then n == count.toNat else decide (n < count.toNat)
  | .readBlock _ count | .writeBlock _ count =>
    if p = .l1 then true else if p = .l5 then n == count.toNat && n != 0 else if p = .l6 then n == count.toNat
    else if p = .l7 then decide (n ≤ count.toNat) && n != 0 else decide (n < count.toNat)
  | .waitCommand _ | .sendByte _ | .readByte
  | .beginOp _ | .endOp | .readStrobe | .readAck | .isIdle | .driveData _ | .releaseData | .acquireData | .pullIrq
  | .releaseIrq => true

/-! ## The invariant -/

/-- What holds at every line of a running operation. -/
structure Running (i : Instr) (s : State) : Prop where
  /-- `S.PHASE` names a line of the operation. -/
  line : hasLine i s.seq.phase = true
  /-- The descriptor lies inside `PROG` (10_state R21). -/
  fits : s.pc + i.words ≤ s.prog.length
  /-- Every operation but `begin` runs with `CTRL.INIT = 1`, and `begin` with 0 (60 R343). -/
  session : s.regs.ctrl.init = !isBegin i
  /-- The byte index. -/
  index : indexOk i s.seq.phase s.seq.idx = true
  /-- A sampling operation past its first line does not drive D (60 R340 code 7). -/
  sampling : isSampling i = true → s.seq.phase ≠ .l1 → s.regs.ctrl.ddir = false
  /-- A driving operation drives D from its acquire to its release. -/
  driving : drivesAt i s.seq.phase = true → s.regs.ctrl.ddir = true
  /-- `SAMPLE` holds the slot's capture once the slot's tick has come (42 R175). -/
  captured : ∀ buf count, i = .readBlock buf count →
    (s.seq.phase = .l4 ∨ s.seq.phase = .l3 ∧ s.regs.cnt ≠ 0#16) → s.regs.sample ≠ .unwritten
  /-- `wait_command` accepts only a strobe of a member id (43 R203). -/
  member : ∀ mask, i = .waitCommand mask →
    (s.seq.phase = .l2b → strobe mask s.seq.snap = true) ∧
    (s.seq.phase = .l3 ∨ s.seq.phase = .l4 → maskHas mask (deviceId s.seq.cmd) = true)

/-- What holds in every state of every run, whatever the agents do. -/
structure Inv (s : State) : Prop where
  /-- Buffer memory is in canonical form. -/
  memory : s.mem.wf = true
  /-- The data bus has one owner (10_state R45). -/
  oneDriver : s.regs.ctrl.ddir = true → s.lines.dh = none
  /-- `S.PC` is bounded by `|PROG|` (10_state R21). -/
  pcBound : s.pc ≤ s.prog.length
  /-- A running operation is a decoded one, at one of its lines. -/
  op : s.seq.phase ≠ .idle → ∃ i, s.current = some i ∧ Running i s
  /-- The session's configuration (60 R343). -/
  configured : s.regs.ctrl.init = true →
    s.regs.ccrReq = 1#16 ∧ s.regs.ccrTrig = 1#16 ∧ s.regs.tcfg = Tcfg.begun ∧ s.regs.dcfg = Dcfg.begun
  /-- Outside a session the timer and the sampler are stopped (42 R161, 10_state R48). -/
  stopped : s.regs.ctrl.init = false → s.regs.tcfg.ten = false ∧ s.regs.dcfg.den = false
  /-- In a session `CNT ≥ 1` outside byte slots (10_state R49). -/
  counter : s.regs.ctrl.init = true → s.regs.cnt = 0#16 → slotWaiting s = true
  /-- REQ is the timer's output exactly inside a block operation (45 R261). -/
  reqMode : s.regs.ctrl.reqMode = inside isBlock s
  /-- The periodic source is suspended exactly inside a guarded operation (70 R394). -/
  jsusp : s.regs.ctrl.jsusp = inside isGuarded s
  /-- `SAVED_JSUSP` is always 0 (41 R140). -/
  saved : inside isGuarded s = true → s.seq.savedJsusp = false
  /-- `STATUS` is OK or INTEGRITY_FAULT (10_state R27). -/
  status : s.regs.res.extractLsb' 8 8 = 0x00#8 ∨ s.regs.res.extractLsb' 8 8 = 0x01#8
  /-- `FAULT` is 0 or a code of 60 R340. -/
  faultCode : s.regs.fault.toNat ≤ 10

/-! ## Observation, launch and runs -/

/-- What a run shows (49 R308). -/
structure Observation where
  log   : List Event
  mem   : Memory
  res   : Half
  fault : Byte
  deriving DecidableEq, Repr

/-- The observation of a state. -/
def State.observe (s : State) : Observation := ⟨s.log, s.mem, s.regs.res, s.regs.fault⟩

/-- `OVR_T` is 2 or more (00_scope R8); it is at most `CNT_TOP` by its width (log 19). -/
def Params.wf (p : Params) : Bool := decide (2 ≤ p.ovrT.toNat)

/-- The power-on state of a launch (70 R381, R385, R387). -/
def State.launched (prog : List Word) (mem : Memory) (p : Params) (l : Lines) (sched : List Move) : State :=
  { State.reset with prog := prog, mem := mem, params := p, lines := l, sched := sched }

/-- A state of some run from some launch, with any schedule the environment chooses between the steps. -/
inductive Reachable : State → Prop where
  | launch (prog : List Word) (mem : Memory) (p : Params) (l : Lines) (sched : List Move)
      (hm : mem.wf = true) (hp : p.wf = true) : Reachable (State.launched prog mem p l sched)
  | move (s t : State) (hs : Reachable s) (h : step s = .next t) : Reachable t
  | schedule (s : State) (sched : List Move) (hs : Reachable s) : Reachable { s with sched := sched }

/-- What a run did: each state with the move that was taken in it. -/
abbrev Trace := List (State × Move)

/-- The states and moves of the next `n` steps, up to a stop. -/
def trace : Nat → State → Trace
  | 0, _ => []
  | n + 1, s =>
    match step s with
    | .next t => (s, nextMove s) :: trace n t
    | .fault _ => []
    | .refused _ => []

/-! ## Host duties (49 R309)

Each is a premise over the next move of a state, or over a trace, taken as the whole run that is looked at. `H_TIMING` is timing
only and has no form here (70 R395). The readings are DEDUCED (log 22). -/

/-- The host makes ACK fall: its move is enabled (R302). -/
def ackEdge (s : State) (m : Move) : Bool := m == .host .ackFall && !s.lines.ackH

/-- `H_ONE_ACK`: no ACK falling edge while REQ is released, at most one in each byte slot. -/
def hOneAck (s : State) (m : Move) : Prop :=
  ackEdge s m = true → levelREQ s = false ∧ (slotOpen s = true → s.regs.cnt = 0#16)

/-- `H_DATA_BEFORE_ACK`: in `read_block` the host drives D at the slot's ACK falling edge. Which edge that is in a slot with several, the
spec does not say: the first, which captures (42 R175), a DEDUCED reading (log 22). -/
def hDataBeforeAck (s : State) (m : Move) : Prop :=
  ∀ buf count, running s = some (.readBlock buf count) → slotOpen s = true → s.regs.cnt = 0#16 → ackEdge s m = true →
    s.lines.dh ≠ none

/-- SEQ is at a line that acquires D. -/
def acquires (s : State) : Bool :=
  match running s with
  | some .acquireData => s.seq.phase == .l1
  | some (.sendByte _) => s.seq.phase == .l1
  | some (.sendBytes _ _) => s.seq.phase == .l2
  | some (.writeBlock _ _) => s.seq.phase == .l1
  | _ => false

/-- `H_NO_DRIVE`: the host does not drive D while the block does, and has stopped when the block acquires it. -/
def hNoDrive (s : State) (m : Move) : Prop :=
  (∀ b, m = .host (.data (some b)) → s.regs.ctrl.ddir = false) ∧ (m = .seq → acquires s = true → s.lines.dh = none)

/-- A send operation is running and not past its last byte: `send_bytes` has none left at line 8, and none at all with `COUNT = 0`. -/
def sendsByte (s : State) : Bool :=
  match running s with
  | some (.sendByte _) => true
  | some (.sendBytes _ count) => if s.seq.phase = .l1 then count.toNat != 0 else s.seq.phase != .l8
  | _ => false

/-! ### Duties over a trace -/

/-- Every entry of a trace has the property, which may speak of the entries after it. -/
def eachMove (p : State × Move → Trace → Bool) : Trace → Bool
  | [] => true
  | e :: rest => p e rest && eachMove p rest

/-- The watchdog resets the block: whatever was asked of the host is over. -/
def resets (e : State × Move) : Bool := e.2 == .wdog && watchdogEnabled e.1

/-- SEQ is at a line that reads CS. -/
def readsCS (s : State) : Bool :=
  match running s with
  | some (.waitCommand _) => s.seq.phase == .l2a || s.seq.phase == .l2d || s.seq.phase == .l3
  | some (.sendByte _) => s.seq.phase == .l4 || s.seq.phase == .l5
  | some (.sendBytes _ _) => s.seq.phase == .l5 || s.seq.phase == .l6
  | some .readByte => s.seq.phase == .l3 || s.seq.phase == .l4
  | some (.readBytes _ _) => s.seq.phase == .l3 || s.seq.phase == .l4 || s.seq.phase == .l7
  | _ => false

/-- SEQ reads CS before it changes again, if it does. A poll at a wait whose condition is false counts as such a read, although SEQ has
no step then (00_scope R11): R309 speaks of polls in its bracket. A DEDUCED reading (log 22). -/
def csReadFirst : Trace → Bool
  | [] => true
  | (s, m) :: rest => if m = .seq ∧ readsCS s = true then true else if m = .host .toggleCS then false else csReadFirst rest

/-- `H_CS_SEEN`: each level of CS is held until SEQ has taken a step that reads it. -/
def hCsSeen (tr : Trace) : Bool := eachMove (fun e rest => e.2 != .host .toggleCS || csReadFirst rest) tr

/-- SEQ is at a line that pulls IRQ for an exchange (44). -/
def pullsIrq (s : State) : Bool :=
  match running s with
  | some (.sendByte _) => s.seq.phase == .l3
  | some (.sendBytes _ _) => s.seq.phase == .l4
  | some .readByte => s.seq.phase == .l2
  | some (.readBytes _ _) => s.seq.phase == .l2
  | _ => false

/-- SEQ is past the last exchange of the operation: no IRQ assertion is left to answer (44 R221 line 8, R223 lines 7 and 8). -/
def pastExchanges (s : State) : Bool :=
  match running s with
  | some (.sendBytes _ _) => s.seq.phase == .l8
  | some (.readBytes _ _) => s.seq.phase == .l7 || s.seq.phase == .l8
  | _ => false

/-- Up to the next IRQ assertion of the operation, or the end of its exchanges, the host makes exactly `n` changes of CS; at most `n` if
a watchdog reset comes first. -/
def csChanges : Nat → Trace → Bool
  | n, [] => n == 0
  | n, (s, m) :: rest =>
    if s.seq.phase = .idle ∨ pastExchanges s = true ∨ (m = .seq ∧ pullsIrq s = true) then n == 0
    else if resets (s, m) = true then true
    else if m = .host .toggleCS then
      match n with
      | 0 => false
      | n + 1 => csChanges n rest
    else csChanges n rest

/-- The host holds a command: CS asserted with A1, which announces it (49 R301), or with A1 released again while `wait_command` has
seen the strobe (lines 2b and 3, 43 R200). -/
def commandHeld (s : State) : Bool :=
  s.lines.csH &&
    (s.lines.a1H ||
      match running s with
      | some (.waitCommand _) => s.seq.phase == .l2b || s.seq.phase == .l3
      | _ => false)

/-- The host's move announces a command: it makes CS and A1 both asserted (49 R301). -/
def announces (s : State) (m : Move) : Bool :=
  (m == .host .toggleCS && !s.lines.csH && s.lines.a1H) || (m == .host .toggleA1 && s.lines.csH && !s.lines.a1H)

/-- CS changes. From a state that has it asserted, its first change is the release. -/
def changesCS (tr : Trace) : Bool := tr.any (fun e => e.2 == .host .toggleCS)

/-- `H_CS_CYCLE`: each IRQ assertion of an exchange finds CS released and is answered by one assertion and one release of CS, and no
further change of it before the next IRQ assertion or the end of the operation's exchanges (SEQ itself waits for both before it releases IRQ); and CS is
released after each command, whether or not SEQ has come to wait for it. -/
def hCsCycle (tr : Trace) : Bool :=
  eachMove (fun e rest =>
    (!(e.2 == .seq && pullsIrq e.1) || (!e.1.lines.csH && csChanges 2 rest)) &&
    (!commandHeld e.1 || changesCS (e :: rest)) && (!announces e.1 e.2 || changesCS rest)) tr

/-- SEQ is at the poll of a send operation that waits for the host's CS assertion (44 R220 line 4, R221 line 5). -/
def awaitsTake (s : State) : Bool :=
  match running s with
  | some (.sendByte _) => s.seq.phase == .l4
  | some (.sendBytes _ _) => s.seq.phase == .l5
  | _ => false

/-- CS changes, or the watchdog resets the block, before SEQ polls for the take. -/
def notCounted : Trace → Bool
  | [] => true
  | (s, m) :: rest =>
    if m = .host .toggleCS ∨ resets (s, m) = true then true else if m = .seq ∧ awaitsTake s = true then false else notCounted rest

/-- `H_TAKE_AFTER_IRQ`: the host takes the byte of a send operation at its CS assertion. While a byte is to be given it asserts CS only
while the block pulls IRQ; and a CS that was asserted earlier, in the operation or before it, is not still asserted when SEQ polls for
the take, which would count that cycle (44 R220). -/
def hTakeAfterIrq (tr : Trace) : Bool :=
  eachMove (fun e rest =>
    (!(sendsByte e.1 && e.2 == .host .toggleCS && !e.1.lines.csH) || e.1.regs.ctrl.irqPull) &&
    (!(sendsByte e.1 && e.2 == .seq && pullsIrq e.1 && e.1.lines.csH) || notCounted rest)) tr

/-- SEQ is at the line whose step opens a byte slot: its slot reset, where the strict check does not abort (42 R176). -/
def opensSlot (s : State) : Bool :=
  (match running s with
   | some (.readBlock _ _) => s.seq.phase == .l2
   | some (.writeBlock _ _) => s.seq.phase == .l3
   | _ => false) && !(s.seq.idx != 0 && overrun s.params s.regs.cnt)

/-- An ACK falling edge comes while SEQ is at the slot's wait, unless a watchdog reset ends the slot. -/
def slotAnswered : Trace → Bool
  | [] => false
  | (s, m) :: rest => slotWaiting s && (ackEdge s m || resets (s, m) || slotAnswered rest)

/-- `H_ACK_ANSWERS`: every byte slot has an ACK falling edge of its own. -/
def hAckAnswers (tr : Trace) : Bool := eachMove (fun e rest => !(e.2 == .seq && opensSlot e.1) || slotAnswered rest) tr

/-- A byte is still to be sampled by `read_byte` or `read_bytes`: an assertion of CS here belongs to its exchange, IRQ being pulled
already or not. -/
def awaitsByte (s : State) : Bool :=
  match running s with
  | some .readByte => [.l1, .l2, .l3, .l4].contains s.seq.phase
  | some (.readBytes _ count) =>
    if s.seq.phase = .l1 then count.toNat != 0
    else if s.seq.phase = .l5 ∨ s.seq.phase = .l6 then decide (s.seq.idx + 1 < count.toNat)
    else [.l2, .l3, .l4].contains s.seq.phase
  | _ => false

/-- SEQ is at the poll that samples D, with CS released (44 R222, R223). -/
def samplesByte (s : State) : Bool :=
  match running s with
  | some .readByte => s.seq.phase == .l4 && !s.lines.csH
  | some (.readBytes _ _) => s.seq.phase == .l4 && !s.lines.csH
  | _ => false

/-- SEQ is at the line that releases IRQ after a sample. -/
def releasesIrq (s : State) : Bool :=
  match running s with
  | some .readByte => s.seq.phase == .l5
  | some (.readBytes _ _) => s.seq.phase == .l6
  | _ => false

/-- The host does not change the byte on D before SEQ has sampled it and then released IRQ, or a watchdog reset has; driving the same
byte again keeps it. -/
def keepsByte (sampled : Bool) : Trace → Bool
  | [] => true
  | (s, m) :: rest =>
    match m with
    | .host (.data d) => decide (d = s.lines.dh) && keepsByte sampled rest
    | .seq => if sampled = true ∧ releasesIrq s = true then true else keepsByte (sampled || samplesByte s) rest
    | .wdog => if watchdogEnabled s = true then true else keepsByte sampled rest
    | _ => keepsByte sampled rest

/-- `H_DATA_HOLD`: when CS is asserted for a byte that a read operation is still to sample, even before IRQ is pulled, the host drives
D, and it keeps the byte until SEQ has released IRQ. -/
def hDataHold (tr : Trace) : Bool :=
  eachMove (fun e rest =>
    !(awaitsByte e.1 && (e.1.lines.csH || e.2 == .host .toggleCS)) || (e.1.lines.dh.isSome && keepsByte false (e :: rest))) tr

/-! ## Schedules of a well-behaved host, for claims about whole operations -/

/-- One byte of `send_bytes`: lines 2, 3, 4, the host's CS assertion, line 5, its release, lines 6 and 7. -/
def exchangeOut : List Move := [.seq, .seq, .seq, .host .toggleCS, .seq, .host .toggleCS, .seq, .seq]

/-- One byte of `read_bytes`: line 2, the host's byte and CS assertion, line 3, the release, lines 4, 5 and 6. -/
def exchangeIn (b : Byte) : List Move :=
  [.seq, .host (.data (some b)), .host .toggleCS, .seq, .host .toggleCS, .seq, .seq, .seq]

/-- One byte slot of `read_block`: line 2, the host's byte and ACK pulse, lines 3 and 4. -/
def slotIn (b : Byte) : List Move :=
  [.seq, .host (.data (some b)), .host .ackFall, .host .ackRise, .seq, .seq]

/-- One byte slot of `write_block`: lines 2 and 3, the host's ACK pulse, line 4. -/
def slotOut : List Move := [.seq, .seq, .host .ackFall, .host .ackRise, .seq]

/-- The `FinalCheck` step of a block operation, taken in strict mode with at least one byte. -/
def finalCheckMoves (p : Params) (n : Nat) : List Move := if p.strict = true ∧ n ≠ 0 then [.seq] else []

end Sys2Proof.Machine
end

