-- ==== Sys2Proof/Certificates/Slice0/Obligations.lean ====
section
/-! DEFINITION. The statements about the block, from the numbered rules of spec/. `s.seq.phase` is the pseudocode line at which SEQ
is; `exec i s` is the step of operation `i` at that line. A next state written as a record update of `s` says the whole frame: every
register, every line, the log, the parameters and every byte of memory not named is as before. -/

open Sys2Proof Sys2Proof.Machine

/-! ## Encoding (30_encoding) -/

/-- R111, the table of examples: the words of each statement, that they decode to it, and the faults of the two last rows.
Model's choices in it: log 1, 23. -/
def Obligations.SpecExamplesEncodeAndDecode : Prop :=
  (∀ e ∈ ([(.beginOp 0x03#8, [0x01030000#32]), (.endOp, [0x02000000#32]), (.readStrobe, [0x10000000#32]),
      (.isIdle, [0x12000000#32]), (.driveData 0xA5#8, [0x20A50000#32]), (.waitCommand 0x01#8, [0x30010000#32]),
      (.sendByte 0x00#8, [0x40000000#32]), (.sendBytes 0x20000000#32 4#32, [0x41000000#32, 0x20000000#32, 0x00000004#32]),
      (.readBytes 0x100#32 5#32, [0x43000000#32, 0x00000100#32, 0x00000005#32]),
      (.readBlock 0x300#32 512#32, [0x50000000#32, 0x00000300#32, 0x00000200#32]),
      (.writeBlock 0x200#32 3#32, [0x51000000#32, 0x00000200#32, 0x00000003#32])] : List (Instr × List Word)),
    encode e.1 = e.2 ∧ decode e.2 = .ok e.1) ∧
  (∀ (s : State) (w : Word), s.regs.fault = 0#8 → nextMove s = .seq → s.seq.phase = .idle → s.prog[s.pc]? = some w →
    (w = 0x13000000#32 → step s = .next { s.popped with regs.fault := 1#8 }) ∧
    (w = 0x10000001#32 ∨ w = 0x21FF0000#32 → step s = .next { s.popped with regs.fault := 3#8 }))

/-- Decoding the words of any operation gives it back, whatever words follow (R101 to R105, R107); so does decoding them after the
program has been serialized and read back (R75). -/
def Obligations.DecodeInvertsEncode : Prop :=
  ∀ (i : Instr) (rest : List Word),
    decode (encode i ++ rest) = .ok i ∧ decode (bytesProg (progBytes (encode i ++ rest))) = .ok i

/-- Only an operation's own words decode to it: no bit of a descriptor is ignored (R101 to R107). -/
def Obligations.EncodeInvertsDecode : Prop :=
  ∀ (ws : List Word) (i : Instr), decode ws = .ok i → i.words ≤ ws.length ∧ ws.take i.words = encode i

/-- R107 with R103 and R106: each word list is decoded or rejected by exactly the stated condition. -/
def Obligations.DecodeIsTotalAndExclusive : Prop :=
  ∀ (w0 : Word) (rest : List Word),
    let opc := w0.extractLsb' 24 8
    let known := opc ∈ [0x01#8, 0x02#8, 0x10#8, 0x11#8, 0x12#8, 0x20#8, 0x21#8, 0x22#8, 0x23#8, 0x24#8, 0x30#8, 0x40#8, 0x41#8, 0x42#8,
      0x43#8, 0x50#8, 0x51#8]
    let short := opc ∈ [0x41#8, 0x43#8, 0x50#8, 0x51#8] ∧ rest.length < 2
    let reserved := w0.extractLsb' 0 16 ≠ 0#16 ∨ (opc ∉ [0x01#8, 0x20#8, 0x30#8, 0x40#8] ∧ w0.extractLsb' 16 8 ≠ 0#8)
    (decode (w0 :: rest) = .illegalOp ↔ ¬ known) ∧
    (decode (w0 :: rest) = .truncated ↔ known ∧ short) ∧
    (decode (w0 :: rest) = .reservedBits ↔ known ∧ ¬ short ∧ reserved) ∧
    ((∃ i, decode (w0 :: rest) = .ok i) ↔ known ∧ ¬ short ∧ ¬ reserved)

/-- R75: the serialized form is little-endian and loses nothing. -/
def Obligations.SerializedProgramIsLittleEndian : Prop :=
  (∀ (w : Word) (ws : List Word),
    progBytes (w :: ws) = [w.extractLsb' 0 8, w.extractLsb' 8 8, w.extractLsb' 16 8, w.extractLsb' 24 8] ++ progBytes ws) ∧
  (∀ ws : List Word, bytesProg (progBytes ws) = ws)

/-- R110, the operand ranges: a statement assembles iff it is well formed, every operation is the assembly of one statement, and an
assembled statement is the operation's own. -/
def Obligations.StatementsAssembleExactlyInRange : Prop :=
  (∀ src : Source, (src.assemble).isSome = src.wellFormed) ∧
  (∀ i : Instr, i.source.assemble = some i) ∧
  (∀ (src : Source) (i : Instr), src.assemble = some i → i.source = src)

/-! ## One step (10_state R20, R21; 30 R108; 60 R341) -/

/-- A step of SEQ is `exec` of the decoded descriptor when idle, and of the latched operation at its line otherwise, on the state
less the move taken off the schedule.
Model's choices in it: log 1. -/
def Obligations.StepRunsTheDecodedOperation : Prop :=
  (∀ (s : State) (i : Instr), s.regs.fault = 0#8 → nextMove s = .seq → s.seq.phase = .idle → decode (s.prog.drop s.pc) = .ok i →
    step s = exec i s.popped) ∧
  (∀ (s : State) (i : Instr), s.regs.fault = 0#8 → nextMove s = .seq → s.seq.phase ≠ .idle → s.current = some i →
    step s = exec i s.popped)

/-- A word placed by `withFetchWord` is the one the next step issues.
Model's choices in it: log 1, 8. -/
def Obligations.PlacedWordIsIssuedNext : Prop :=
  ∀ (s : State) (nbits w : Nat) (i : Instr), decodeTableWord nbits w = some i →
    step (s.withFetchWord nbits w) = exec i (s.withFetchWord nbits w)

/-- R108: the issue step, its checks in order, and the latched descriptor.
Model's choices in it: log 1, 23. -/
def Obligations.IssueChecksThenLatches : Prop :=
  ∀ (s : State) (w0 : Word), s.regs.fault = 0#8 → nextMove s = .seq → s.seq.phase = .idle → s.prog[s.pc]? = some w0 →
    let opc := w0.extractLsb' 24 8
    let imm := w0.extractLsb' 16 8
    let len := if opc ∈ [0x41#8, 0x43#8, 0x50#8, 0x51#8] then 3 else 1
    step s =
      if opc ∉ [0x01#8, 0x02#8, 0x10#8, 0x11#8, 0x12#8, 0x20#8, 0x21#8, 0x22#8, 0x23#8, 0x24#8, 0x30#8, 0x40#8, 0x41#8, 0x42#8, 0x43#8,
        0x50#8, 0x51#8] then .next { s.popped with regs.fault := 1#8 }
      else if s.prog.length < s.pc + len then .next { s.popped with regs.fault := 2#8 }
      else if w0.extractLsb' 0 16 ≠ 0#16 ∨ (opc ∉ [0x01#8, 0x20#8, 0x30#8, 0x40#8] ∧ imm ≠ 0#8) then
        .next { s.popped with regs.fault := 3#8 }
      else if opc ≠ 0x01#8 ∧ s.regs.ctrl.init = false then .next { s.popped with regs.fault := 4#8 }
      else if opc = 0x01#8 ∧ s.regs.ctrl.init = true then .next { s.popped with regs.fault := 5#8 }
      else .next { s.popped with
        seq.opc := opc
        seq.imm8 := imm
        seq.buf := if len = 3 then s.prog.getD (s.pc + 1) 0#32 else s.seq.buf
        seq.count := if len = 3 then s.prog.getD (s.pc + 2) 0#32 else s.seq.count
        seq.phase := .l1 }

/-- At the normal end SEQ and the watchdog have no step (R386): the state is as before, less the move.
Model's choices in it: log 1, 2. -/
def Obligations.NormalEndHasNoSeqStep : Prop :=
  ∀ s : State, s.regs.fault = 0#8 → s.seq.phase = .idle → s.pc = s.prog.length → nextMove s = .seq ∨ nextMove s = .wdog →
    step s = .next s.popped

/-- R341: the raising step writes `FAULT` and nothing else (the model's schedule aside), and no agent has a step afterwards.
Model's choices in it: log 1, 5, 23. -/
def Obligations.FaultedStateIsFinal : Prop :=
  (∀ s t : State, s.regs.fault = 0#8 → step s = .next t → t.regs.fault ≠ 0#8 →
    t = { s.popped with regs.fault := t.regs.fault } ∧ t.pc = s.pc ∧ t.seq.phase = s.seq.phase) ∧
  (∀ s : State, s.regs.fault ≠ 0#8 → step s = .fault (.faulted s.regs.fault))

/-- R340, the columns "raised by" and "condition": a step that raises a code is the named agent's, under the named condition.
Model's choices in it: log 1, 4. -/
def Obligations.FaultCodesHaveTheirCauses : Prop :=
  ∀ s t : State, s.regs.fault = 0#8 → step s = .next t → t.regs.fault ≠ 0#8 →
    (t.regs.fault = 1#8 ∧ nextMove s = .seq ∧ s.seq.phase = .idle ∧ decode (s.prog.drop s.pc) = .illegalOp) ∨
    (t.regs.fault = 2#8 ∧ nextMove s = .seq ∧ s.seq.phase = .idle ∧ decode (s.prog.drop s.pc) = .truncated) ∨
    (t.regs.fault = 3#8 ∧ nextMove s = .seq ∧ s.seq.phase = .idle ∧ decode (s.prog.drop s.pc) = .reservedBits) ∨
    (t.regs.fault = 4#8 ∧ nextMove s = .seq ∧ s.seq.phase = .idle ∧ s.regs.ctrl.init = false ∧
      ∃ i, decode (s.prog.drop s.pc) = .ok i ∧ isBegin i = false) ∨
    (t.regs.fault = 5#8 ∧ nextMove s = .seq ∧ s.seq.phase = .idle ∧ s.regs.ctrl.init = true ∧
      ∃ mask, decode (s.prog.drop s.pc) = .ok (.beginOp mask)) ∨
    (t.regs.fault = 6#8 ∧ nextMove s = .seq ∧ s.seq.phase = .l1 ∧ s.regs.ctrl.ddir = false ∧
      ∃ b, s.current = some (.driveData b)) ∨
    (t.regs.fault = 7#8 ∧ nextMove s = .seq ∧ s.seq.phase = .l1 ∧ s.regs.ctrl.ddir = true ∧
      ∃ i, s.current = some i ∧ isSampling i = true) ∨
    (t.regs.fault = 8#8 ∧ nextMove s = .seq ∧ acquires s = true ∧ s.lines.dh ≠ none) ∨
    (t.regs.fault = 8#8 ∧ s.regs.ctrl.ddir = true ∧ ∃ b, nextMove s = .host (.data (some b))) ∨
    (t.regs.fault = 9#8 ∧ nextMove s = .host .ackFall ∧ s.lines.ackH = false ∧ s.regs.tcfg.ten = true ∧ s.regs.cnt = 0xFFFF#16) ∨
    (t.regs.fault = 10#8 ∧ nextMove s = .seq ∧ s.seq.phase = .l4 ∧ s.regs.sample = .unwritten ∧
      ∃ buf count, s.current = some (.readBlock buf count))

/-! ## The bus (10_state R42 to R45) -/

/-- R42, R43, R44: the level of each control line. -/
def Obligations.ControlLineLevels : Prop :=
  ∀ s : State,
    (levelCS s = false ↔ s.lines.csH = true) ∧ (levelA1 s = false ↔ s.lines.a1H = true) ∧
    (levelACK s = false ↔ s.lines.ackH = true) ∧
    (levelIRQ s = false ↔ s.regs.ctrl.irqPull = true ∨ s.lines.irqE = true) ∧
    (levelREQ s = false ↔ (s.regs.ctrl.reqMode = true ∧ s.regs.cnt.toNat < s.regs.ccrReq.toNat) ∨ s.lines.reqE = true)

/-- R45, the two cases with a value, and R36: the data byte is the high half of the port. A floating bus and an unwritten driven
latch are free values (log 3), of which nothing is said.
Model's choices in it: log 3, 12. -/
def Obligations.DataBusLevel : Prop :=
  ∀ (s : State) (b : Byte),
    (s.regs.ctrl.ddir = true → s.lines.dh = none → s.regs.dout = .holds b → levelD s = b) ∧
    (s.regs.ctrl.ddir = false → s.lines.dh = some b → levelD s = b) ∧
    (portIn s).extractLsb' 8 8 = levelD s

/-! ## Bus line access (41) -/

/-- R131, R132, R133: the queries complete with the level read at line 1. -/
def Obligations.QueriesCompleteWithLevels : Prop :=
  encode .readStrobe = [0x10000000#32] ∧ encode .readAck = [0x11000000#32] ∧ encode .isIdle = [0x12000000#32] ∧
  ∀ s : State, s.seq.phase = .l1 →
    (let res : Half := if s.lines.a1H = true then 0x0000#16 else 0x0001#16
     exec .readStrobe s =
      .next { s with regs.res := res, log := s.log ++ [Event.done s.pc 0x10#8 res], pc := s.pc + 1, seq.phase := .idle }) ∧
    (let res : Half := if s.lines.ackH = true then 0x0000#16 else 0x0001#16
     exec .readAck s =
      .next { s with regs.res := res, log := s.log ++ [Event.done s.pc 0x11#8 res], pc := s.pc + 1, seq.phase := .idle }) ∧
    (let res : Half := if levelIRQ s = true ∧ levelREQ s = true ∧ levelACK s = true then 0x0001#16 else 0x0000#16
     exec .isIdle s =
      .next { s with regs.res := res, log := s.log ++ [Event.done s.pc 0x12#8 res], pc := s.pc + 1, seq.phase := .idle })

/-- R134: `drive_data`, and that the new value is on D when the block alone drives it. -/
def Obligations.DriveDataWritesTheLatch : Prop :=
  ∀ (b : Byte) (s : State), encode (.driveData b) = [0x20000000#32 ||| (b.setWidth 32 <<< 16)] ∧
    (s.seq.phase = .l1 → s.regs.ctrl.ddir = false → exec (.driveData b) s = .next { s with regs.fault := 6#8 }) ∧
    (s.seq.phase = .l1 → s.regs.ctrl.ddir = true →
      ∃ t, exec (.driveData b) s = .next t ∧
        t = { s with regs.dout := .holds b, regs.res := 0x0000#16, log := s.log ++ [Event.done s.pc 0x20#8 0x0000#16], pc := s.pc + 1,
                     seq.phase := .idle } ∧
        (s.lines.dh = none → levelD t = b))

/-- R135, R136: `release_data` and `acquire_data`, and what is on D afterwards where the spec gives it a value. -/
def Obligations.ReleaseAndAcquireDataSwitchDirection : Prop :=
  encode .releaseData = [0x21000000#32] ∧ encode .acquireData = [0x22000000#32] ∧
  ∀ s : State, s.seq.phase = .l1 →
    (∃ t, exec .releaseData s = .next t ∧
      t = { s with regs.ctrl.ddir := false, regs.res := 0x0000#16, log := s.log ++ [Event.done s.pc 0x21#8 0x0000#16], pc := s.pc + 1,
                   seq.phase := .idle } ∧
      ∀ b, s.lines.dh = some b → levelD t = b) ∧
    (s.lines.dh = none →
      ∃ t, exec .acquireData s = .next t ∧
        t = { s with regs.ctrl.ddir := true, regs.res := 0x0000#16, log := s.log ++ [Event.done s.pc 0x22#8 0x0000#16], pc := s.pc + 1,
                     seq.phase := .idle } ∧
        ∀ b, s.regs.dout = .holds b → levelD t = b) ∧
    (s.lines.dh ≠ none → exec .acquireData s = .next { s with regs.fault := 8#8 })

/-- R137, R138: `pull_irq` and `release_irq`, with the level of IRQ afterwards. -/
def Obligations.PullAndReleaseIrqSetTheLine : Prop :=
  encode .pullIrq = [0x23000000#32] ∧ encode .releaseIrq = [0x24000000#32] ∧
  ∀ s : State, s.seq.phase = .l1 →
    (∃ t, exec .pullIrq s = .next t ∧
      t = { s with regs.ctrl.irqPull := true, regs.res := 0x0000#16, log := s.log ++ [Event.done s.pc 0x23#8 0x0000#16], pc := s.pc + 1,
                   seq.phase := .idle } ∧
      levelIRQ t = false) ∧
    (∃ t, exec .releaseIrq s = .next t ∧
      t = { s with regs.ctrl.irqPull := false, regs.res := 0x0000#16, log := s.log ++ [Event.done s.pc 0x24#8 0x0000#16], pc := s.pc + 1,
                   seq.phase := .idle } ∧
      levelIRQ t = !s.lines.irqE)

/-- R139: `SafeRelease` clears the three drives, leaves the rest of `CTRL`, and twice is once (V1.3, V2.2.9). -/
def Obligations.SafeReleaseIsIdempotent : Prop :=
  ∀ s : State,
    s.safeRelease = { s with regs.ctrl := ⟨s.regs.ctrl.init, s.regs.ctrl.jsusp, false, false, false⟩ } ∧
    s.safeRelease.safeRelease = s.safeRelease ∧
    (s.regs.ctrl.word = 0b11111#32 → s.safeRelease.regs.ctrl.word = 0b00011#32)

/-! ## Session operations and the timer (42) -/

/-- R160: everything `begin` writes. -/
def Obligations.BeginConfiguresTheSession : Prop :=
  ∀ (mask : Byte) (s : State), encode (.beginOp mask) = [0x01000000#32 ||| (mask.setWidth 32 <<< 16)] ∧
    (s.seq.phase = .idle → s.regs.ctrl.init = true → exec (.beginOp mask) s = .next { s with regs.fault := 5#8 }) ∧
    (s.seq.phase = .l1 →
      ∃ t, exec (.beginOp mask) s = .next t ∧
        t.regs.devmask = .holds mask ∧ t.regs.ccrReq = 1#16 ∧ t.regs.ccrTrig = 1#16 ∧ t.regs.cnt = 1#16 ∧
        t.regs.tcfg.word = 0x77#8 ∧ t.regs.dcfg.word = 0x0177#16 ∧
        t.regs.ctrl = ⟨true, s.regs.ctrl.jsusp, false, false, false⟩ ∧ t.regs.res = 0x0000#16 ∧
        t.regs.dout = s.regs.dout ∧ t.regs.sample = s.regs.sample ∧ t.regs.fault = s.regs.fault ∧
        { t with regs := s.regs } =
          { s with log := s.log ++ [Event.done s.pc 0x01#8 0x0000#16], pc := s.pc + 1, seq.phase := .idle })

/-- R161: everything `end` writes; `TCFG` and `DCFG` of a session become 0x76 and 0x0176. -/
def Obligations.EndTearsTheSessionDown : Prop :=
  encode .endOp = [0x02000000#32] ∧
  (∀ s : State, s.seq.phase = .idle → s.regs.ctrl.init = false → exec .endOp s = .next { s with regs.fault := 4#8 }) ∧
  (∀ s : State, s.seq.phase = .l1 →
    ∃ t, exec .endOp s = .next t ∧
      t = { s with
        regs.tcfg.ten := false
        regs.dcfg.den := false
        regs.ctrl := ⟨false, s.regs.ctrl.jsusp, false, false, false⟩
        regs.res := 0x0000#16
        log := s.log ++ [Event.done s.pc 0x02#8 0x0000#16]
        pc := s.pc + 1
        seq.phase := .idle } ∧
      (s.regs.tcfg.word = 0x77#8 → t.regs.tcfg.word = 0x76#8) ∧ (s.regs.dcfg.word = 0x0177#16 → t.regs.dcfg.word = 0x0176#16))

/-- R170, R171, R302: the ACK falling edge with its tick and capture, one step.
Model's choices in it: log 1, 3, 21, 23. -/
def Obligations.AckFallTicksAndCaptures : Prop :=
  ∀ s : State, s.regs.fault = 0#8 → nextMove s = .host .ackFall → s.lines.ackH = false →
    (s.regs.tcfg.ten = true → s.regs.cnt ≠ 0xFFFF#16 →
      ∃ t, step s = .next t ∧ t.lines = { s.lines with ackH := true } ∧ t.regs.cnt = s.regs.cnt + 1#16 ∧
        (let cap := s.regs.cnt + 1#16 = s.regs.ccrTrig ∧ s.regs.tcfg.trige = true ∧ s.regs.dcfg.den = true
         (cap → ∃ low : Byte, t.regs.sample = .holds (levelD s ++ low)) ∧ (¬ cap → t.regs.sample = s.regs.sample) ∧
         (t.ovr = true ↔ s.ovr = true ∨ (2 ≤ t.regs.cnt.toNat ∧ s.regs.ctrl.reqMode = true)) ∧
         t.log = s.log ++ [Event.line .ack true (levelD s), Event.tick (s.regs.cnt + 1#16) (decide cap)]) ∧
        { t with lines := s.lines, regs.cnt := s.regs.cnt, regs.sample := s.regs.sample, ovr := s.ovr, log := s.log,
                 draws := s.draws } = s.popped) ∧
    (s.regs.tcfg.ten = true → s.regs.cnt = 0xFFFF#16 → step s = .next { s.popped with regs.fault := 9#8 }) ∧
    (s.regs.tcfg.ten = false →
      ∃ t, step s = .next t ∧
        { t with draws := s.draws } =
          { s.popped with lines.ackH := true, log := s.log ++ [Event.line .ack true (levelD s)] })

/-- R301, R303, R304, R305: every other step of the host and the other devices: its line, its log entry, and nothing else.
Model's choices in it: log 1, 2, 3. -/
def Obligations.HostAndDevicesMoveOneLine : Prop :=
  ∀ s : State, s.regs.fault = 0#8 →
    (nextMove s = .host .toggleCS → ∃ t, step s = .next t ∧ { t with draws := s.draws } =
      { s.popped with lines.csH := !s.lines.csH, log := s.log ++ [Event.line .cs (!s.lines.csH) (levelD s)] }) ∧
    (nextMove s = .host .toggleA1 → ∃ t, step s = .next t ∧ { t with draws := s.draws } =
      { s.popped with lines.a1H := !s.lines.a1H, log := s.log ++ [Event.line .a1 (!s.lines.a1H) (levelD s)] }) ∧
    (nextMove s = .host .ackRise → s.lines.ackH = true → ∃ t, step s = .next t ∧ { t with draws := s.draws } =
      { s.popped with lines.ackH := false, log := s.log ++ [Event.line .ack false (levelD s)] }) ∧
    (nextMove s = .env .toggleIrq → ∃ t, step s = .next t ∧ { t with draws := s.draws } =
      { s.popped with lines.irqE := !s.lines.irqE, log := s.log ++ [Event.line .irqE (!s.lines.irqE) (levelD s)] }) ∧
    (nextMove s = .env .toggleReq → ∃ t, step s = .next t ∧ { t with draws := s.draws } =
      { s.popped with lines.reqE := !s.lines.reqE, log := s.log ++ [Event.line .reqE (!s.lines.reqE) (levelD s)] }) ∧
    (∀ v, nextMove s = .host (.data v) →
      (v ≠ none → s.regs.ctrl.ddir = true → step s = .next { s.popped with regs.fault := 8#8 }) ∧
      (v = none ∨ s.regs.ctrl.ddir = false → ∃ t, step s = .next t ∧ { t with draws := s.draws } =
        { s.popped with lines.dh := v, log := s.log ++ [Event.data v (levelD { s with lines.dh := v })] })) ∧
    (nextMove s = .host .ackFall ∧ s.lines.ackH = true ∨ nextMove s = .host .ackRise ∧ s.lines.ackH = false →
      step s = .next s.popped)

/-! ## Command capture (43) -/

/-- R200: each line of `wait_command`. An arrival at line 2 chooses 2a or 2c freely.
Model's choices in it: log 2, 3, 4. -/
def Obligations.WaitCommandLines : Prop :=
  ∀ (mask : Byte) (s : State),
    let arrives (o : Out) (u : State) : Prop :=
      ∃ t, o = .next t ∧ (t.seq.phase = .l2a ∨ t.seq.phase = .l2c) ∧
        { t with seq.phase := u.seq.phase, draws := u.draws } = u
    let snap : Snapshot := ⟨s.lines.csH, s.lines.a1H, levelD s⟩
    let member : Prop := s.lines.csH = true ∧ s.lines.a1H = true ∧ mask.getLsbD ((levelD s).extractLsb' 5 3).toNat = true
    let idle : Prop := levelIRQ s = true ∧ levelREQ s = true ∧ levelACK s = true
    encode (.waitCommand mask) = [0x30000000#32 ||| (mask.setWidth 32 <<< 16)] ∧
    (s.seq.phase = .l1 → s.regs.ctrl.ddir = true → exec (.waitCommand mask) s = .next { s with regs.fault := 7#8 }) ∧
    (s.seq.phase = .l1 → s.regs.ctrl.ddir = false →
      arrives (exec (.waitCommand mask) s) { s with seq.savedJsusp := s.regs.ctrl.jsusp, regs.ctrl.jsusp := true }) ∧
    (s.seq.phase = .l2a → member →
      ∃ t, exec (.waitCommand mask) s = .next t ∧
        { t with draws := s.draws } = { s with seq.snap := snap, seq.phase := .l2b }) ∧
    (s.seq.phase = .l2a → ¬ member →
      ∃ t, exec (.waitCommand mask) s = .next t ∧ { t with draws := s.draws } = s) ∧
    (s.seq.phase = .l2b → idle → exec (.waitCommand mask) s = .next { s with seq.cmd := s.seq.snap.d, seq.phase := .l3 }) ∧
    (s.seq.phase = .l2b → ¬ idle → arrives (exec (.waitCommand mask) s) s) ∧
    (s.seq.phase = .l2c → idle → exec (.waitCommand mask) s = .next { s with seq.phase := .l2d }) ∧
    (s.seq.phase = .l2c → ¬ idle → exec (.waitCommand mask) s = .next s) ∧
    (s.seq.phase = .l2d → member →
      ∃ t, exec (.waitCommand mask) s = .next t ∧
        { t with draws := s.draws } = { s with seq.snap := snap, seq.cmd := levelD s, seq.phase := .l3 }) ∧
    (s.seq.phase = .l2d → ¬ member → arrives (exec (.waitCommand mask) s) { s with seq.snap := snap }) ∧
    (s.seq.phase = .l3 → s.lines.csH = true → exec (.waitCommand mask) s = .next s) ∧
    (s.seq.phase = .l3 → s.lines.csH = false → exec (.waitCommand mask) s = .next { s with seq.phase := .l4 }) ∧
    (s.seq.phase = .l4 →
      exec (.waitCommand mask) s =
        .next { s with
          regs.ctrl.jsusp := s.seq.savedJsusp
          regs.res := 0x00#8 ++ s.seq.cmd
          log := s.log ++ [Event.done s.pc 0x30#8 (0x00#8 ++ s.seq.cmd)]
          pc := s.pc + 1
          seq.phase := .idle })

/-- R203 (V1.1): in a run, `wait_command mask` returns only a byte whose device id is in `mask`.
Model's choices in it: log 1, 4, 7, 10. -/
def Obligations.WaitCommandReturnsMembersOnly : Prop :=
  ∀ (mask : Byte) (s t : State), Inv s → nextMove s = .seq → running s = some (.waitCommand mask) → step s = .next t →
    t.seq.phase = .idle →
    t.regs.res.extractLsb' 8 8 = 0x00#8 ∧ mask.getLsbD (t.regs.res.extractLsb' 5 3).toNat = true

/-- A whole `wait_command` with a well-behaved host: strobe and byte up before line 1, the poll in the drawn order, CS released after
the match. Either order of the two reads takes two steps. SEQ's hidden registers change.
Model's choices in it: log 1, 3, 4. -/
def Obligations.WaitCommandCapturesTheByte : Prop :=
  ∀ (mask d : Byte) (s : State) (rest : List Move),
    s.regs.fault = 0#8 → s.seq.phase = .idle → decode (s.prog.drop s.pc) = .ok (.waitCommand mask) →
    s.regs.ctrl.init = true → s.regs.ctrl.ddir = false → s.lines.dh = some d → s.lines.csH = true → s.lines.a1H = true →
    mask.getLsbD (d.extractLsb' 5 3).toNat = true →
    levelIRQ s = true → levelREQ s = true → levelACK s = true →
    s.sched = [Move.seq, Move.seq, Move.seq, Move.seq, Move.host .toggleCS, Move.seq, Move.seq] ++ rest →
    ∃ t, core.run 7 s = .next t ∧
      t.regs = { s.regs with res := 0x00#8 ++ d } ∧ t.pc = s.pc + 1 ∧ t.seq.phase = .idle ∧ t.sched = rest ∧
      t.lines = { s.lines with csH := false } ∧ t.ovr = s.ovr ∧ t.mem = s.mem ∧ t.prog = s.prog ∧ t.params = s.params ∧
      t.log = s.log ++ [Event.line .cs false d, Event.done s.pc 0x30#8 (0x00#8 ++ d)]

/-! ## Interrupt byte protocol (44) -/

/-- R220: each line of `send_byte`.
Model's choices in it: log 2. -/
def Obligations.SendByteLines : Prop :=
  ∀ (b : Byte) (s : State),
    encode (.sendByte b) = [0x40000000#32 ||| (b.setWidth 32 <<< 16)] ∧
    (s.seq.phase = .l1 → s.lines.dh ≠ none → exec (.sendByte b) s = .next { s with regs.fault := 8#8 }) ∧
    (s.seq.phase = .l1 → s.lines.dh = none →
      exec (.sendByte b) s =
        .next { s with
          seq.savedJsusp := s.regs.ctrl.jsusp
          regs.ctrl.jsusp := true
          regs.ctrl.ddir := true
          seq.phase := .l2 }) ∧
    (s.seq.phase = .l2 → exec (.sendByte b) s = .next { s with regs.dout := .holds b, seq.phase := .l3 }) ∧
    (s.seq.phase = .l3 → exec (.sendByte b) s = .next { s with regs.ctrl.irqPull := true, seq.phase := .l4 }) ∧
    (s.seq.phase = .l4 → exec (.sendByte b) s = .next (if s.lines.csH = true then { s with seq.phase := .l5 } else s)) ∧
    (s.seq.phase = .l5 → exec (.sendByte b) s = .next (if s.lines.csH = true then s else { s with seq.phase := .l6 })) ∧
    (s.seq.phase = .l6 →
      exec (.sendByte b) s =
        .next { s with
          regs.ctrl := ⟨s.regs.ctrl.init, s.seq.savedJsusp, false, false, false⟩
          regs.res := 0x0000#16
          log := s.log ++ [Event.done s.pc 0x40#8 0x0000#16]
          pc := s.pc + 1
          seq.phase := .idle })

/-- A whole `send_byte` with one CS cycle of the host: the host reads the byte at its CS assertion.
Model's choices in it: log 1. -/
def Obligations.SendByteDeliversTheByte : Prop :=
  ∀ (b : Byte) (s : State) (rest : List Move),
    s.regs.fault = 0#8 → s.seq.phase = .idle → decode (s.prog.drop s.pc) = .ok (.sendByte b) →
    s.regs.ctrl.init = true → s.lines.dh = none → s.lines.csH = false →
    s.sched = [Move.seq, Move.seq, Move.seq, Move.seq, Move.host .toggleCS, Move.seq, Move.host .toggleCS, Move.seq, Move.seq] ++ rest →
    ∃ t, core.run 9 s = .next t ∧
      t.regs = { s.regs with
        ctrl := ⟨true, s.regs.ctrl.jsusp, false, false, false⟩, dout := .holds b, res := 0x0000#16 } ∧
      t.pc = s.pc + 1 ∧ t.seq.phase = .idle ∧ t.sched = rest ∧ t.lines = s.lines ∧ t.mem = s.mem ∧ t.prog = s.prog ∧
      t.params = s.params ∧
      t.log = s.log ++ [Event.line .cs true b, Event.line .cs false b, Event.done s.pc 0x40#8 0x0000#16]

/-- R221: each line of `send_bytes`.
Model's choices in it: log 2, 4. -/
def Obligations.SendBytesLines : Prop :=
  ∀ (buf count : Word) (s : State),
    let arrive (n : Nat) : Phase := if n = count.toNat then .l8 else .l2
    encode (.sendBytes buf count) = [0x41000000#32, buf, count] ∧
    (s.seq.phase = .l1 →
      exec (.sendBytes buf count) s =
        .next { s with
          seq.savedJsusp := s.regs.ctrl.jsusp, regs.ctrl.jsusp := true, seq.idx := 0, seq.phase := arrive 0 }) ∧
    (s.seq.phase = .l2 → s.lines.dh ≠ none → exec (.sendBytes buf count) s = .next { s with regs.fault := 8#8 }) ∧
    (s.seq.phase = .l2 → s.lines.dh = none →
      exec (.sendBytes buf count) s = .next { s with regs.ctrl.ddir := true, seq.phase := .l3 }) ∧
    (s.seq.phase = .l3 → admitted s.params (effAddr buf s.seq.idx) = true →
      exec (.sendBytes buf count) s =
        .next { s with regs.dout := .holds (s.mem.read (effAddr buf s.seq.idx)), seq.phase := .l4 }) ∧
    (s.seq.phase = .l4 → exec (.sendBytes buf count) s = .next { s with regs.ctrl.irqPull := true, seq.phase := .l5 }) ∧
    (s.seq.phase = .l5 → exec (.sendBytes buf count) s = .next (if s.lines.csH = true then { s with seq.phase := .l6 } else s)) ∧
    (s.seq.phase = .l6 → exec (.sendBytes buf count) s = .next (if s.lines.csH = true then s else { s with seq.phase := .l7 })) ∧
    (s.seq.phase = .l7 →
      exec (.sendBytes buf count) s =
        .next { s with
          regs.ctrl.ddir := false
          regs.ctrl.irqPull := false
          seq.idx := s.seq.idx + 1
          seq.phase := arrive (s.seq.idx + 1) }) ∧
    (s.seq.phase = .l8 →
      exec (.sendBytes buf count) s =
        .next { s with
          regs.ctrl := ⟨s.regs.ctrl.init, s.seq.savedJsusp, false, false, false⟩
          regs.res := 0x0000#16
          log := s.log ++ [Event.done s.pc 0x41#8 0x0000#16]
          pc := s.pc + 3
          seq.phase := .idle })

/-- A whole `send_bytes` of any length with one CS cycle per byte: the host reads the buffer's bytes in address order.
Model's choices in it: log 1, 4. -/
def Obligations.SendBytesDeliversTheBuffer : Prop :=
  ∀ (buf count : Word) (s : State) (rest : List Move),
    s.regs.fault = 0#8 → s.seq.phase = .idle → decode (s.prog.drop s.pc) = .ok (.sendBytes buf count) →
    s.regs.ctrl.init = true → s.lines.dh = none → s.lines.csH = false →
    (∀ k, k < count.toNat → admitted s.params (buf.toNat + k) = true) →
    s.sched = [Move.seq, Move.seq] ++ (List.replicate count.toNat exchangeOut).flatten ++ [Move.seq] ++ rest →
    ∃ t, core.run (3 + 8 * count.toNat) s = .next t ∧
      t.regs.ctrl = ⟨true, s.regs.ctrl.jsusp, false, false, false⟩ ∧ t.regs.res = 0x0000#16 ∧
      { t.regs with ctrl := s.regs.ctrl, res := s.regs.res, dout := s.regs.dout } = s.regs ∧
      t.pc = s.pc + 3 ∧ t.seq.phase = .idle ∧ t.sched = rest ∧ t.lines = s.lines ∧ t.mem = s.mem ∧ t.prog = s.prog ∧
      t.params = s.params ∧
      t.log = s.log ++
        (List.range count.toNat).flatMap (fun k =>
          [Event.line .cs true (s.mem.read (buf.toNat + k)), Event.line .cs false (s.mem.read (buf.toNat + k))]) ++
        [Event.done s.pc 0x41#8 0x0000#16]

/-- R222: each line of `read_byte`.
Model's choices in it: log 2, 3. -/
def Obligations.ReadByteLines : Prop :=
  ∀ s : State,
    encode .readByte = [0x42000000#32] ∧
    (s.seq.phase = .l1 → s.regs.ctrl.ddir = true → exec .readByte s = .next { s with regs.fault := 7#8 }) ∧
    (s.seq.phase = .l1 → s.regs.ctrl.ddir = false →
      exec .readByte s =
        .next { s with seq.savedJsusp := s.regs.ctrl.jsusp, regs.ctrl.jsusp := true, seq.phase := .l2 }) ∧
    (s.seq.phase = .l2 → exec .readByte s = .next { s with regs.ctrl.irqPull := true, seq.phase := .l3 }) ∧
    (s.seq.phase = .l3 → exec .readByte s = .next (if s.lines.csH = true then { s with seq.phase := .l4 } else s)) ∧
    (s.seq.phase = .l4 → s.lines.csH = true → exec .readByte s = .next s) ∧
    (s.seq.phase = .l4 → s.lines.csH = false →
      ∃ t, exec .readByte s = .next t ∧ { t with draws := s.draws } = { s with seq.v := levelD s, seq.phase := .l5 }) ∧
    (s.seq.phase = .l5 →
      exec .readByte s =
        .next { s with
          regs.ctrl := ⟨s.regs.ctrl.init, s.seq.savedJsusp, false, false, false⟩
          regs.res := 0x00#8 ++ s.seq.v
          log := s.log ++ [Event.done s.pc 0x42#8 (0x00#8 ++ s.seq.v)]
          pc := s.pc + 1
          seq.phase := .idle })

/-- A whole `read_byte` with one CS cycle of a host that drives the byte.
Model's choices in it: log 1. -/
def Obligations.ReadByteReturnsTheByte : Prop :=
  ∀ (b : Byte) (s : State) (rest : List Move),
    s.regs.fault = 0#8 → s.seq.phase = .idle → decode (s.prog.drop s.pc) = .ok .readByte →
    s.regs.ctrl.init = true → s.regs.ctrl.ddir = false → s.lines.dh = some b → s.lines.csH = false →
    s.sched = [Move.seq, Move.seq, Move.seq, Move.host .toggleCS, Move.seq, Move.host .toggleCS, Move.seq, Move.seq] ++ rest →
    ∃ t, core.run 8 s = .next t ∧
      t.regs = { s.regs with ctrl := ⟨true, s.regs.ctrl.jsusp, false, false, false⟩, res := 0x00#8 ++ b } ∧
      t.pc = s.pc + 1 ∧ t.seq.phase = .idle ∧ t.sched = rest ∧ t.lines = s.lines ∧ t.ovr = s.ovr ∧ t.mem = s.mem ∧ t.prog = s.prog ∧
      t.params = s.params ∧
      t.log = s.log ++ [Event.line .cs true b, Event.line .cs false b, Event.done s.pc 0x42#8 (0x00#8 ++ b)]

/-- R223: each line of `read_bytes`.
Model's choices in it: log 2, 3, 4. -/
def Obligations.ReadBytesLines : Prop :=
  ∀ (buf count : Word) (s : State),
    let arrive (n : Nat) : Phase := if n = count.toNat then .l7 else .l2
    encode (.readBytes buf count) = [0x43000000#32, buf, count] ∧
    (s.seq.phase = .l1 → s.regs.ctrl.ddir = true → exec (.readBytes buf count) s = .next { s with regs.fault := 7#8 }) ∧
    (s.seq.phase = .l1 → s.regs.ctrl.ddir = false →
      exec (.readBytes buf count) s =
        .next { s with
          seq.savedJsusp := s.regs.ctrl.jsusp, regs.ctrl.jsusp := true, seq.idx := 0, seq.phase := arrive 0 }) ∧
    (s.seq.phase = .l2 → exec (.readBytes buf count) s = .next { s with regs.ctrl.irqPull := true, seq.phase := .l3 }) ∧
    (s.seq.phase = .l3 → exec (.readBytes buf count) s = .next (if s.lines.csH = true then { s with seq.phase := .l4 } else s)) ∧
    (s.seq.phase = .l4 → s.lines.csH = true → exec (.readBytes buf count) s = .next s) ∧
    (s.seq.phase = .l4 → s.lines.csH = false →
      ∃ t, exec (.readBytes buf count) s = .next t ∧
        { t with draws := s.draws } = { s with seq.v := levelD s, seq.phase := .l5 }) ∧
    (s.seq.phase = .l5 → admitted s.params (effAddr buf s.seq.idx) = true →
      ∃ t, exec (.readBytes buf count) s = .next t ∧ t.mem.read (effAddr buf s.seq.idx) = s.seq.v ∧
        (∀ a, a ≠ effAddr buf s.seq.idx → t.mem.read a = s.mem.read a) ∧
        { t with mem := s.mem } = { s with seq.phase := .l6 }) ∧
    (s.seq.phase = .l6 →
      exec (.readBytes buf count) s =
        .next { s with
          regs.ctrl.irqPull := false, seq.idx := s.seq.idx + 1, seq.phase := arrive (s.seq.idx + 1) }) ∧
    (s.seq.phase = .l7 → exec (.readBytes buf count) s = .next (if s.lines.csH = true then s else { s with seq.phase := .l8 })) ∧
    (s.seq.phase = .l8 →
      exec (.readBytes buf count) s =
        .next { s with
          regs.ctrl := ⟨s.regs.ctrl.init, s.seq.savedJsusp, false, false, false⟩
          regs.res := 0x0000#16
          log := s.log ++ [Event.done s.pc 0x43#8 0x0000#16]
          pc := s.pc + 3
          seq.phase := .idle })

/-- A whole `read_bytes` of any length with one driven byte and one CS cycle per byte: the bytes stand in the buffer in order, and
every other byte of memory is as before.
Model's choices in it: log 1, 4. -/
def Obligations.ReadBytesStoresTheBytes : Prop :=
  ∀ (buf count : Word) (bytes : List Byte) (s : State) (rest : List Move),
    s.regs.fault = 0#8 → s.seq.phase = .idle → decode (s.prog.drop s.pc) = .ok (.readBytes buf count) →
    s.regs.ctrl.init = true → s.regs.ctrl.ddir = false → s.lines.csH = false → bytes.length = count.toNat →
    (∀ k, k < count.toNat → admitted s.params (buf.toNat + k) = true) →
    s.sched = [Move.seq, Move.seq] ++ bytes.flatMap exchangeIn ++ [Move.seq, Move.seq] ++ rest →
    ∃ t, core.run (4 + 8 * count.toNat) s = .next t ∧
      t.regs = { s.regs with ctrl := ⟨true, s.regs.ctrl.jsusp, false, false, false⟩, res := 0x0000#16 } ∧
      t.pc = s.pc + 3 ∧ t.seq.phase = .idle ∧ t.sched = rest ∧ t.prog = s.prog ∧ t.params = s.params ∧
      (∀ k b, bytes[k]? = some b → t.mem.read (buf.toNat + k) = b) ∧
      (∀ a, a < buf.toNat ∨ buf.toNat + count.toNat ≤ a → t.mem.read a = s.mem.read a)

/-! ## Block transfers (45) -/

/-- R262, with the slot reset of R176, the checks of R177 and R265, the exits of R266 and the best effort of R272: each line of
`read_block`. The byte stored after a second edge with strict validation off is a free value: nothing is said of it.
Model's choices in it: log 2, 3, 4, 14. -/
def Obligations.ReadBlockLines : Prop :=
  ∀ (buf count : Word) (s : State),
    let arrive (n : Nat) : Phase :=
      if n = count.toNat then (if s.params.strict = true ∧ count.toNat ≠ 0 then .l5 else .l6) else .l2
    let overran : Prop := s.params.strict = true ∧ s.params.ovrT.toNat ≤ s.regs.cnt.toNat
    encode (.readBlock buf count) = [0x50000000#32, buf, count] ∧
    (s.seq.phase = .l1 → s.regs.ctrl.ddir = true → exec (.readBlock buf count) s = .next { s with regs.fault := 7#8 }) ∧
    (s.seq.phase = .l1 → s.regs.ctrl.ddir = false →
      exec (.readBlock buf count) s =
        .next { s with
          seq.savedJsusp := s.regs.ctrl.jsusp
          regs.ctrl.jsusp := true
          ovr := false
          seq.idx := 0
          regs.ctrl.reqMode := true
          seq.phase := arrive 0 }) ∧
    (s.seq.phase = .l2 → s.seq.idx ≠ 0 ∧ overran → exec (.readBlock buf count) s = .next { s with seq.phase := .l7 }) ∧
    (s.seq.phase = .l2 → ¬ (s.seq.idx ≠ 0 ∧ overran) →
      exec (.readBlock buf count) s = .next { s with regs.cnt := 0#16, seq.phase := .l3 }) ∧
    (s.seq.phase = .l3 →
      exec (.readBlock buf count) s = .next (if s.regs.cnt = 0#16 then s else { s with seq.phase := .l4 })) ∧
    (s.seq.phase = .l4 → admitted s.params (effAddr buf s.seq.idx) = true → s.regs.sample = .unwritten →
      exec (.readBlock buf count) s = .next { s with regs.fault := 10#8 }) ∧
    (∀ h, s.seq.phase = .l4 → admitted s.params (effAddr buf s.seq.idx) = true → s.regs.sample = .holds h →
      ∃ t, exec (.readBlock buf count) s = .next t ∧
        (s.params.strict = true ∨ s.ovr = false → t.mem.read (effAddr buf s.seq.idx) = h.extractLsb' 8 8) ∧
        (∀ a, a ≠ effAddr buf s.seq.idx → t.mem.read a = s.mem.read a) ∧
        { t with mem := s.mem, draws := s.draws } =
          { s with seq.idx := s.seq.idx + 1, seq.phase := arrive (s.seq.idx + 1) }) ∧
    (s.seq.phase = .l5 → overran → exec (.readBlock buf count) s = .next { s with seq.phase := .l7 }) ∧
    (s.seq.phase = .l5 → ¬ overran → exec (.readBlock buf count) s = .next { s with seq.phase := .l6 }) ∧
    (s.seq.phase = .l6 ∨ s.seq.phase = .l7 →
      let res : Half := if s.seq.phase = .l6 then 0x0000#16 else 0x0100#16
      exec (.readBlock buf count) s =
        .next { s with
          regs.ctrl := ⟨s.regs.ctrl.init, s.seq.savedJsusp, false, false, false⟩
          regs.res := res
          log := s.log ++ [Event.done s.pc 0x50#8 res]
          pc := s.pc + 3
          seq.phase := .idle })

/-- R263, with R176, R177, R265 and R266: each line of `write_block`.
Model's choices in it: log 2, 4. -/
def Obligations.WriteBlockLines : Prop :=
  ∀ (buf count : Word) (s : State),
    let arrive (n : Nat) : Phase :=
      if n = count.toNat then (if s.params.strict = true ∧ count.toNat ≠ 0 then .l5 else .l6) else .l2
    let overran : Prop := s.params.strict = true ∧ s.params.ovrT.toNat ≤ s.regs.cnt.toNat
    encode (.writeBlock buf count) = [0x51000000#32, buf, count] ∧
    (s.seq.phase = .l1 → s.lines.dh ≠ none → exec (.writeBlock buf count) s = .next { s with regs.fault := 8#8 }) ∧
    (s.seq.phase = .l1 → s.lines.dh = none →
      exec (.writeBlock buf count) s =
        .next { s with
          seq.savedJsusp := s.regs.ctrl.jsusp
          regs.ctrl.jsusp := true
          ovr := false
          seq.idx := 0
          regs.ctrl.ddir := true
          regs.ctrl.reqMode := true
          seq.phase := arrive 0 }) ∧
    (s.seq.phase = .l2 → admitted s.params (effAddr buf s.seq.idx) = true →
      exec (.writeBlock buf count) s =
        .next { s with regs.dout := .holds (s.mem.read (effAddr buf s.seq.idx)), seq.phase := .l3 }) ∧
    (s.seq.phase = .l3 → s.seq.idx ≠ 0 ∧ overran → exec (.writeBlock buf count) s = .next { s with seq.phase := .l7 }) ∧
    (s.seq.phase = .l3 → ¬ (s.seq.idx ≠ 0 ∧ overran) →
      exec (.writeBlock buf count) s = .next { s with regs.cnt := 0#16, seq.phase := .l4 }) ∧
    (s.seq.phase = .l4 → s.regs.cnt = 0#16 → exec (.writeBlock buf count) s = .next s) ∧
    (s.seq.phase = .l4 → s.regs.cnt ≠ 0#16 →
      exec (.writeBlock buf count) s =
        .next { s with seq.idx := s.seq.idx + 1, seq.phase := arrive (s.seq.idx + 1) }) ∧
    (s.seq.phase = .l5 → overran → exec (.writeBlock buf count) s = .next { s with seq.phase := .l7 }) ∧
    (s.seq.phase = .l5 → ¬ overran → exec (.writeBlock buf count) s = .next { s with seq.phase := .l6 }) ∧
    (s.seq.phase = .l6 ∨ s.seq.phase = .l7 →
      let res : Half := if s.seq.phase = .l6 then 0x0000#16 else 0x0100#16
      exec (.writeBlock buf count) s =
        .next { s with
          regs.ctrl := ⟨s.regs.ctrl.init, s.seq.savedJsusp, false, false, false⟩
          regs.res := res
          log := s.log ++ [Event.done s.pc 0x51#8 res]
          pc := s.pc + 3
          seq.phase := .idle })

/-- A whole `read_block` of any length, in strict mode or not, with one ACK pulse per slot and the byte on D before it: the bytes
stand in the buffer in order, every other byte of memory is as before, and the operation completes with `RES = 0x0000`.
Model's choices in it: log 1, 4. -/
def Obligations.ReadBlockStoresTheBytes : Prop :=
  ∀ (buf count : Word) (bytes : List Byte) (s : State) (rest : List Move),
    s.regs.fault = 0#8 → s.seq.phase = .idle → decode (s.prog.drop s.pc) = .ok (.readBlock buf count) →
    Inv s → s.regs.ctrl.init = true → s.regs.ctrl.ddir = false → s.lines.ackH = false → s.params.wf = true →
    bytes.length = count.toNat → (∀ k, k < count.toNat → admitted s.params (buf.toNat + k) = true) →
    s.sched = [Move.seq, Move.seq] ++ bytes.flatMap slotIn ++ finalCheckMoves s.params count.toNat ++ [Move.seq] ++ rest →
    ∃ t, core.run (3 + 6 * count.toNat + (finalCheckMoves s.params count.toNat).length) s = .next t ∧
      t.regs.res = 0x0000#16 ∧ t.regs.fault = 0#8 ∧ t.regs.ctrl = ⟨true, false, false, false, false⟩ ∧
      (count.toNat ≠ 0 → t.regs.cnt = 1#16) ∧
      t.pc = s.pc + 3 ∧ t.seq.phase = .idle ∧ t.sched = rest ∧ t.prog = s.prog ∧ t.params = s.params ∧
      (∀ k b, bytes[k]? = some b → t.mem.read (buf.toNat + k) = b) ∧
      (∀ a, a < buf.toNat ∨ buf.toNat + count.toNat ≤ a → t.mem.read a = s.mem.read a)

/-- R271: a whole `write_block` of any length with one ACK pulse per slot: the host receives the buffer's bytes in address order, one
tick each, memory is as before, and the operation completes with `RES = 0x0000`.
Model's choices in it: log 1, 4. -/
def Obligations.WriteBlockDeliversTheBuffer : Prop :=
  ∀ (buf count : Word) (s : State) (rest : List Move),
    s.regs.fault = 0#8 → s.seq.phase = .idle → decode (s.prog.drop s.pc) = .ok (.writeBlock buf count) →
    Inv s → s.regs.ctrl.init = true → s.lines.dh = none → s.lines.ackH = false → s.params.wf = true →
    (∀ k, k < count.toNat → admitted s.params (buf.toNat + k) = true) →
    s.sched =
      [Move.seq, Move.seq] ++ (List.replicate count.toNat slotOut).flatten ++ finalCheckMoves s.params count.toNat ++ [Move.seq] ++ rest →
    ∃ t, core.run (3 + 5 * count.toNat + (finalCheckMoves s.params count.toNat).length) s = .next t ∧
      t.regs.res = 0x0000#16 ∧ t.regs.fault = 0#8 ∧ t.regs.ctrl = ⟨true, false, false, false, false⟩ ∧
      (count.toNat ≠ 0 → t.regs.cnt = 1#16) ∧
      t.pc = s.pc + 3 ∧ t.seq.phase = .idle ∧ t.sched = rest ∧ t.prog = s.prog ∧ t.params = s.params ∧
      t.mem = s.mem ∧ t.lines = s.lines ∧
      t.log = s.log ++
        (List.range count.toNat).flatMap (fun k =>
          [Event.line .ack true (s.mem.read (buf.toNat + k)), Event.tick 1#16 true, Event.line .ack false (s.mem.read (buf.toNat + k))]) ++
        [Event.done s.pc 0x51#8 0x0000#16]

/-- R265, R266, R267 (V2.6.4): a double acknowledge in a slot of `read_block` with `STRICT` and `OVR_T = 2` ends the operation at the
next slot reset with `RES = 0x0100`: the slot's first byte is stored, nothing after it, the counter is not reset and REQ is high.
Model's choices in it: log 1, 4. -/
def Obligations.DoubleAckAbortsStrictReadBlock : Prop :=
  ∀ (buf count : Word) (b : Byte) (s : State) (rest : List Move),
    s.regs.fault = 0#8 → Inv s → running s = some (.readBlock buf count) → s.seq.phase = .l3 → s.regs.cnt = 0#16 →
    s.params.strict = true → s.params.ovrT = 2#16 → s.seq.idx + 1 < count.toNat →
    admitted s.params (effAddr buf s.seq.idx) = true → s.lines.dh = some b → s.lines.ackH = false → s.lines.reqE = false →
    s.sched = [Move.host .ackFall, Move.host .ackRise, Move.host .ackFall, Move.host .ackRise, Move.seq, Move.seq, Move.seq, Move.seq] ++ rest →
    ∃ t, core.run 8 s = .next t ∧
      t.regs.res = 0x0100#16 ∧ t.regs.fault = 0#8 ∧ t.seq.phase = .idle ∧ t.pc = s.pc + 3 ∧ t.regs.cnt = 2#16 ∧
      t.regs.ctrl = ⟨true, false, false, false, false⟩ ∧ levelREQ t = true ∧ t.mem.read (effAddr buf s.seq.idx) = b ∧
      (∀ a, a ≠ effAddr buf s.seq.idx → t.mem.read a = s.mem.read a) ∧
      t.log = s.log ++ [Event.line .ack true b, Event.tick 1#16 true, Event.line .ack false b, Event.line .ack true b, Event.tick 2#16 false,
        Event.line .ack false b, Event.done s.pc 0x50#8 0x0100#16]

/-! ## Memory and stuck accesses (20) -/

/-- R71: reads and writes of a byte, which accesses are admitted, and that SEQ has no step at an access that is not.
Model's choices in it: log 1, 2, 6. -/
def Obligations.MemoryAccessRules : Prop :=
  (∀ (m : Memory) (a x : Nat) (b : Byte), (m.write a b).read x = if x = a then b else m.read x) ∧
  (∀ (p : Params) (a : Nat),
    admitted p a = true ↔ a < 2 ^ 32 ∧ ∃ r ∈ p.admits, r.base ≤ a ∧ a < r.base + r.size) ∧
  (∀ (buf count : Word) (s : State), s.regs.fault = 0#8 → nextMove s = .seq → admitted s.params (effAddr buf s.seq.idx) = false →
    (s.current = some (.sendBytes buf count) ∧ s.seq.phase = .l3 ∨ s.current = some (.readBytes buf count) ∧ s.seq.phase = .l5 ∨
      s.current = some (.readBlock buf count) ∧ s.seq.phase = .l4 ∨ s.current = some (.writeBlock buf count) ∧ s.seq.phase = .l2) →
    step s = .next s.popped)

/-- R76: only SEQ writes buffer memory, one admitted byte at a time, at the store lines of `read_bytes` and `read_block`.
Model's choices in it: log 1. -/
def Obligations.OnlyStoreLinesWriteMemory : Prop :=
  ∀ s t : State, step s = .next t → t.mem ≠ s.mem →
    nextMove s = .seq ∧
    ∃ buf count, (running s = some (.readBytes buf count) ∧ s.seq.phase = .l5 ∨
        running s = some (.readBlock buf count) ∧ s.seq.phase = .l4) ∧
      admitted s.params (effAddr buf s.seq.idx) = true ∧
      ∀ a, a ≠ effAddr buf s.seq.idx → t.mem.read a = s.mem.read a

/-! ## Reset and the watchdog (10 R48, 49 R307, 70 R380 to R387) -/

/-- R48, R381, R387: the power-on state, where the spec gives a value. `CNT`, `CCR_REQ` and `CCR_TRIG` are free (log 3) and nothing is
said of them; the empty memory, program and schedule are the model's (log 1, 7, 8).
Model's choices in it: log 1, 7, 8. -/
def Obligations.PowerOnState : Prop :=
  State.reset.regs.ctrl.word = 0#32 ∧ State.reset.regs.res = 0x0000#16 ∧ State.reset.regs.tcfg.word = 0x00#8 ∧
  State.reset.regs.dcfg.word = 0x0000#16 ∧ State.reset.regs.fault = 0#8 ∧ State.reset.regs.devmask = .unwritten ∧
  State.reset.regs.dout = .unwritten ∧ State.reset.regs.sample = .unwritten ∧ State.reset.pc = 0 ∧
  State.reset.seq.phase = .idle ∧ State.reset.ovr = false ∧ State.reset.log = [Event.reset .power] ∧
  State.reset.lines = ⟨false, false, false, none, false, false⟩ ∧ State.reset.params.strict = false ∧
  State.reset.params.ovrT = 2#16

/-- R307, R380, R382: the watchdog's step is enabled exactly at a `wait until` line or at a line whose access is not admitted, and is
then the reset of R48; otherwise nothing happens.
Model's choices in it: log 1, 2, 4. -/
def Obligations.WatchdogResetsAtWaitsOnly : Prop :=
  ∀ s : State, s.regs.fault = 0#8 → nextMove s = .wdog →
    let at_ (i : Instr) (ps : List Phase) : Prop := running s = some i ∧ s.seq.phase ∈ ps
    let waits : Prop :=
      (∃ m, at_ (.waitCommand m) [.l2a, .l2c, .l3]) ∨ (∃ b, at_ (.sendByte b) [.l4, .l5]) ∨ at_ .readByte [.l3, .l4] ∨
      (∃ buf count, at_ (.sendBytes buf count) [.l5, .l6] ∨ at_ (.readBytes buf count) [.l3, .l4, .l7] ∨
        at_ (.readBlock buf count) [.l3] ∨ at_ (.writeBlock buf count) [.l4] ∨
        (admitted s.params (effAddr buf s.seq.idx) = false ∧
          (at_ (.sendBytes buf count) [.l3] ∨ at_ (.readBytes buf count) [.l5] ∨ at_ (.readBlock buf count) [.l4] ∨
            at_ (.writeBlock buf count) [.l2])))
    (waits →
      ∃ t, step s = .next t ∧ t.regs.ctrl.word = 0#32 ∧ t.regs.devmask = .unwritten ∧ t.regs.dout = .unwritten ∧
        t.regs.res = 0x0000#16 ∧ t.regs.tcfg.word = 0x00#8 ∧ t.regs.sample = .unwritten ∧ t.regs.dcfg.word = 0x0000#16 ∧
        t.regs.fault = 0#8 ∧ t.pc = 0 ∧ t.seq.phase = .idle ∧ t.ovr = false ∧ t.log = s.log ++ [Event.reset .watchdog] ∧
        t.lines = s.lines ∧ t.mem = s.mem ∧ t.prog = s.prog ∧ t.params = s.params) ∧
    (¬ waits → step s = .next s.popped)

/-! ## Whole-machine rules -/

/-- R50: no step changes the program or the parameters. -/
def Obligations.StepKeepsProgramAndParameters : Prop :=
  ∀ s t : State, step s = .next t → t.prog = s.prog ∧ t.params = s.params

/-- R34: the log only grows, by at most the two events of an ACK falling edge. -/
def Obligations.LogOnlyGrows : Prop :=
  ∀ s t : State, step s = .next t → ∃ es : List Event, es.length ≤ 2 ∧ t.log = s.log ++ es

/-- R21, R27, R109: `S.PC` and `RES` change only at a completion, which logs `Done` and advances by the descriptor's length, or at a
watchdog reset.
Model's choices in it: log 1. -/
def Obligations.PcAndResChangeAtCompletionOrReset : Prop :=
  ∀ s t : State, step s = .next t →
    (t.pc = s.pc ∧ t.regs.res = s.regs.res) ∨
    (nextMove s = .seq ∧ t.seq.phase = .idle ∧ ∃ i, running s = some i ∧ t.pc = s.pc + i.words ∧
      t.log = s.log ++ [Event.done s.pc i.opcode t.regs.res]) ∨
    (nextMove s = Move.wdog ∧ t.pc = 0 ∧ t.regs.res = 0x0000#16 ∧ t.log = s.log ++ [Event.reset .watchdog])

/-- R139, R140, R260: an operation of 44 or 45 completes with every line of the block released and `JSUSP` restored, on every exit. -/
def Obligations.TransfersReleaseOnEveryExit : Prop :=
  ∀ (i : Instr) (s t : State), running s = some i → isGuarded i = true → (∀ mask, i ≠ .waitCommand mask) → exec i s = .next t →
    t.seq.phase = .idle →
    t.regs.ctrl = ⟨s.regs.ctrl.init, s.seq.savedJsusp, false, false, false⟩

/-- R25: no rule reads `DEVMASK`: two states that differ in it alone take steps that differ in it alone. -/
def Obligations.DevmaskIsNeverRead : Prop :=
  ∀ (s t : State) (m : Latch 8), step s = .next t →
    ∃ t', step { s with regs.devmask := m } = .next t' ∧
      { t' with regs.devmask := .unwritten } = { t with regs.devmask := .unwritten }

/-- R394: `JSUSP` (with its saved copy) changes no other behaviour. -/
def Obligations.JsuspChangesNothingElse : Prop :=
  ∀ (s t : State) (j k : Bool), step s = .next t →
    ∃ t', step { s with regs.ctrl.jsusp := j, seq.savedJsusp := k } = .next t' ∧
      { t' with regs.ctrl.jsusp := false, seq.savedJsusp := false } =
        { t with regs.ctrl.jsusp := false, seq.savedJsusp := false }

/-- R310: a CS pulse between two SEQ steps is not seen by the wait for CS.
Model's choices in it: log 1, 2. -/
def Obligations.CsPulseBetweenPollsIsMissed : Prop :=
  ∀ (i : Instr) (s : State) (rest : List Move), s.regs.fault = 0#8 → running s = some i →
    ((∃ b, i = .sendByte b) ∧ s.seq.phase = .l4 ∨ (∃ buf count, i = .sendBytes buf count) ∧ s.seq.phase = .l5 ∨
      i = .readByte ∧ s.seq.phase = .l3 ∨ (∃ buf count, i = .readBytes buf count) ∧ s.seq.phase = .l3) →
    s.lines.csH = false → s.sched = [Move.host .toggleCS, Move.host .toggleCS, Move.seq] ++ rest →
    ∃ t, core.run 3 s = .next t ∧ t.seq = s.seq ∧ t.regs = s.regs ∧ t.lines = s.lines ∧ t.mem = s.mem ∧ t.pc = s.pc

/-! ## Invariants -/

/-- The power-on state of every launch meets the invariant.
Model's choices in it: log 1, 4, 6, 7. -/
def Obligations.LaunchMeetsTheInvariant : Prop :=
  Inv State.reset ∧
  ∀ (prog : List Word) (mem : Memory) (p : Params) (l : Lines) (sched : List Move), mem.wf = true →
    Inv (State.launched prog mem p l sched)

/-- Every step of every agent, from every state that meets the invariant, keeps it: memory canonical, one driver on D, `S.PC` in the
program, a running operation at one of its own lines with its index, direction, capture and filter facts, the session's
configuration, `CNT ≥ 1` outside byte slots, REQ and JSUSP held exactly inside their operations, a legal status and fault code.
Model's choices in it: log 4, 7, 10. -/
def Obligations.StepKeepsTheInvariant : Prop :=
  ∀ s t : State, Inv s → step s = .next t → Inv t

/-- Without a model fault, a state that meets the invariant has a next state: no agent's step ever stops the machine by itself.
Model's choices in it: log 1, 2, 4, 7. -/
def Obligations.InvariantStatesStep : Prop :=
  ∀ s : State, Inv s → s.regs.fault = 0#8 → ∃ t, step s = .next t

/-- R175: `read_block` never reads an unwritten `SAMPLE`.
Model's choices in it: log 4, 7, 14. -/
def Obligations.SampleIsNeverReadUnwritten : Prop :=
  ∀ s t : State, Inv s → step s = .next t → t.regs.fault ≠ 10#8

/-- R44, R49 (V1.4): in every run the block holds REQ low exactly between a slot reset and the slot's first tick.
Model's choices in it: log 4, 7. -/
def Obligations.BlockRequestsExactlyInOpenSlots : Prop :=
  ∀ s : State, Inv s → (blockRequests s = true ↔ slotWaiting s = true ∧ s.regs.cnt = 0#16)

/-- R172, R175, R395: the ACK falling edge of a slot captures the byte on D and releases REQ in the same step.
Model's choices in it: log 1, 4, 7, 21. -/
def Obligations.SlotTickCapturesAndReleasesReq : Prop :=
  ∀ s : State, Inv s → s.regs.fault = 0#8 → slotWaiting s = true → s.regs.cnt = 0#16 → s.lines.reqE = false →
    s.lines.ackH = false → nextMove s = .host .ackFall →
    levelREQ s = false ∧
    ∃ (t : State) (low : Byte), step s = .next t ∧ levelREQ t = true ∧ t.regs.cnt = 1#16 ∧
      t.regs.sample = .holds (levelD s ++ low) ∧ t.log = s.log ++ [Event.line .ack true (levelD s), Event.tick 1#16 true]

/-- R309 (`H_ONE_ACK`), R177: with a host that makes at most one ACK falling edge per slot the count of an open slot stays at most 1,
and strict validation never aborts.
Model's choices in it: log 1, 4, 7, 22. -/
def Obligations.OneAckHostIsNeverAborted : Prop :=
  ∀ s t : State, Inv s → s.params.wf = true → (slotOpen s = true → s.regs.cnt.toNat ≤ 1) → hOneAck s (nextMove s) →
    step s = .next t →
    (slotOpen t = true → t.regs.cnt.toNat ≤ 1) ∧ (nextMove s = .seq → s.seq.phase ≠ .l7 → inside isBlock s = true → t.seq.phase ≠ .l7)

/-- R304, R306 (`H_NO_DRIVE`): with a host that keeps off D while the block drives or acquires it, no step raises `BUS_CONTENTION`.
Model's choices in it: log 1, 22. -/
def Obligations.NoDriveHostIsNeverContended : Prop :=
  ∀ s t : State, s.regs.fault = 0#8 → hNoDrive s (nextMove s) → step s = .next t → t.regs.fault ≠ 8#8
end

