-- ==== Sys2Proof/Laws/Decode.lean ====
section
/-! SUPPORT. The fields of a packed `W0`, and the table row and the latched fields of each operation. -/

namespace Sys2Proof

@[simp] theorem opcField_packW0 (opc imm : Byte) : opcField (packW0 opc imm) = opc := by
  apply BitVec.eq_of_getLsbD_eq
  intro k hk
  simp only [opcField, packW0, BitVec.getLsbD_extractLsb', BitVec.getLsbD_append]
  have h1 : ¬ (24 + k < 16) := by omega
  have h2 : ¬ (24 + k - 16 < 8) := by omega
  have h3 : 24 + k - 16 - 8 = k := by omega
  simp [h1, h2, h3, hk]

@[simp] theorem immField_packW0 (opc imm : Byte) : immField (packW0 opc imm) = imm := by
  apply BitVec.eq_of_getLsbD_eq
  intro k hk
  simp only [immField, packW0, BitVec.getLsbD_extractLsb', BitVec.getLsbD_append]
  have h1 : ¬ (16 + k < 16) := by omega
  have h2 : 16 + k - 16 < 8 := by omega
  have h3 : 16 + k - 16 = k := by omega
  simp [h1, h3, hk]

@[simp] theorem rsvField_packW0 (opc imm : Byte) : rsvField (packW0 opc imm) = 0#16 := by
  apply BitVec.eq_of_getLsbD_eq
  intro k hk
  simp only [rsvField, packW0, BitVec.getLsbD_extractLsb', BitVec.getLsbD_append]
  simp [hk]

/-- A word is its three fields. -/
theorem packW0_fields (w : Word) (h : rsvField w = 0#16) : packW0 (opcField w) (immField w) = w := by
  apply BitVec.eq_of_getLsbD_eq
  intro k hk
  simp only [packW0, BitVec.getLsbD_append, opcField, immField, BitVec.getLsbD_extractLsb']
  by_cases h1 : k < 16
  · have := congrArg (fun v => v.getLsbD k) h
    simp only [rsvField, BitVec.getLsbD_extractLsb', h1, decide_true, Bool.true_and, Nat.zero_add] at this
    simpa [h1] using this.symm
  · by_cases h2 : k - 16 < 8
    · have h3 : 16 + (k - 16) = k := by omega
      simp [h1, h2, h3]
    · have h3 : 24 + (k - 16 - 8) = k := by omega
      have h4 : k - 16 - 8 < 8 := by omega
      simp [h1, h2, h3, h4]

/-- The first word in the form of the operation rules, `OPC << 24 | IMM8 << 16`. -/
theorem packW0_eq_or (opc imm : Byte) : packW0 opc imm = (opc.setWidth 32 <<< 24) ||| (imm.setWidth 32 <<< 16) := by
  apply BitVec.eq_of_getLsbD_eq
  intro k hk
  simp only [packW0, BitVec.getLsbD_append, BitVec.getLsbD_or, BitVec.getLsbD_shiftLeft, BitVec.getLsbD_setWidth]
  by_cases h1 : k < 16
  · simp [h1]; omega
  · by_cases h2 : k < 24
    · simp [h1, h2, hk, show k - 16 < 8 by omega]; intro; omega
    · have hb : imm.getLsbD (k - 16) = false := BitVec.getLsbD_of_ge _ _ (by omega)
      simp [h1, h2, hk, hb, show ¬ k - 16 < 8 by omega, show k - 16 - 8 = k - 24 by omega]; intro; omega

/-- The row of an operation's opcode has the operation's length, and its `IMM8` is 0 where the row uses none. -/
theorem rowOf_opcode (i : Instr) :
    ∃ row, rowOf i.opcode = some row ∧ row.words = i.words ∧ row.code = i.opcode ∧ (row.usesImm = false → i.imm = 0#8) := by
  cases i <;> exact ⟨_, rfl, rfl, rfl, by simp [Instr.imm]⟩

/-- The operation that an operation's own fields stand for, whatever stands in the words it does not use. -/
theorem instrOf_fields (i : Instr) (b c : Word) :
    instrOf i.opcode i.imm ((i.bufferWords.map Prod.fst).getD b) ((i.bufferWords.map Prod.snd).getD c) = some i := by
  cases i <;> rfl

/-- An opcode has a row iff it stands for an operation. -/
theorem rowOf_isSome_iff (opc imm : Byte) (b c : Word) : (rowOf opc).isSome = (instrOf opc imm b c).isSome := by
  have h : ∀ o : BitVec 8, (rowOf o).isSome = (instrOf o 0#8 0#32 0#32).isSome := by decide
  rw [h opc]
  unfold instrOf
  split <;> rfl

/-- The operation of an opcode has that opcode. -/
theorem instrOf_opcode {opc imm : Byte} {b c : Word} {i : Instr} (h : instrOf opc imm b c = some i) : i.opcode = opc := by
  unfold instrOf at h
  split at h <;> first | (cases h; rfl) | cases h

/-- The words of an operation are 1 or 3. -/
theorem Instr.words_eq (i : Instr) : i.words = 1 ∨ i.words = 3 := by cases i <;> simp [Instr.words, Instr.bufferWords]

/-- Every operation has a word. -/
theorem Instr.words_pos (i : Instr) : 0 < i.words := by rcases i.words_eq with h | h <;> omega

/-- Every operation is well formed as a statement. -/
theorem Instr.wellFormed_all (i : Instr) : i.wellFormed = true := by
  cases i <;> simp [Instr.wellFormed, Source.wellFormed, Instr.source, Instr.mnemonic, Instr.operands, rowOf, rowNamed, opTable,
    Instr.opcode, Instr.imm, Instr.bufferWords, operandBounds, inBounds, List.find?] <;> omega

end Sys2Proof
end

