-- ==== Sys2Proof/Laws/Memory.lean ====
section
/-! SUPPORT. Buffer memory: a read after a write, and that every memory operation keeps the canonical form. -/

namespace Sys2Proof.Machine

/-! ## Erasing -/

theorem Memory.erase_cons_self (rest : Memory) (a : Nat) (b : Byte) : Memory.erase ((a, b) :: rest) a = Memory.erase rest a := by
  simp [Memory.erase]

theorem Memory.erase_cons_ne (rest : Memory) {k a : Nat} (b : Byte) (h : ¬k = a) :
    Memory.erase ((k, b) :: rest) a = (k, b) :: Memory.erase rest a := by
  simp [Memory.erase, h]

theorem Memory.erase_avoids (m : Memory) (a : Nat) : ∀ c ∈ m.erase a, c.1 ≠ a := by
  intro c hc
  simpa [Memory.erase] using (List.mem_filter.mp hc).2

/-! ## Reading after writing -/

theorem Memory.read_erase_self (m : Memory) (a : Nat) : (m.erase a).read a = Config.unlistedByte := by
  induction m with
  | nil => rfl
  | cons c rest ih =>
    obtain ⟨k, b⟩ := c
    by_cases h : k = a
    · subst h; simpa [Memory.erase] using ih
    · simpa [Memory.erase, h, Memory.read] using ih

theorem Memory.read_erase_ne (m : Memory) {a x : Nat} (hx : x ≠ a) : (m.erase a).read x = m.read x := by
  induction m with
  | nil => rfl
  | cons c rest ih =>
    obtain ⟨k, b⟩ := c
    by_cases h : k = a
    · subst h; simpa [Memory.erase, Memory.read, Ne.symm hx] using ih
    · rw [Memory.erase_cons_ne rest b h]
      simp only [Memory.read, ih]

theorem Memory.read_insert_self (m : Memory) (a : Nat) (b : Byte) (h : ∀ c ∈ m, c.1 ≠ a) : (m.insert a b).read a = b := by
  induction m with
  | nil => simp [Memory.insert, Memory.read]
  | cons c rest ih =>
    obtain ⟨k, v⟩ := c
    by_cases hk : a < k
    · simp [Memory.insert, hk, Memory.read]
    · have hne : k ≠ a := h (k, v) (by simp)
      simpa [Memory.insert, hk, Memory.read, hne] using ih (fun c hc => h c (by simp [hc]))

theorem Memory.read_insert_ne (m : Memory) {a x : Nat} (b : Byte) (hx : x ≠ a) : (m.insert a b).read x = m.read x := by
  induction m with
  | nil => simp [Memory.insert, Memory.read, Ne.symm hx]
  | cons c rest ih =>
    obtain ⟨k, v⟩ := c
    by_cases hk : a < k
    · simp [Memory.insert, hk, Memory.read, Ne.symm hx]
    · by_cases hkx : k = x
      · subst hkx
        simp [Memory.insert, hk, Memory.read]
      · simpa [Memory.insert, hk, Memory.read, hkx] using ih

/-- A read after a write gives the byte written at that address and the old byte at every other. -/
theorem Memory.read_write (m : Memory) (a x : Nat) (b : Byte) :
    (m.write a b).read x = if x = a then b else m.read x := by
  by_cases hx : x = a
  · subst hx
    by_cases hb : b = Config.unlistedByte
    · simp [Memory.write, hb, Memory.read_erase_self]
    · simp [Memory.write, hb, Memory.read_insert_self _ _ _ (Memory.erase_avoids m x)]
  · by_cases hb : b = Config.unlistedByte
    · simp [Memory.write, hb, hx, Memory.read_erase_ne]
    · simp [Memory.write, hb, hx, Memory.read_insert_ne, Memory.read_erase_ne]

/-! ## The canonical form -/

theorem Memory.wfAbove_mono {lo hi : Nat} {m : Memory} (h : lo ≤ hi) (hm : m.wfAbove hi = true) : m.wfAbove lo = true := by
  cases m with
  | nil => rfl
  | cons c rest =>
    obtain ⟨k, b⟩ := c
    simp only [Memory.wfAbove, Bool.and_eq_true, decide_eq_true_eq] at hm ⊢
    exact ⟨⟨by omega, hm.1.2⟩, hm.2⟩

theorem Memory.wfAbove_erase {lo : Nat} {m : Memory} (a : Nat) (hm : m.wfAbove lo = true) : (m.erase a).wfAbove lo = true := by
  induction m generalizing lo with
  | nil => rfl
  | cons c rest ih =>
    obtain ⟨k, b⟩ := c
    simp only [Memory.wfAbove, Bool.and_eq_true, decide_eq_true_eq] at hm
    have hrest := ih hm.2
    by_cases h : k = a
    · subst h
      rw [Memory.erase_cons_self]
      exact Memory.wfAbove_mono (by omega) hrest
    · rw [Memory.erase_cons_ne rest b h]
      simp only [Memory.wfAbove, Bool.and_eq_true, decide_eq_true_eq]
      exact ⟨hm.1, hrest⟩

theorem Memory.wfAbove_insert {lo : Nat} {m : Memory} {a : Nat} {b : Byte} (hlo : lo ≤ a) (hb : b ≠ Config.unlistedByte)
    (hav : ∀ c ∈ m, c.1 ≠ a) (hm : m.wfAbove lo = true) : (m.insert a b).wfAbove lo = true := by
  induction m generalizing lo with
  | nil => simp [Memory.insert, Memory.wfAbove, hlo, hb]
  | cons c rest ih =>
    obtain ⟨k, v⟩ := c
    simp only [Memory.wfAbove, Bool.and_eq_true, decide_eq_true_eq] at hm
    have hne : k ≠ a := hav (k, v) (by simp)
    by_cases hk : a < k
    · simp only [Memory.insert, hk, if_true, Memory.wfAbove, Bool.and_eq_true, decide_eq_true_eq, bne_iff_ne]
      exact ⟨⟨hlo, hb⟩, ⟨by omega, by simpa using hm.1.2⟩, hm.2⟩
    · simp only [Memory.insert, hk, if_false, Memory.wfAbove, Bool.and_eq_true, decide_eq_true_eq]
      exact ⟨hm.1, ih (by omega) (fun c hc => hav c (by simp [hc])) hm.2⟩

/-- A write keeps the canonical form. -/
theorem Memory.wf_write {m : Memory} (a : Nat) (b : Byte) (hm : m.wf = true) : (m.write a b).wf = true := by
  by_cases hb : b = Config.unlistedByte
  · simpa [Memory.write, hb, Memory.wf] using Memory.wfAbove_erase a hm
  · simpa [Memory.write, hb, Memory.wf] using
      Memory.wfAbove_insert (Nat.zero_le a) hb (Memory.erase_avoids m a) (Memory.wfAbove_erase a hm)

/-- The empty memory of `State.reset` is canonical. -/
theorem Memory.wf_nil : Memory.wf [] = true := rfl

theorem Memory.read_below {lo : Nat} {m : Memory} (hm : m.wfAbove lo = true) {x : Nat} (hx : x < lo) :
    m.read x = Config.unlistedByte := by
  induction m generalizing lo with
  | nil => rfl
  | cons c rest ih =>
    obtain ⟨k, b⟩ := c
    simp only [Memory.wfAbove, Bool.and_eq_true, decide_eq_true_eq] at hm
    have hk : k ≠ x := by omega
    simp only [Memory.read, hk, if_false]
    exact ih hm.2 (by omega)

/-- Canonical memories that read the same at every address are the same list. -/
theorem Memory.ext_read {lo : Nat} {m n : Memory} (hm : m.wfAbove lo = true) (hn : n.wfAbove lo = true)
    (h : ∀ a, m.read a = n.read a) : m = n := by
  induction m generalizing lo n with
  | nil =>
    cases n with
    | nil => rfl
    | cons c rest =>
      obtain ⟨k, b⟩ := c
      simp only [Memory.wfAbove, Bool.and_eq_true, bne_iff_ne] at hn
      have := h k
      simp only [Memory.read, if_true] at this
      exact absurd this.symm hn.1.2
  | cons c rest ih =>
    obtain ⟨k, b⟩ := c
    cases n with
    | nil =>
      simp only [Memory.wfAbove, Bool.and_eq_true, bne_iff_ne] at hm
      have := h k
      simp only [Memory.read, if_true] at this
      exact absurd this hm.1.2
    | cons d rest' =>
      obtain ⟨l, e⟩ := d
      have hm' := hm
      have hn' := hn
      simp only [Memory.wfAbove, Bool.and_eq_true, decide_eq_true_eq, bne_iff_ne] at hm hn
      have key : k = l := by
        rcases Nat.lt_trichotomy k l with hlt | heq | hgt
        · have h1 := h k
          rw [Memory.read_below (lo := l) (m := (l, e) :: rest') (by simp [Memory.wfAbove, hn.1.2, hn.2]) hlt] at h1
          simp only [Memory.read, if_true] at h1
          exact absurd h1 hm.1.2
        · exact heq
        · have h1 := h l
          rw [Memory.read_below (lo := k) (m := (k, b) :: rest) (by simp [Memory.wfAbove, hm.1.2, hm.2]) hgt] at h1
          simp only [Memory.read, if_true] at h1
          exact absurd h1.symm hn.1.2
      subst key
      have hb : b = e := by simpa [Memory.read] using h k
      subst hb
      have hr : rest = rest' := by
        refine ih hm.2 hn.2 (fun a => ?_)
        by_cases ha : k = a
        · subst ha
          rw [Memory.read_below hm.2 (by omega), Memory.read_below hn.2 (by omega)]
        · simpa [Memory.read, ha] using h a
      rw [hr]

end Sys2Proof.Machine
end

