-- ==== Sys2Proof/Laws/State.lean ====
section
/-! SUPPORT. One lemma per field of State for each named update, true by computation, so that no proof unfolds a record update. -/

namespace Sys2Proof.Machine

/-! ## `State.goto` -/

@[simp] theorem State.goto_prog (p : Phase) (s : State) : (s.goto p).prog = s.prog := rfl
@[simp] theorem State.goto_pc (p : Phase) (s : State) : (s.goto p).pc = s.pc := rfl
@[simp] theorem State.goto_regs (p : Phase) (s : State) : (s.goto p).regs = s.regs := rfl
@[simp] theorem State.goto_seq (p : Phase) (s : State) : (s.goto p).seq = { s.seq with phase := p } := rfl
@[simp] theorem State.goto_ovr (p : Phase) (s : State) : (s.goto p).ovr = s.ovr := rfl
@[simp] theorem State.goto_log (p : Phase) (s : State) : (s.goto p).log = s.log := rfl
@[simp] theorem State.goto_lines (p : Phase) (s : State) : (s.goto p).lines = s.lines := rfl
@[simp] theorem State.goto_mem (p : Phase) (s : State) : (s.goto p).mem = s.mem := rfl
@[simp] theorem State.goto_params (p : Phase) (s : State) : (s.goto p).params = s.params := rfl
@[simp] theorem State.goto_draws (p : Phase) (s : State) : (s.goto p).draws = s.draws := rfl
@[simp] theorem State.goto_sched (p : Phase) (s : State) : (s.goto p).sched = s.sched := rfl

/-! ## `State.emit` -/

@[simp] theorem State.emit_prog (e : Event) (s : State) : (s.emit e).prog = s.prog := rfl
@[simp] theorem State.emit_pc (e : Event) (s : State) : (s.emit e).pc = s.pc := rfl
@[simp] theorem State.emit_regs (e : Event) (s : State) : (s.emit e).regs = s.regs := rfl
@[simp] theorem State.emit_seq (e : Event) (s : State) : (s.emit e).seq = s.seq := rfl
@[simp] theorem State.emit_ovr (e : Event) (s : State) : (s.emit e).ovr = s.ovr := rfl
@[simp] theorem State.emit_log (e : Event) (s : State) : (s.emit e).log = s.log ++ [e] := rfl
@[simp] theorem State.emit_lines (e : Event) (s : State) : (s.emit e).lines = s.lines := rfl
@[simp] theorem State.emit_mem (e : Event) (s : State) : (s.emit e).mem = s.mem := rfl
@[simp] theorem State.emit_params (e : Event) (s : State) : (s.emit e).params = s.params := rfl
@[simp] theorem State.emit_draws (e : Event) (s : State) : (s.emit e).draws = s.draws := rfl
@[simp] theorem State.emit_sched (e : Event) (s : State) : (s.emit e).sched = s.sched := rfl

/-! ## `State.drawn` -/

@[simp] theorem State.drawn_prog (n : Nat) (s : State) : (s.drawn n).prog = s.prog := rfl
@[simp] theorem State.drawn_pc (n : Nat) (s : State) : (s.drawn n).pc = s.pc := rfl
@[simp] theorem State.drawn_regs (n : Nat) (s : State) : (s.drawn n).regs = s.regs := rfl
@[simp] theorem State.drawn_seq (n : Nat) (s : State) : (s.drawn n).seq = s.seq := rfl
@[simp] theorem State.drawn_ovr (n : Nat) (s : State) : (s.drawn n).ovr = s.ovr := rfl
@[simp] theorem State.drawn_log (n : Nat) (s : State) : (s.drawn n).log = s.log := rfl
@[simp] theorem State.drawn_lines (n : Nat) (s : State) : (s.drawn n).lines = s.lines := rfl
@[simp] theorem State.drawn_mem (n : Nat) (s : State) : (s.drawn n).mem = s.mem := rfl
@[simp] theorem State.drawn_params (n : Nat) (s : State) : (s.drawn n).params = s.params := rfl
@[simp] theorem State.drawn_draws (n : Nat) (s : State) : (s.drawn n).draws = s.draws + n := rfl
@[simp] theorem State.drawn_sched (n : Nat) (s : State) : (s.drawn n).sched = s.sched := rfl

/-! ## `State.complete` -/

@[simp] theorem State.complete_prog (i : Instr) (v st : Byte) (s : State) : (s.complete i v st).prog = s.prog := rfl
@[simp] theorem State.complete_pc (i : Instr) (v st : Byte) (s : State) : (s.complete i v st).pc = s.pc + i.words := rfl
@[simp] theorem State.complete_regs (i : Instr) (v st : Byte) (s : State) : (s.complete i v st).regs = { s.regs with res := packRes st v } := rfl
@[simp] theorem State.complete_seq (i : Instr) (v st : Byte) (s : State) : (s.complete i v st).seq = { s.seq with phase := .idle } := rfl
@[simp] theorem State.complete_ovr (i : Instr) (v st : Byte) (s : State) : (s.complete i v st).ovr = s.ovr := rfl
@[simp] theorem State.complete_log (i : Instr) (v st : Byte) (s : State) : (s.complete i v st).log = s.log ++ [.done s.pc i.opcode (packRes st v)] := rfl
@[simp] theorem State.complete_lines (i : Instr) (v st : Byte) (s : State) : (s.complete i v st).lines = s.lines := rfl
@[simp] theorem State.complete_mem (i : Instr) (v st : Byte) (s : State) : (s.complete i v st).mem = s.mem := rfl
@[simp] theorem State.complete_params (i : Instr) (v st : Byte) (s : State) : (s.complete i v st).params = s.params := rfl
@[simp] theorem State.complete_draws (i : Instr) (v st : Byte) (s : State) : (s.complete i v st).draws = s.draws := rfl
@[simp] theorem State.complete_sched (i : Instr) (v st : Byte) (s : State) : (s.complete i v st).sched = s.sched := rfl

/-! ## `State.safeRelease` -/

@[simp] theorem State.safeRelease_prog (s : State) : (s.safeRelease).prog = s.prog := rfl
@[simp] theorem State.safeRelease_pc (s : State) : (s.safeRelease).pc = s.pc := rfl
@[simp] theorem State.safeRelease_regs (s : State) : (s.safeRelease).regs = { s.regs with ctrl := { s.regs.ctrl with ddir := false, irqPull := false, reqMode := false } } := rfl
@[simp] theorem State.safeRelease_seq (s : State) : (s.safeRelease).seq = s.seq := rfl
@[simp] theorem State.safeRelease_ovr (s : State) : (s.safeRelease).ovr = s.ovr := rfl
@[simp] theorem State.safeRelease_log (s : State) : (s.safeRelease).log = s.log := rfl
@[simp] theorem State.safeRelease_lines (s : State) : (s.safeRelease).lines = s.lines := rfl
@[simp] theorem State.safeRelease_mem (s : State) : (s.safeRelease).mem = s.mem := rfl
@[simp] theorem State.safeRelease_params (s : State) : (s.safeRelease).params = s.params := rfl
@[simp] theorem State.safeRelease_draws (s : State) : (s.safeRelease).draws = s.draws := rfl
@[simp] theorem State.safeRelease_sched (s : State) : (s.safeRelease).sched = s.sched := rfl

/-! ## `State.guardEnter` -/

@[simp] theorem State.guardEnter_prog (s : State) : (s.guardEnter).prog = s.prog := rfl
@[simp] theorem State.guardEnter_pc (s : State) : (s.guardEnter).pc = s.pc := rfl
@[simp] theorem State.guardEnter_regs (s : State) : (s.guardEnter).regs = { s.regs with ctrl := { s.regs.ctrl with jsusp := true } } := rfl
@[simp] theorem State.guardEnter_seq (s : State) : (s.guardEnter).seq = { s.seq with savedJsusp := s.regs.ctrl.jsusp } := rfl
@[simp] theorem State.guardEnter_ovr (s : State) : (s.guardEnter).ovr = s.ovr := rfl
@[simp] theorem State.guardEnter_log (s : State) : (s.guardEnter).log = s.log := rfl
@[simp] theorem State.guardEnter_lines (s : State) : (s.guardEnter).lines = s.lines := rfl
@[simp] theorem State.guardEnter_mem (s : State) : (s.guardEnter).mem = s.mem := rfl
@[simp] theorem State.guardEnter_params (s : State) : (s.guardEnter).params = s.params := rfl
@[simp] theorem State.guardEnter_draws (s : State) : (s.guardEnter).draws = s.draws := rfl
@[simp] theorem State.guardEnter_sched (s : State) : (s.guardEnter).sched = s.sched := rfl

/-! ## `State.guardExit` -/

@[simp] theorem State.guardExit_prog (s : State) : (s.guardExit).prog = s.prog := rfl
@[simp] theorem State.guardExit_pc (s : State) : (s.guardExit).pc = s.pc := rfl
@[simp] theorem State.guardExit_regs (s : State) : (s.guardExit).regs = { s.regs with ctrl := { s.regs.ctrl with jsusp := s.seq.savedJsusp } } := rfl
@[simp] theorem State.guardExit_seq (s : State) : (s.guardExit).seq = s.seq := rfl
@[simp] theorem State.guardExit_ovr (s : State) : (s.guardExit).ovr = s.ovr := rfl
@[simp] theorem State.guardExit_log (s : State) : (s.guardExit).log = s.log := rfl
@[simp] theorem State.guardExit_lines (s : State) : (s.guardExit).lines = s.lines := rfl
@[simp] theorem State.guardExit_mem (s : State) : (s.guardExit).mem = s.mem := rfl
@[simp] theorem State.guardExit_params (s : State) : (s.guardExit).params = s.params := rfl
@[simp] theorem State.guardExit_draws (s : State) : (s.guardExit).draws = s.draws := rfl
@[simp] theorem State.guardExit_sched (s : State) : (s.guardExit).sched = s.sched := rfl

/-! ## `State.setDdir` -/

@[simp] theorem State.setDdir_prog (v : Bool) (s : State) : (s.setDdir v).prog = s.prog := rfl
@[simp] theorem State.setDdir_pc (v : Bool) (s : State) : (s.setDdir v).pc = s.pc := rfl
@[simp] theorem State.setDdir_regs (v : Bool) (s : State) : (s.setDdir v).regs = { s.regs with ctrl := { s.regs.ctrl with ddir := v } } := rfl
@[simp] theorem State.setDdir_seq (v : Bool) (s : State) : (s.setDdir v).seq = s.seq := rfl
@[simp] theorem State.setDdir_ovr (v : Bool) (s : State) : (s.setDdir v).ovr = s.ovr := rfl
@[simp] theorem State.setDdir_log (v : Bool) (s : State) : (s.setDdir v).log = s.log := rfl
@[simp] theorem State.setDdir_lines (v : Bool) (s : State) : (s.setDdir v).lines = s.lines := rfl
@[simp] theorem State.setDdir_mem (v : Bool) (s : State) : (s.setDdir v).mem = s.mem := rfl
@[simp] theorem State.setDdir_params (v : Bool) (s : State) : (s.setDdir v).params = s.params := rfl
@[simp] theorem State.setDdir_draws (v : Bool) (s : State) : (s.setDdir v).draws = s.draws := rfl
@[simp] theorem State.setDdir_sched (v : Bool) (s : State) : (s.setDdir v).sched = s.sched := rfl

/-! ## `State.setIrqPull` -/

@[simp] theorem State.setIrqPull_prog (v : Bool) (s : State) : (s.setIrqPull v).prog = s.prog := rfl
@[simp] theorem State.setIrqPull_pc (v : Bool) (s : State) : (s.setIrqPull v).pc = s.pc := rfl
@[simp] theorem State.setIrqPull_regs (v : Bool) (s : State) : (s.setIrqPull v).regs = { s.regs with ctrl := { s.regs.ctrl with irqPull := v } } := rfl
@[simp] theorem State.setIrqPull_seq (v : Bool) (s : State) : (s.setIrqPull v).seq = s.seq := rfl
@[simp] theorem State.setIrqPull_ovr (v : Bool) (s : State) : (s.setIrqPull v).ovr = s.ovr := rfl
@[simp] theorem State.setIrqPull_log (v : Bool) (s : State) : (s.setIrqPull v).log = s.log := rfl
@[simp] theorem State.setIrqPull_lines (v : Bool) (s : State) : (s.setIrqPull v).lines = s.lines := rfl
@[simp] theorem State.setIrqPull_mem (v : Bool) (s : State) : (s.setIrqPull v).mem = s.mem := rfl
@[simp] theorem State.setIrqPull_params (v : Bool) (s : State) : (s.setIrqPull v).params = s.params := rfl
@[simp] theorem State.setIrqPull_draws (v : Bool) (s : State) : (s.setIrqPull v).draws = s.draws := rfl
@[simp] theorem State.setIrqPull_sched (v : Bool) (s : State) : (s.setIrqPull v).sched = s.sched := rfl

/-! ## `State.setDout` -/

@[simp] theorem State.setDout_prog (b : Byte) (s : State) : (s.setDout b).prog = s.prog := rfl
@[simp] theorem State.setDout_pc (b : Byte) (s : State) : (s.setDout b).pc = s.pc := rfl
@[simp] theorem State.setDout_regs (b : Byte) (s : State) : (s.setDout b).regs = { s.regs with dout := .holds b } := rfl
@[simp] theorem State.setDout_seq (b : Byte) (s : State) : (s.setDout b).seq = s.seq := rfl
@[simp] theorem State.setDout_ovr (b : Byte) (s : State) : (s.setDout b).ovr = s.ovr := rfl
@[simp] theorem State.setDout_log (b : Byte) (s : State) : (s.setDout b).log = s.log := rfl
@[simp] theorem State.setDout_lines (b : Byte) (s : State) : (s.setDout b).lines = s.lines := rfl
@[simp] theorem State.setDout_mem (b : Byte) (s : State) : (s.setDout b).mem = s.mem := rfl
@[simp] theorem State.setDout_params (b : Byte) (s : State) : (s.setDout b).params = s.params := rfl
@[simp] theorem State.setDout_draws (b : Byte) (s : State) : (s.setDout b).draws = s.draws := rfl
@[simp] theorem State.setDout_sched (b : Byte) (s : State) : (s.setDout b).sched = s.sched := rfl

/-! ## `State.setIdx` -/

@[simp] theorem State.setIdx_prog (n : Nat) (s : State) : (s.setIdx n).prog = s.prog := rfl
@[simp] theorem State.setIdx_pc (n : Nat) (s : State) : (s.setIdx n).pc = s.pc := rfl
@[simp] theorem State.setIdx_regs (n : Nat) (s : State) : (s.setIdx n).regs = s.regs := rfl
@[simp] theorem State.setIdx_seq (n : Nat) (s : State) : (s.setIdx n).seq = { s.seq with idx := n } := rfl
@[simp] theorem State.setIdx_ovr (n : Nat) (s : State) : (s.setIdx n).ovr = s.ovr := rfl
@[simp] theorem State.setIdx_log (n : Nat) (s : State) : (s.setIdx n).log = s.log := rfl
@[simp] theorem State.setIdx_lines (n : Nat) (s : State) : (s.setIdx n).lines = s.lines := rfl
@[simp] theorem State.setIdx_mem (n : Nat) (s : State) : (s.setIdx n).mem = s.mem := rfl
@[simp] theorem State.setIdx_params (n : Nat) (s : State) : (s.setIdx n).params = s.params := rfl
@[simp] theorem State.setIdx_draws (n : Nat) (s : State) : (s.setIdx n).draws = s.draws := rfl
@[simp] theorem State.setIdx_sched (n : Nat) (s : State) : (s.setIdx n).sched = s.sched := rfl

/-! ## `State.store` -/

@[simp] theorem State.store_prog (a : Nat) (b : Byte) (s : State) : (s.store a b).prog = s.prog := rfl
@[simp] theorem State.store_pc (a : Nat) (b : Byte) (s : State) : (s.store a b).pc = s.pc := rfl
@[simp] theorem State.store_regs (a : Nat) (b : Byte) (s : State) : (s.store a b).regs = s.regs := rfl
@[simp] theorem State.store_seq (a : Nat) (b : Byte) (s : State) : (s.store a b).seq = s.seq := rfl
@[simp] theorem State.store_ovr (a : Nat) (b : Byte) (s : State) : (s.store a b).ovr = s.ovr := rfl
@[simp] theorem State.store_log (a : Nat) (b : Byte) (s : State) : (s.store a b).log = s.log := rfl
@[simp] theorem State.store_lines (a : Nat) (b : Byte) (s : State) : (s.store a b).lines = s.lines := rfl
@[simp] theorem State.store_mem (a : Nat) (b : Byte) (s : State) : (s.store a b).mem = s.mem.write a b := rfl
@[simp] theorem State.store_params (a : Nat) (b : Byte) (s : State) : (s.store a b).params = s.params := rfl
@[simp] theorem State.store_draws (a : Nat) (b : Byte) (s : State) : (s.store a b).draws = s.draws := rfl
@[simp] theorem State.store_sched (a : Nat) (b : Byte) (s : State) : (s.store a b).sched = s.sched := rfl

/-! ## `State.setSnap` -/

@[simp] theorem State.setSnap_prog (r : Snapshot) (s : State) : (s.setSnap r).prog = s.prog := rfl
@[simp] theorem State.setSnap_pc (r : Snapshot) (s : State) : (s.setSnap r).pc = s.pc := rfl
@[simp] theorem State.setSnap_regs (r : Snapshot) (s : State) : (s.setSnap r).regs = s.regs := rfl
@[simp] theorem State.setSnap_seq (r : Snapshot) (s : State) : (s.setSnap r).seq = { s.seq with snap := r } := rfl
@[simp] theorem State.setSnap_ovr (r : Snapshot) (s : State) : (s.setSnap r).ovr = s.ovr := rfl
@[simp] theorem State.setSnap_log (r : Snapshot) (s : State) : (s.setSnap r).log = s.log := rfl
@[simp] theorem State.setSnap_lines (r : Snapshot) (s : State) : (s.setSnap r).lines = s.lines := rfl
@[simp] theorem State.setSnap_mem (r : Snapshot) (s : State) : (s.setSnap r).mem = s.mem := rfl
@[simp] theorem State.setSnap_params (r : Snapshot) (s : State) : (s.setSnap r).params = s.params := rfl
@[simp] theorem State.setSnap_draws (r : Snapshot) (s : State) : (s.setSnap r).draws = s.draws := rfl
@[simp] theorem State.setSnap_sched (r : Snapshot) (s : State) : (s.setSnap r).sched = s.sched := rfl

/-! ## `State.setCmd` -/

@[simp] theorem State.setCmd_prog (d : Byte) (s : State) : (s.setCmd d).prog = s.prog := rfl
@[simp] theorem State.setCmd_pc (d : Byte) (s : State) : (s.setCmd d).pc = s.pc := rfl
@[simp] theorem State.setCmd_regs (d : Byte) (s : State) : (s.setCmd d).regs = s.regs := rfl
@[simp] theorem State.setCmd_seq (d : Byte) (s : State) : (s.setCmd d).seq = { s.seq with cmd := d } := rfl
@[simp] theorem State.setCmd_ovr (d : Byte) (s : State) : (s.setCmd d).ovr = s.ovr := rfl
@[simp] theorem State.setCmd_log (d : Byte) (s : State) : (s.setCmd d).log = s.log := rfl
@[simp] theorem State.setCmd_lines (d : Byte) (s : State) : (s.setCmd d).lines = s.lines := rfl
@[simp] theorem State.setCmd_mem (d : Byte) (s : State) : (s.setCmd d).mem = s.mem := rfl
@[simp] theorem State.setCmd_params (d : Byte) (s : State) : (s.setCmd d).params = s.params := rfl
@[simp] theorem State.setCmd_draws (d : Byte) (s : State) : (s.setCmd d).draws = s.draws := rfl
@[simp] theorem State.setCmd_sched (d : Byte) (s : State) : (s.setCmd d).sched = s.sched := rfl

/-! ## `State.sampleD` -/

@[simp] theorem State.sampleD_prog (s : State) : (s.sampleD).prog = s.prog := rfl
@[simp] theorem State.sampleD_pc (s : State) : (s.sampleD).pc = s.pc := rfl
@[simp] theorem State.sampleD_regs (s : State) : (s.sampleD).regs = s.regs := rfl
@[simp] theorem State.sampleD_seq (s : State) : (s.sampleD).seq = { s.seq with v := levelD s } := rfl
@[simp] theorem State.sampleD_ovr (s : State) : (s.sampleD).ovr = s.ovr := rfl
@[simp] theorem State.sampleD_log (s : State) : (s.sampleD).log = s.log := rfl
@[simp] theorem State.sampleD_lines (s : State) : (s.sampleD).lines = s.lines := rfl
@[simp] theorem State.sampleD_mem (s : State) : (s.sampleD).mem = s.mem := rfl
@[simp] theorem State.sampleD_params (s : State) : (s.sampleD).params = s.params := rfl
@[simp] theorem State.sampleD_draws (s : State) : (s.sampleD).draws = s.draws + 1 := rfl
@[simp] theorem State.sampleD_sched (s : State) : (s.sampleD).sched = s.sched := rfl

/-! ## `State.blockStart` -/

@[simp] theorem State.blockStart_prog (s : State) : (s.blockStart).prog = s.prog := rfl
@[simp] theorem State.blockStart_pc (s : State) : (s.blockStart).pc = s.pc := rfl
@[simp] theorem State.blockStart_regs (s : State) : (s.blockStart).regs = { s.regs with ctrl := { s.regs.ctrl with jsusp := true, reqMode := true } } := rfl
@[simp] theorem State.blockStart_seq (s : State) : (s.blockStart).seq = { s.seq with savedJsusp := s.regs.ctrl.jsusp, idx := 0 } := rfl
@[simp] theorem State.blockStart_ovr (s : State) : (s.blockStart).ovr = false := rfl
@[simp] theorem State.blockStart_log (s : State) : (s.blockStart).log = s.log := rfl
@[simp] theorem State.blockStart_lines (s : State) : (s.blockStart).lines = s.lines := rfl
@[simp] theorem State.blockStart_mem (s : State) : (s.blockStart).mem = s.mem := rfl
@[simp] theorem State.blockStart_params (s : State) : (s.blockStart).params = s.params := rfl
@[simp] theorem State.blockStart_draws (s : State) : (s.blockStart).draws = s.draws := rfl
@[simp] theorem State.blockStart_sched (s : State) : (s.blockStart).sched = s.sched := rfl

/-! ## `State.logLine` -/

@[simp] theorem State.logLine_prog (l : Line) (a : Bool) (s : State) : (s.logLine l a).prog = s.prog := rfl
@[simp] theorem State.logLine_pc (l : Line) (a : Bool) (s : State) : (s.logLine l a).pc = s.pc := rfl
@[simp] theorem State.logLine_regs (l : Line) (a : Bool) (s : State) : (s.logLine l a).regs = s.regs := rfl
@[simp] theorem State.logLine_seq (l : Line) (a : Bool) (s : State) : (s.logLine l a).seq = s.seq := rfl
@[simp] theorem State.logLine_ovr (l : Line) (a : Bool) (s : State) : (s.logLine l a).ovr = s.ovr := rfl
@[simp] theorem State.logLine_log (l : Line) (a : Bool) (s : State) : (s.logLine l a).log = s.log ++ [.line l a (levelD s)] := rfl
@[simp] theorem State.logLine_lines (l : Line) (a : Bool) (s : State) : (s.logLine l a).lines = s.lines := rfl
@[simp] theorem State.logLine_mem (l : Line) (a : Bool) (s : State) : (s.logLine l a).mem = s.mem := rfl
@[simp] theorem State.logLine_params (l : Line) (a : Bool) (s : State) : (s.logLine l a).params = s.params := rfl
@[simp] theorem State.logLine_draws (l : Line) (a : Bool) (s : State) : (s.logLine l a).draws = s.draws + 1 := rfl
@[simp] theorem State.logLine_sched (l : Line) (a : Bool) (s : State) : (s.logLine l a).sched = s.sched := rfl

/-! ## `State.popped` -/

@[simp] theorem State.popped_prog (s : State) : (s.popped).prog = s.prog := rfl
@[simp] theorem State.popped_pc (s : State) : (s.popped).pc = s.pc := rfl
@[simp] theorem State.popped_regs (s : State) : (s.popped).regs = s.regs := rfl
@[simp] theorem State.popped_seq (s : State) : (s.popped).seq = s.seq := rfl
@[simp] theorem State.popped_ovr (s : State) : (s.popped).ovr = s.ovr := rfl
@[simp] theorem State.popped_log (s : State) : (s.popped).log = s.log := rfl
@[simp] theorem State.popped_lines (s : State) : (s.popped).lines = s.lines := rfl
@[simp] theorem State.popped_mem (s : State) : (s.popped).mem = s.mem := rfl
@[simp] theorem State.popped_params (s : State) : (s.popped).params = s.params := rfl
@[simp] theorem State.popped_draws (s : State) : (s.popped).draws = s.draws := rfl
@[simp] theorem State.popped_sched (s : State) : (s.popped).sched = s.sched.tail := rfl

/-! ## `State.arriveSlot` moves SEQ only -/

@[simp] theorem State.arriveSlot_prog (count : Word) (s : State) : (s.arriveSlot count).prog = s.prog := rfl
@[simp] theorem State.arriveSlot_pc (count : Word) (s : State) : (s.arriveSlot count).pc = s.pc := rfl
@[simp] theorem State.arriveSlot_regs (count : Word) (s : State) : (s.arriveSlot count).regs = s.regs := rfl
@[simp] theorem State.arriveSlot_ovr (count : Word) (s : State) : (s.arriveSlot count).ovr = s.ovr := rfl
@[simp] theorem State.arriveSlot_log (count : Word) (s : State) : (s.arriveSlot count).log = s.log := rfl
@[simp] theorem State.arriveSlot_lines (count : Word) (s : State) : (s.arriveSlot count).lines = s.lines := rfl
@[simp] theorem State.arriveSlot_mem (count : Word) (s : State) : (s.arriveSlot count).mem = s.mem := rfl
@[simp] theorem State.arriveSlot_params (count : Word) (s : State) : (s.arriveSlot count).params = s.params := rfl
@[simp] theorem State.arriveSlot_draws (count : Word) (s : State) : (s.arriveSlot count).draws = s.draws := rfl
@[simp] theorem State.arriveSlot_sched (count : Word) (s : State) : (s.arriveSlot count).sched = s.sched := rfl

/-! ## `State.arriveByte` moves SEQ only -/

@[simp] theorem State.arriveByte_prog (count : Word) (p : Phase) (s : State) : (s.arriveByte count p).prog = s.prog := rfl
@[simp] theorem State.arriveByte_pc (count : Word) (p : Phase) (s : State) : (s.arriveByte count p).pc = s.pc := rfl
@[simp] theorem State.arriveByte_regs (count : Word) (p : Phase) (s : State) : (s.arriveByte count p).regs = s.regs := rfl
@[simp] theorem State.arriveByte_ovr (count : Word) (p : Phase) (s : State) : (s.arriveByte count p).ovr = s.ovr := rfl
@[simp] theorem State.arriveByte_log (count : Word) (p : Phase) (s : State) : (s.arriveByte count p).log = s.log := rfl
@[simp] theorem State.arriveByte_lines (count : Word) (p : Phase) (s : State) : (s.arriveByte count p).lines = s.lines := rfl
@[simp] theorem State.arriveByte_mem (count : Word) (p : Phase) (s : State) : (s.arriveByte count p).mem = s.mem := rfl
@[simp] theorem State.arriveByte_params (count : Word) (p : Phase) (s : State) : (s.arriveByte count p).params = s.params := rfl
@[simp] theorem State.arriveByte_draws (count : Word) (p : Phase) (s : State) : (s.arriveByte count p).draws = s.draws := rfl
@[simp] theorem State.arriveByte_sched (count : Word) (p : Phase) (s : State) : (s.arriveByte count p).sched = s.sched := rfl

/-! ## `State.finalCheck` moves SEQ only -/

@[simp] theorem State.finalCheck_prog (s : State) : (s.finalCheck).prog = s.prog := rfl
@[simp] theorem State.finalCheck_pc (s : State) : (s.finalCheck).pc = s.pc := rfl
@[simp] theorem State.finalCheck_regs (s : State) : (s.finalCheck).regs = s.regs := rfl
@[simp] theorem State.finalCheck_ovr (s : State) : (s.finalCheck).ovr = s.ovr := rfl
@[simp] theorem State.finalCheck_log (s : State) : (s.finalCheck).log = s.log := rfl
@[simp] theorem State.finalCheck_lines (s : State) : (s.finalCheck).lines = s.lines := rfl
@[simp] theorem State.finalCheck_mem (s : State) : (s.finalCheck).mem = s.mem := rfl
@[simp] theorem State.finalCheck_params (s : State) : (s.finalCheck).params = s.params := rfl
@[simp] theorem State.finalCheck_draws (s : State) : (s.finalCheck).draws = s.draws := rfl
@[simp] theorem State.finalCheck_sched (s : State) : (s.finalCheck).sched = s.sched := rfl

end Sys2Proof.Machine
end

