-- ==== Sys2Proof/Laws/Ops.lean ====
section
/-! SUPPORT. What each shared operation can do, said once: proofs cite these and do not unfold the operations. -/

namespace Sys2Proof.Machine

/-! ## Outcomes -/

/-- A wait answers a next state either way. -/
theorem waitUntil_eq (c : Bool) (a b : State) : waitUntil c a b = .next (if c then a else b) := by
  cases c <;> rfl

theorem waitUntil_cases {c : Bool} {a b t : State} (h : waitUntil c a b = .next t) : (c = true ∧ t = a) ∨ (c = false ∧ t = b) := by
  cases c <;> simp [waitUntil] at h <;> simp [h]

/-- Raising a fault writes `FAULT` only. -/
theorem raise_eq (c : FaultCode) (s : State) : raise c s = .next { s with regs := { s.regs with fault := c.code } } := rfl

/-- A raised code is a code of 60 R340. -/
theorem FaultCode.code_pos (c : FaultCode) : c.code ≠ 0#8 ∧ c.code.toNat ≤ 10 := by cases c <;> decide

/-! ## Issue -/

/-- Line 0 of any operation. -/
theorem exec_idle (i : Instr) (s : State) (h : s.seq.phase = .idle) :
    exec i s = (match i with | .beginOp mask => issueBegin (.beginOp mask) s | j => issue j s) := by
  cases i <;> simp [exec, execBeginOp, execEndOp, execReadStrobe, execReadAck, execIsIdle, execDriveData, execReleaseData,
    execAcquireData, execPullIrq, execReleaseIrq, execWaitCommand, execSendByte, execSendBytes, execReadByte, execReadBytes,
    execReadBlock, execWriteBlock, h]

/-- A latched descriptor is the operation that SEQ then runs. -/
theorem current_latch (i : Instr) (s : State) : (s.latch i).current = some i := by
  cases i <;> rfl

@[simp] theorem latch_phase (i : Instr) (s : State) : (s.latch i).seq.phase = .l1 := rfl
@[simp] theorem latch_regs (i : Instr) (s : State) : (s.latch i).regs = s.regs := rfl
@[simp] theorem latch_mem (i : Instr) (s : State) : (s.latch i).mem = s.mem := rfl
@[simp] theorem latch_lines (i : Instr) (s : State) : (s.latch i).lines = s.lines := rfl
@[simp] theorem latch_prog (i : Instr) (s : State) : (s.latch i).prog = s.prog := rfl
@[simp] theorem latch_pc (i : Instr) (s : State) : (s.latch i).pc = s.pc := rfl
@[simp] theorem latch_log (i : Instr) (s : State) : (s.latch i).log = s.log := rfl
@[simp] theorem latch_params (i : Instr) (s : State) : (s.latch i).params = s.params := rfl
@[simp] theorem latch_ovr (i : Instr) (s : State) : (s.latch i).ovr = s.ovr := rfl
@[simp] theorem latch_draws (i : Instr) (s : State) : (s.latch i).draws = s.draws := rfl
@[simp] theorem latch_sched (i : Instr) (s : State) : (s.latch i).sched = s.sched := rfl

/-! ## The operation that runs does not change when the latched descriptor does not -/

theorem current_congr {s t : State} (ho : t.seq.opc = s.seq.opc) (hi : t.seq.imm8 = s.seq.imm8) (hb : t.seq.buf = s.seq.buf)
    (hc : t.seq.count = s.seq.count) : t.current = s.current := by
  simp [State.current, ho, hi, hb, hc]

@[simp] theorem current_goto (p : Phase) (s : State) : (s.goto p).current = s.current := rfl
@[simp] theorem current_popped (s : State) : s.popped.current = s.current := rfl

/-! ## The byte slot -/

/-- A slot reset aborts with the counter unchanged, or resets it. -/
theorem slotReset_cases (pa po : Phase) (s : State) :
    (s.seq.idx ≠ 0 ∧ overrun s.params s.regs.cnt = true ∧ slotReset pa po s = s.goto pa) ∨
    (¬ (s.seq.idx ≠ 0 ∧ overrun s.params s.regs.cnt = true) ∧
      slotReset pa po s = { s with regs.cnt := 0#16, seq.phase := po }) := by
  unfold slotReset
  split
  · rename_i h; exact .inl ⟨h.1, h.2, rfl⟩
  · rename_i h; exact .inr ⟨h, rfl⟩

/-- Overrun is the strict check of 42 R177. -/
theorem overrun_iff (p : Params) (c : Half) : overrun p c = true ↔ p.strict = true ∧ p.ovrT.toNat ≤ c.toNat := by
  simp [overrun]

/-- `FinalCheck` goes to the abort line on an overrun, else to the normal exit. -/
theorem finalCheck_cases (s : State) :
    (overrun s.params s.regs.cnt = true ∧ s.finalCheck = s.goto .l7) ∨
    (overrun s.params s.regs.cnt = false ∧ s.finalCheck = s.goto .l6) := by
  unfold State.finalCheck
  cases overrun s.params s.regs.cnt <;> simp

/-- The data byte of the port view is the level of D (10_state R36, 20_memory R74). -/
theorem sampleByte_portIn (s : State) : sampleByte (portIn s) = levelD s := by
  apply BitVec.eq_of_getLsbD_eq
  intro k hk
  rw [sampleByte, portIn, BitVec.getLsbD_extractLsb', BitVec.getLsbD_append]
  simp [hk]

/-! ## What `wait_command` reads -/

/-- `Idle` is the three levels high. -/
theorem busIdle_iff (s : State) : busIdle s = true ↔ levelIRQ s = true ∧ levelREQ s = true ∧ levelACK s = true := by
  simp only [busIdle, Bool.and_eq_true, and_assoc]

/-- `Snap` in terms of the host's lines. -/
theorem snapshot_eq (s : State) : snapshot s = ⟨s.lines.csH, s.lines.a1H, levelD s⟩ := by
  simp [snapshot, asserted, levelCS, levelA1]

/-- `Strobe`: both lines asserted and the id in the mask. -/
theorem strobe_iff (mask : Byte) (r : Snapshot) :
    strobe mask r = true ↔ r.cs = true ∧ r.a1 = true ∧ mask.getLsbD (r.d.extractLsb' 5 3).toNat = true := by
  simp only [strobe, maskHas, deviceId, Bool.and_eq_true, and_assoc]

/-- An arrival at line 2 changes the phase to 2a or 2c and counts a draw. -/
theorem arrivePoll_cases (s : State) : arrivePoll s = (s.drawn 1).goto .l2a ∨ arrivePoll s = (s.drawn 1).goto .l2c := by
  unfold arrivePoll
  cases Config.drawStrobeFirst s.draws <;> simp

/-! ## The two packed views of `begin` -/

theorem Tcfg.word_begun : Tcfg.begun.word = 0x77#8 := by decide
theorem Dcfg.word_begun : Dcfg.begun.word = 0x0177#16 := by decide

/-! ## One step -/

/-- A step of a state without a model fault is one agent's move. -/
theorem step_eq (s : State) (h : s.regs.fault = 0#8) : step s = agentStep (nextMove s) s.popped := by
  simp [step, h]

/-- One step of a run. -/
theorem run_succ {s t : State} (n : Nat) (h : step s = .next t) : core.run (n + 1) s = core.run n t := by
  have h' : core.step s = .next t := h
  simp only [Host.Core.run, h']

/-- SEQ's issue of a decoded operation but `begin` in a session. -/
theorem step_issue {s : State} {i : Instr} {r : List Move} (hs : s.sched = .seq :: r) (hf : s.regs.fault = 0#8)
    (hp : s.seq.phase = .idle) (hd : decode (s.prog.drop s.pc) = .ok i) (hi : s.regs.ctrl.init = true)
    (hb : ∀ mask, i ≠ .beginOp mask) : step s = .next (State.latch i { s with sched := r }) := by
  have hl : s.pc < s.prog.length := by
    by_contra h
    rw [List.drop_eq_nil_of_le (by omega)] at hd
    cases hd
  have hpop : s.popped = { s with sched := r } := by simp [State.popped, hs]
  rw [step_eq s hf]
  simp only [nextMove, hs, agentStep, hpop, seqStep, hp, if_true, issueStep, hl, fetch, hd]
  rw [exec_idle _ { s with sched := r } hp]
  cases i <;> first | exact absurd rfl (hb _) | simp [issue, hi]

/-- SEQ's step at a line of the running operation. -/
theorem step_line {s : State} {i : Instr} {r : List Move} (hs : s.sched = .seq :: r) (hf : s.regs.fault = 0#8)
    (hp : s.seq.phase ≠ .idle) (hc : s.current = some i) : step s = exec i { s with sched := r } := by
  have hpop : s.popped = { s with sched := r } := by simp [State.popped, hs]
  have hc' : State.current { s with sched := r } = some i := hc
  rw [step_eq s hf]
  simp only [nextMove, hs, agentStep, hpop, seqStep, hp, if_false, lineStep, hc']

/-- The cases of one step. -/
theorem step_cases {s t : State} (h : step s = .next t) :
    s.regs.fault = 0#8 ∧
    ((nextMove s = .seq ∧ seqStep s.popped = .next t) ∨
     (∃ m, nextMove s = .host m ∧ hostMove m s.popped = .next t) ∨
     (∃ m, nextMove s = .env m ∧ envMove m s.popped = .next t) ∨
     (nextMove s = .wdog ∧ watchdogMove s.popped = .next t)) := by
  unfold step at h
  split at h
  · cases h
  · rename_i hf
    refine ⟨by simpa using hf, ?_⟩
    cases hm : nextMove s with
    | seq => simp [hm, agentStep] at h; simp [h]
    | host m => simp [hm, agentStep] at h; simp [h]
    | env m => simp [hm, agentStep] at h; simp [h]
    | wdog => simp [hm, agentStep] at h; simp [h]

/-- The cases of SEQ's step. -/
theorem seqStep_cases {s t : State} (h : seqStep s = .next t) :
    (s.seq.phase = .idle ∧ s.pc < s.prog.length ∧ ∃ i, fetch s = .ok i ∧ exec i s = .next t) ∨
    (s.seq.phase = .idle ∧ s.pc < s.prog.length ∧ fetch s = .illegalOp ∧ raise .illegalOp s = .next t) ∨
    (s.seq.phase = .idle ∧ s.pc < s.prog.length ∧ fetch s = .truncated ∧ raise .truncated s = .next t) ∨
    (s.seq.phase = .idle ∧ s.pc < s.prog.length ∧ fetch s = .reservedBits ∧ raise .reservedBits s = .next t) ∨
    (s.seq.phase = .idle ∧ ¬ s.pc < s.prog.length ∧ t = s) ∨
    (s.seq.phase ≠ .idle ∧ ∃ i, s.current = some i ∧ exec i s = .next t) := by
  unfold seqStep at h
  split at h
  · rename_i hp
    unfold issueStep at h
    split at h
    · rename_i hl
      split at h
      · rename_i i hf; exact .inl ⟨hp, hl, i, hf, h⟩
      · rename_i hf; exact .inr (.inl ⟨hp, hl, hf, h⟩)
      · rename_i hf; exact .inr (.inr (.inl ⟨hp, hl, hf, h⟩))
      · rename_i hf; exact .inr (.inr (.inr (.inl ⟨hp, hl, hf, h⟩)))
    · rename_i hl
      cases h
      exact .inr (.inr (.inr (.inr (.inl ⟨hp, hl, rfl⟩))))
  · rename_i hp
    unfold lineStep at h
    split at h
    · rename_i i hc; exact .inr (.inr (.inr (.inr (.inr ⟨hp, i, hc, h⟩))))
    · cases h

/-- A decoded descriptor lies inside the words it was decoded from. -/
theorem decode_words {ws : List Word} {i : Instr} (h : decode ws = .ok i) : i.words ≤ ws.length := by
  cases ws with
  | nil => cases h
  | cons w0 rest =>
    simp only [decode] at h
    split at h
    · cases h
    · rename_i row hr
      split at h
      · cases h
      · rename_i hl
        split at h
        · cases h
        · split at h
          · rename_i j hj
            cases h
            have ho := instrOf_opcode hj
            obtain ⟨row', hr', hw, -, -⟩ := rowOf_opcode i
            rw [ho, hr] at hr'
            cases hr'
            rw [← hw]
            simp only [List.length_cons]
            omega
          · cases h

end Sys2Proof.Machine
end

