-- ==== Sys2Proof/Laws/Invariant.lean ====
section
/-! SUPPORT. How the invariant is read and rebuilt: at a line of a running operation, when idle, and under the updates that do not
touch SEQ. -/

namespace Sys2Proof.Machine

/-! ## Where SEQ is -/

theorem running_iff {s : State} {i : Instr} : running s = some i ↔ s.seq.phase ≠ .idle ∧ s.current = some i := by
  unfold running
  split <;> simp_all

theorem inside_line {c : Instr → Bool} {s : State} {i : Instr} (hp : s.seq.phase ≠ .idle) (hc : s.current = some i) :
    inside c s = (c i && s.seq.phase != .l1) := by
  simp only [inside, running, if_neg hp, hc]

theorem inside_idle {c : Instr → Bool} {s : State} (h : s.seq.phase = .idle) : inside c s = false := by
  simp [inside, running, h]

theorem slotWaiting_idle {s : State} (h : s.seq.phase = .idle) : slotWaiting s = false := by
  simp [slotWaiting, running, h]

/-- The line of an operation at which it waits for the tick of a byte slot. -/
def slotLine (i : Instr) (p : Phase) : Bool :=
  match i with
  | .readBlock _ _ => p == .l3
  | .writeBlock _ _ => p == .l4
  | .waitCommand _ | .sendByte _ | .sendBytes _ _ | .readByte | .readBytes _ _
  | .beginOp _ | .endOp | .readStrobe | .readAck | .isIdle | .driveData _ | .releaseData | .acquireData | .pullIrq
  | .releaseIrq => false

theorem slotWaiting_line {s : State} {i : Instr} (hp : s.seq.phase ≠ .idle) (hc : s.current = some i) :
    slotWaiting s = slotLine i s.seq.phase := by
  simp only [slotWaiting, running, if_neg hp, hc]
  cases i <;> rfl

/-! ## Rebuilding the invariant -/

/-- The invariant at a line of a running operation. -/
theorem Inv.of_line {t : State} (i : Instr) (hp : t.seq.phase ≠ .idle) (hc : t.current = some i) (hm : t.mem.wf = true)
    (hone : t.regs.ctrl.ddir = true → t.lines.dh = none) (r : Running i t)
    (hconf : t.regs.ctrl.init = true →
      t.regs.ccrReq = 1#16 ∧ t.regs.ccrTrig = 1#16 ∧ t.regs.tcfg = Tcfg.begun ∧ t.regs.dcfg = Dcfg.begun)
    (hstop : t.regs.ctrl.init = false → t.regs.tcfg.ten = false ∧ t.regs.dcfg.den = false)
    (hcnt : t.regs.ctrl.init = true → t.regs.cnt = 0#16 → slotLine i t.seq.phase = true)
    (hreq : t.regs.ctrl.reqMode = (isBlock i && t.seq.phase != .l1))
    (hjs : t.regs.ctrl.jsusp = (isGuarded i && t.seq.phase != .l1))
    (hsv : (isGuarded i && t.seq.phase != .l1) = true → t.seq.savedJsusp = false)
    (hst : t.regs.res.extractLsb' 8 8 = 0x00#8 ∨ t.regs.res.extractLsb' 8 8 = 0x01#8) (hf : t.regs.fault.toNat ≤ 10) : Inv t := by
  have hfit := r.fits
  refine ⟨hm, hone, by omega, fun _ => ⟨i, hc, r⟩, hconf, hstop, ?_, ?_, ?_, ?_, hst, hf⟩
  · rw [slotWaiting_line hp hc]; exact hcnt
  · rw [inside_line hp hc]; exact hreq
  · rw [inside_line hp hc]; exact hjs
  · rw [inside_line hp hc]; exact hsv

/-- The invariant when SEQ is idle. -/
theorem Inv.of_idle {t : State} (hp : t.seq.phase = .idle) (hm : t.mem.wf = true)
    (hone : t.regs.ctrl.ddir = true → t.lines.dh = none) (hpc : t.pc ≤ t.prog.length)
    (hconf : t.regs.ctrl.init = true →
      t.regs.ccrReq = 1#16 ∧ t.regs.ccrTrig = 1#16 ∧ t.regs.tcfg = Tcfg.begun ∧ t.regs.dcfg = Dcfg.begun)
    (hstop : t.regs.ctrl.init = false → t.regs.tcfg.ten = false ∧ t.regs.dcfg.den = false)
    (hcnt : t.regs.ctrl.init = true → t.regs.cnt ≠ 0#16) (hreq : t.regs.ctrl.reqMode = false) (hjs : t.regs.ctrl.jsusp = false)
    (hst : t.regs.res.extractLsb' 8 8 = 0x00#8 ∨ t.regs.res.extractLsb' 8 8 = 0x01#8) (hf : t.regs.fault.toNat ≤ 10) : Inv t := by
  refine ⟨hm, hone, hpc, fun h => absurd hp h, hconf, hstop, ?_, ?_, ?_, ?_, hst, hf⟩
  · intro a b; exact absurd b (hcnt a)
  · rw [inside_idle hp]; exact hreq
  · rw [inside_idle hp]; exact hjs
  · rw [inside_idle hp]; intro h; cases h

/-! ## Updates that do not touch SEQ -/

/-- A running operation's facts speak of the state only through these fields. -/
theorem Running.congr {i : Instr} {s t : State} (r : Running i s) (hseq : t.seq = s.seq) (hpc : t.pc = s.pc)
    (hprog : t.prog = s.prog) (hinit : t.regs.ctrl.init = s.regs.ctrl.init) (hddir : t.regs.ctrl.ddir = s.regs.ctrl.ddir)
    (hcap : ∀ buf count, i = .readBlock buf count →
      (s.seq.phase = .l4 ∨ s.seq.phase = .l3 ∧ t.regs.cnt ≠ 0#16) → t.regs.sample ≠ .unwritten) : Running i t := by
  obtain ⟨r1, r2, r3, r4, r5, r6, -, r8⟩ := r
  refine ⟨?_, ?_, ?_, ?_, ?_, ?_, ?_, ?_⟩
  · rw [hseq]; exact r1
  · rw [hpc, hprog]; exact r2
  · rw [hinit]; exact r3
  · rw [hseq]; exact r4
  · rw [hseq, hddir]; exact r5
  · rw [hseq, hddir]; exact r6
  · rw [hseq]; exact hcap
  · rw [hseq]; exact r8

/-- Raising a model fault keeps the invariant. -/
theorem Inv.faulted {s : State} (h : Inv s) (c : FaultCode) : Inv { s with regs.fault := c.code } := by
  obtain ⟨h1, h2, h3, h4, h5, h6, h7, h8, h9, h10, h11, -⟩ := h
  refine ⟨h1, h2, h3, fun hp => ?_, h5, h6, h7, h8, h9, h10, h11, (FaultCode.code_pos c).2⟩
  obtain ⟨i, hc, r⟩ := h4 hp
  exact ⟨i, hc, r.congr rfl rfl rfl rfl rfl r.captured⟩

/-- Taking a move off the schedule keeps it. -/
theorem Inv.popped {s : State} (h : Inv s) : Inv s.popped := by
  obtain ⟨h1, h2, h3, h4, h5, h6, h7, h8, h9, h10, h11, h12⟩ := h
  refine ⟨h1, h2, h3, fun hp => ?_, h5, h6, h7, h8, h9, h10, h11, h12⟩
  obtain ⟨i, hc, r⟩ := h4 hp
  exact ⟨i, hc, r.congr rfl rfl rfl rfl rfl r.captured⟩

/-- A change of the lines, the log and the draw counter keeps it while D has one driver. -/
theorem Inv.lines {s : State} (h : Inv s) (l : Lines) (lg : List Event) (n : Nat)
    (hd : s.regs.ctrl.ddir = true → l.dh = none) : Inv { s with lines := l, log := lg, draws := n } := by
  obtain ⟨h1, -, h3, h4, h5, h6, h7, h8, h9, h10, h11, h12⟩ := h
  refine ⟨h1, hd, h3, fun hp => ?_, h5, h6, h7, h8, h9, h10, h11, h12⟩
  obtain ⟨i, hc, r⟩ := h4 hp
  exact ⟨i, hc, r.congr rfl rfl rfl rfl rfl r.captured⟩

/-- A counted tick below the counter's top keeps it: the tick from 0 captures. -/
theorem Inv.tick {s : State} (h : Inv s) (hten : s.regs.tcfg.ten = true) (hc : s.regs.cnt ≠ 0xFFFF#16) (port : Half) :
    Inv (tick port s) := by
  have hinit : s.regs.ctrl.init = true := by
    by_contra hn
    have := (h.stopped (by simpa using hn)).1
    rw [hten] at this
    cases this
  obtain ⟨-, htrig, htc, hdc⟩ := h.configured hinit
  have hne : s.regs.cnt + 1#16 ≠ 0#16 := by bv_omega
  obtain ⟨h1, h2, h3, h4, h5, h6, -, h8, h9, h10, h11, h12⟩ := h
  refine ⟨h1, h2, h3, fun hp => ?_, h5, h6, fun _ h0 => absurd h0 hne, h8, h9, h10, h11, h12⟩
  obtain ⟨i, hcur, r⟩ := h4 hp
  refine ⟨i, hcur, r.congr rfl rfl rfl rfl rfl ?_⟩
  intro b c hi hph
  have hs := r.captured b c hi
  simp only [Machine.tick, State.emit]
  split
  · simp
  · rename_i hcap
    apply hs
    rcases hph with hph | ⟨hph, -⟩
    · exact .inl hph
    · refine .inr ⟨hph, fun h0 => hcap ?_⟩
      rw [h0, htrig, htc, hdc]
      rfl

/-! ## Duties over a trace -/

@[simp] theorem eachMove_nil (p : State × Move → Trace → Bool) : eachMove p [] = true := rfl
@[simp] theorem eachMove_cons (p : State × Move → Trace → Bool) (e : State × Move) (rest : Trace) :
    eachMove p (e :: rest) = (p e rest && eachMove p rest) := rfl

/-- A duty over a trace holds iff it holds at every entry, with the entries after it. -/
theorem eachMove_iff (p : State × Move → Trace → Bool) (tr : Trace) :
    eachMove p tr = true ↔ ∀ before e rest, tr = before ++ e :: rest → p e rest = true := by
  induction tr with
  | nil => simp
  | cons x xs ih =>
    simp only [eachMove_cons, Bool.and_eq_true, ih]
    constructor
    · rintro ⟨hx, hxs⟩ before e rest h
      cases before with
      | nil => obtain ⟨rfl, rfl⟩ := List.cons.inj h; exact hx
      | cons b bs => exact hxs bs e rest (List.cons.inj h).2
    · exact fun h => ⟨h [] x xs rfl, fun before e rest hxs => h (x :: before) e rest (by rw [hxs]; rfl)⟩

end Sys2Proof.Machine
end

