-- ==== Sys2Proof/Laws/PerInstr.lean ====
section
/-! SUPPORT. Statements about every operation as syntax, one lemma per constructor. -/

namespace Sys2Proof.Laws.EncodedForm

/-- The encoded form of an operation (30_encoding R101 to R105): as many words as its length, the opcode, the immediate and a zero
reserved field in the first, and the table row of its opcode agrees on the length. -/
def Statement (i : Instr) : Prop :=
  (encode i).length = i.words ∧
  ((encode i).head?.map opcField = some i.opcode ∧ (encode i).head?.map immField = some i.imm ∧
    (encode i).head?.map rsvField = some 0#16) ∧
  (rowOf i.opcode).map OpRow.words = some i.words

/-- It holds by the row lemma and the fields of the packed word. -/
theorem of_row (i : Instr) : Statement i := by
  obtain ⟨row, hr, hw, -, -⟩ := rowOf_opcode i
  refine ⟨?_, by simp [encode], by simp [hr, hw]⟩
  cases h : i.bufferWords <;> simp [encode, Instr.words, h]

theorem beginOp (mask : Byte) : Statement (.beginOp mask) := of_row _
theorem endOp : Statement .endOp := of_row _
theorem readStrobe : Statement .readStrobe := of_row _
theorem readAck : Statement .readAck := of_row _
theorem isIdle : Statement .isIdle := of_row _
theorem driveData (b : Byte) : Statement (.driveData b) := of_row _
theorem releaseData : Statement .releaseData := of_row _
theorem acquireData : Statement .acquireData := of_row _
theorem pullIrq : Statement .pullIrq := of_row _
theorem releaseIrq : Statement .releaseIrq := of_row _
theorem waitCommand (mask : Byte) : Statement (.waitCommand mask) := of_row _
theorem sendByte (b : Byte) : Statement (.sendByte b) := of_row _
theorem sendBytes (buf count : Word) : Statement (.sendBytes buf count) := of_row _
theorem readByte : Statement .readByte := of_row _
theorem readBytes (buf count : Word) : Statement (.readBytes buf count) := of_row _
theorem readBlock (buf count : Word) : Statement (.readBlock buf count) := of_row _
theorem writeBlock (buf count : Word) : Statement (.writeBlock buf count) := of_row _

end Sys2Proof.Laws.EncodedForm
end

