-- ==== Sys2Proof/Tests/Slice0.lean ====
section
/-! SUPPORT. Tests. Expected values come from the spec: the encodings of 30_encoding, the vectors of 95_test_vectors, the examples of the
operation rules. Each `test_witness_…` shows concrete states that meet the hypotheses of one obligation, clause by clause. -/

namespace Sys2Proof.Tests

open Sys2Proof Sys2Proof.Machine

/-! ## Small states -/

/-- After `begin 0x81` and idle, the conventions of 95_test_vectors: lines released, strict validation off. -/
def demo : State where
  prog := []
  pc := 0
  regs :=
    { ctrl := ⟨true, false, false, false, false⟩, devmask := .holds 0x81#8, dout := .holds 0x12#8, res := 0x0000#16,
      tcfg := Tcfg.begun, cnt := 1#16, ccrReq := 1#16, ccrTrig := 1#16, sample := .unwritten, dcfg := Dcfg.begun, fault := 0#8 }
  seq := Seq.reset
  ovr := false
  log := []
  lines := Lines.launch
  mem := [(0x200, 0xAA#8), (0x201, 0x55#8)]
  params := Params.launch
  draws := 0
  sched := []

/-- Before `begin`. -/
def cold : State :=
  { demo with regs.ctrl := Ctrl.reset, regs.tcfg := Tcfg.reset, regs.dcfg := Dcfg.reset, regs.devmask := .unwritten }

/-- With a program and a schedule. -/
def sess (prog : List Word) (sched : List Move) (s : State := demo) : State := { s with prog := prog, sched := sched }

/-- At a line of an operation that is the whole program. -/
def at_ (i : Instr) (p : Phase) (s : State := demo) : State := State.goto p (State.latch i { s with prog := encode i })

/-- With the next move. -/
def nexts (m : Move) (s : State) : State := { s with sched := [m] }

/-- The data bus driven by the block. -/
def driving (s : State) : State := { s with regs.ctrl.ddir := true }

/-- The data bus driven by the host. -/
def hosted (b : Byte) (s : State := demo) : State := { s with lines.dh := some b }

/-- CS and A1 asserted. -/
def strobed (s : State) : State := { s with lines.csH := true, lines.a1H := true }

/-- No buffer address admitted. -/
def barred (s : State := demo) : State := { s with params.admits := [] }

/-- Strict validation on, with a count. -/
def strictAt (c : Half) (s : State := demo) : State := { s with params.strict := true, regs.cnt := c }

/-- A field of the next state, none if there is none. -/
def after {α : Type} (o : Out) (f : State → α) : Option α :=
  match o with
  | .next t => some (f t)
  | .fault _ => none
  | .refused _ => none

/-- The model fault after a step. -/
def faultOf (o : Out) : Option Byte := after o (fun t => t.regs.fault)

/-! ## Well-formed source statements (30_encoding R110) -/

theorem test_wf_refuses_unknown_mnemonic : Source.wellFormed ⟨"nop", []⟩ = false := by decide
theorem test_wf_refuses_missing_operand : Source.wellFormed ⟨"begin", []⟩ = false := by decide
theorem test_wf_refuses_extra_operand : Source.wellFormed ⟨"end", [0]⟩ = false := by decide
theorem test_wf_refuses_byte_out_of_range : Source.wellFormed ⟨"drive_data", [256]⟩ = false := by decide
theorem test_wf_refuses_word_out_of_range : Source.wellFormed ⟨"read_block", [0, 4294967296]⟩ = false := by decide
theorem test_wf_accepts_the_bounds :
    Source.wellFormed ⟨"drive_data", [255]⟩ = true ∧ Source.wellFormed ⟨"read_block", [4294967295, 4294967295]⟩ = true := by decide

theorem test_assembles_a_line :
    assembleLine "send_bytes 0x20000000, 4 ; two operands".toList = some [0x41000000#32, 0x20000000#32, 0x00000004#32] := by decide
theorem test_assembles_a_binary_mask : assembleLine "begin 0b11".toList = some [0x01030000#32] := by decide
theorem test_assembler_refuses_out_of_range : assembleLine "begin 256".toList = none := by decide

/-! ## Decoding: a word of each operation, written out from R101 and R105 -/

theorem test_decode_session : decode [0x01030000#32] = .ok (.beginOp 0x03#8) ∧ decode [0x02000000#32] = .ok .endOp := by decide
theorem test_decode_queries :
    decode [0x10000000#32] = .ok .readStrobe ∧ decode [0x11000000#32] = .ok .readAck ∧ decode [0x12000000#32] = .ok .isIdle := by decide
theorem test_decode_lines :
    decode [0x20A50000#32] = .ok (.driveData 0xA5#8) ∧ decode [0x21000000#32] = .ok .releaseData ∧
    decode [0x22000000#32] = .ok .acquireData ∧ decode [0x23000000#32] = .ok .pullIrq ∧ decode [0x24000000#32] = .ok .releaseIrq := by
  decide
theorem test_decode_capture : decode [0x30010000#32] = .ok (.waitCommand 0x01#8) := by decide
theorem test_decode_bytes :
    decode [0x40020000#32] = .ok (.sendByte 0x02#8) ∧
    decode [0x41000000#32, 0x20000000#32, 0x00000004#32] = .ok (.sendBytes 0x20000000#32 4#32) ∧
    decode [0x42000000#32] = .ok .readByte ∧ decode [0x43000000#32, 0x00000100#32, 0x00000005#32] = .ok (.readBytes 0x100#32 5#32) := by
  decide
theorem test_decode_blocks :
    decode [0x50000000#32, 0x00000300#32, 0x00000200#32] = .ok (.readBlock 0x300#32 512#32) ∧
    decode [0x51000000#32, 0x00000200#32, 0x00000003#32] = .ok (.writeBlock 0x200#32 3#32) := by decide
theorem test_decode_rejects :
    decode [0x13000000#32] = .illegalOp ∧ decode [0x00000000#32] = .illegalOp ∧ decode [0x41000000#32, 0#32] = .truncated ∧
    decode [0x10000001#32] = .reservedBits ∧ decode [0x21FF0000#32] = .reservedBits := by decide
theorem test_table_word : decodeTableWord 32 0x20FF0000 = some (.driveData 0xFF#8) ∧
    decodeTableWord 96 0x000000020000030050000000 = some (.readBlock 0x300#32 2#32) ∧ decodeTableWord 32 0x13000000 = none := by decide

/-! ## Issue (V2.1.1 to V2.1.10) -/

theorem test_issue_faults_in_order :
    faultOf (step (sess [0x13000000#32] [] cold)) = some 1#8 ∧ faultOf (step (sess [0x41000000#32] [])) = some 2#8 ∧
    faultOf (step (sess [0x10000001#32] [] cold)) = some 3#8 ∧ faultOf (step (sess [0x01FF0001#32] [])) = some 3#8 ∧
    faultOf (step (sess [0x10000000#32] [] cold)) = some 4#8 ∧ faultOf (step (sess [0x01000000#32] [])) = some 5#8 := by decide
theorem test_issue_latches :
    after (step (sess [0x50000000#32, 0x300#32, 2#32] [])) (fun t => (t.seq.buf, t.seq.count, t.seq.phase, t.pc)) =
      some (0x300#32, 2#32, .l1, 0) := by decide
theorem test_first_step_after_reset :
    after (step (State.reset.withFetchWord 32 0x01030000)) (fun t => (t.seq.opc, t.seq.imm8, t.seq.phase, t.regs.fault)) =
      some (0x01#8, 0x03#8, .l1, 0#8) := by decide

/-! ## Bus line access (V2.2.x, V1.6) -/

theorem test_read_strobe_asserted :
    after (exec .readStrobe (at_ .readStrobe .l1 (strobed demo))) (fun t => t.regs.res) = some 0x0000#16 := by decide
theorem test_read_strobe_released :
    after (exec .readStrobe (at_ .readStrobe .l1)) (fun t => (t.regs.res, t.pc)) = some (0x0001#16, 1) := by decide
theorem test_read_ack_counts_nothing :
    after (exec .readAck (at_ .readAck .l1 { demo with lines.ackH := true })) (fun t => (t.regs.res, t.regs.cnt)) =
      some (0x0000#16, 1#16) := by decide
theorem test_is_idle_truth_table :
    ∀ irq req ack : Bool,
      after (exec .isIdle (at_ .isIdle .l1 { demo with lines.irqE := !irq, lines.reqE := !req, lines.ackH := !ack }))
        (fun t => t.regs.res) = some (if irq && req && ack then 0x0001#16 else 0x0000#16) := by decide
theorem test_is_idle_sees_own_pull :
    after (exec .isIdle (at_ .isIdle .l1 { demo with regs.ctrl.irqPull := true })) (fun t => t.regs.res) = some 0x0000#16 := by decide
theorem test_drive_data_not_acquired :
    after (exec (.driveData 0x5A#8) (at_ (.driveData 0x5A#8) .l1)) (fun t => (t.regs.fault, t.regs.dout)) =
      some (6#8, .holds 0x12#8) := by decide
theorem test_drive_data_appears :
    after (exec (.driveData 0xA5#8) (at_ (.driveData 0xA5#8) .l1 (driving demo))) (fun t => (t.regs.dout, levelD t)) =
      some (.holds 0xA5#8, 0xA5#8) := by decide
theorem test_release_keeps_latch :
    after (exec .releaseData (at_ .releaseData .l1 (driving demo))) (fun t => (t.regs.ctrl.ddir, t.regs.dout)) =
      some (false, .holds 0x12#8) := by decide
theorem test_acquire_contended :
    after (exec .acquireData (at_ .acquireData .l1 (hosted 0x10#8))) (fun t => (t.regs.fault, t.regs.ctrl.ddir)) =
      some (8#8, false) := by decide
theorem test_acquire_drives :
    after (exec .acquireData (at_ .acquireData .l1)) (fun t => (t.regs.ctrl.ddir, levelD t)) = some (true, 0x12#8) := by decide
theorem test_pull_irq : after (exec .pullIrq (at_ .pullIrq .l1)) levelIRQ = some false := by decide
theorem test_release_irq_shared :
    after (exec .releaseIrq (at_ .releaseIrq .l1 { demo with regs.ctrl.irqPull := true, lines.irqE := true }))
      (fun t => (t.regs.ctrl.irqPull, levelIRQ t)) = some (false, false) := by decide
theorem test_safe_release_twice :
    State.safeRelease { demo with regs.ctrl := ⟨true, true, true, true, true⟩ } = { demo with regs.ctrl := ⟨true, true, false, false, false⟩ } := by
  decide

/-! ## Session operations and the timer (V2.3.x) -/

theorem test_begin :
    after (exec (.beginOp 0x03#8) (at_ (.beginOp 0x03#8) .l1 cold))
      (fun t => (t.regs.devmask, t.regs.cnt, t.regs.tcfg.word, t.regs.dcfg.word, t.regs.ctrl.word)) =
      some (.holds 0x03#8, 1#16, 0x77#8, 0x0177#16, 0b00001#32) := by decide
theorem test_end :
    after (exec .endOp (at_ .endOp .l1)) (fun t => (t.regs.tcfg.word, t.regs.dcfg.word, t.regs.ctrl.word, t.regs.devmask)) =
      some (0x76#8, 0x0176#16, 0#32, .holds 0x81#8) := by decide
theorem test_slot_tick :
    after (step (nexts (.host .ackFall) { hosted 0x41#8 with regs.cnt := 0#16, regs.ctrl.reqMode := true }))
      (fun t => (t.regs.cnt, levelREQ t, t.log, t.ovr)) =
      some (1#16, true, [.line .ack true 0x41#8, .tick 1#16 true], false) := by decide
theorem test_slot_tick_captures_the_data_byte :
    ∃ low : Byte, after (step (nexts (.host .ackFall) { hosted 0x41#8 with regs.cnt := 0#16 })) (fun t => t.regs.sample) =
      some (.holds (0x41#8 ++ low)) := ⟨Config.drawByte 1, rfl⟩
theorem test_second_edge :
    after (step (nexts (.host .ackFall) { hosted 0x41#8 with regs.ctrl.reqMode := true }))
      (fun t => (t.regs.cnt, t.regs.sample, t.ovr)) = some (2#16, .unwritten, true) := by decide
theorem test_counter_wrap :
    after (step (nexts (.host .ackFall) { demo with regs.cnt := 0xFFFF#16 })) (fun t => (t.regs.fault, t.regs.cnt, t.lines.ackH)) =
      some (9#8, 0xFFFF#16, false) := by decide
theorem test_edge_with_timer_stopped :
    after (step (nexts (.host .ackFall) { (hosted 0x01#8) with regs.tcfg.ten := false, regs.cnt := 5#16 }))
      (fun t => (t.regs.cnt, t.log)) = some (5#16, [.line .ack true 0x01#8]) := by decide
theorem test_host_contends :
    faultOf (step (nexts (.host (.data (some 0x3C#8))) (driving demo))) = some 8#8 := by decide

/-! ## Command capture (V2.4.x) -/

theorem test_snapshot_matches :
    after (exec (.waitCommand 0x81#8) (at_ (.waitCommand 0x81#8) .l2a (strobed (hosted 0xE0#8)))) (fun t => (t.seq.phase, t.seq.snap.d)) =
      some (.l2b, 0xE0#8) := by decide
theorem test_snapshot_of_other_device :
    after (exec (.waitCommand 0x81#8) (at_ (.waitCommand 0x81#8) .l2a (strobed (hosted 0x20#8)))) (fun t => t.seq.phase) =
      some .l2a := by decide
theorem test_command_returned :
    after (exec (.waitCommand 0x01#8) { at_ (.waitCommand 0x01#8) .l4 with seq.cmd := 0x08#8, regs.ctrl.jsusp := true })
      (fun t => (t.regs.res, t.regs.ctrl.jsusp)) = some (0x0008#16, false) := by decide

/-! ## Interrupt bytes (V2.5.x) -/

theorem test_send_byte_contended :
    after (exec (.sendByte 0xC3#8) (at_ (.sendByte 0xC3#8) .l1 (hosted 0x01#8))) (fun t => (t.regs.fault, t.regs.ctrl.jsusp)) =
      some (8#8, false) := by decide
theorem test_read_byte_samples_at_release :
    after (exec .readByte (at_ .readByte .l4 (hosted 0x77#8))) (fun t => (t.seq.v, t.seq.phase)) = some (0x77#8, .l5) := by decide
theorem test_read_bytes_none_waits_for_cs :
    after (exec (.readBytes 0x100#32 0#32) (at_ (.readBytes 0x100#32 0#32) .l1)) (fun t => (t.seq.phase, t.regs.ctrl.irqPull)) =
      some (.l7, false) ∧
    after (exec (.readBytes 0x100#32 0#32) (at_ (.readBytes 0x100#32 0#32) .l7 (strobed demo))) (fun t => t.seq.phase) = some .l7 := by
  decide
theorem test_send_bytes_reads_the_buffer :
    after (exec (.sendBytes 0x200#32 2#32) { at_ (.sendBytes 0x200#32 2#32) .l3 with seq.idx := 1 }) (fun t => t.regs.dout) =
      some (.holds 0x55#8) := by decide

/-! ## Block transfers (V2.6.x, V2.3.13) -/

theorem test_first_slot_checks_nothing :
    after (exec (.readBlock 0x300#32 1#32) (at_ (.readBlock 0x300#32 1#32) .l2 (strictAt 3#16))) (fun t => (t.regs.cnt, t.seq.phase)) =
      some (0#16, .l3) := by decide
theorem test_second_slot_aborts :
    after (exec (.readBlock 0x400#32 4#32) { at_ (.readBlock 0x400#32 4#32) .l2 (strictAt 2#16) with seq.idx := 2 })
      (fun t => (t.regs.cnt, t.seq.phase)) = some (2#16, .l7) := by decide
theorem test_abort_result :
    after (exec (.writeBlock 0x200#32 2#32) (at_ (.writeBlock 0x200#32 2#32) .l7 (driving demo))) (fun t => (t.regs.res, t.regs.ctrl.ddir, t.pc)) =
      some (0x0100#16, false, 3) := by decide
theorem test_write_block_contended_even_if_empty :
    faultOf (exec (.writeBlock 0x200#32 0#32) (at_ (.writeBlock 0x200#32 0#32) .l1 (hosted 0x10#8))) = some 8#8 := by decide
theorem test_read_block_stores :
    after (exec (.readBlock 0x300#32 1#32) { at_ (.readBlock 0x300#32 1#32) .l4 with regs.sample := .holds 0x9912#16 })
      (fun t => (t.mem.read 0x300, t.seq.phase)) = some (0x99#8, .l6) := by decide
theorem test_write_block_stuck :
    after (exec (.writeBlock 0x200#32 1#32) (at_ (.writeBlock 0x200#32 1#32) .l2 (barred))) (fun t => t.seq.phase) = some .l2 := by decide

/-! ## Watchdog, reset and memory (V2.7.x, 20_memory) -/

theorem test_watchdog_at_a_wait :
    after (step (nexts .wdog { at_ (.readBlock 0x300#32 2#32) .l3 with pc := 1, ovr := true }))
      (fun t => (t.pc, t.seq.phase, t.regs.ctrl.word, t.log, t.ovr)) = some (0, .idle, 0#32, [.reset .watchdog], false) := by decide
theorem test_no_watchdog_when_idle : after (step (nexts .wdog demo)) (fun t => t.log) = some [] := by decide
theorem test_faulted_is_final : step { demo with regs.fault := 6#8 } = .fault (.faulted 6#8) := rfl
theorem test_power_on :
    (State.reset.log, State.reset.pc, State.reset.regs.ctrl.word, State.reset.mem.wf) = ([.reset .power], 0, 0#32, true) := by decide
theorem test_memory_write_of_unlisted_value_removes : Memory.write [(3, 0x01#8)] 3 0x00#8 = [] := by decide
theorem test_memory_not_canonical : Memory.wf [(3, 0x01#8), (3, 0x02#8)] = false ∧ Memory.wf [(3, 0x00#8)] = false := by decide

/-! ## Witnesses: states that meet the hypotheses of the obligations -/

/-- Idle in a session, any program and schedule: it meets the invariant. -/
theorem inv_sess (prog : List Word) (sched : List Move) : Inv (sess prog sched) :=
  Inv.of_idle rfl (show demo.mem.wf = true by decide) (fun _ => rfl) (Nat.zero_le _) (fun _ => ⟨rfl, rfl, rfl, rfl⟩)
    (by intro h; cases h) (fun _ => show demo.regs.cnt ≠ 0#16 by decide) rfl rfl
    (.inl (show demo.regs.res.extractLsb' 8 8 = 0#8 by decide)) (show demo.regs.fault.toNat ≤ 10 by decide)

/-- At the wait of a byte slot of `read_block 0x400, 2`. -/
def slotState (n : Nat) (c : Half) (smp : Latch 16) (strict : Bool) (sched : List Move) : State :=
  { at_ (.readBlock 0x400#32 2#32) .l3 (hosted 0x11#8) with
    regs.ctrl := ⟨true, true, false, false, true⟩, regs.cnt := c, regs.sample := smp, seq.idx := n, params.strict := strict,
    sched := sched }

/-- It meets the invariant before the slot's tick, and after it with a capture. -/
theorem inv_slotState (n : Nat) (c : Half) (smp : Latch 16) (strict : Bool) (sched : List Move) (hn : n < 2)
    (hc : c ≠ 0#16 → smp ≠ .unwritten) : Inv (slotState n c smp strict sched) := by
  refine Inv.of_line (.readBlock 0x400#32 2#32) (by simp [slotState, at_]) rfl (by simp only [slotState]; decide) (by intro h; cases h) ?_
    (fun _ => ⟨rfl, rfl, rfl, rfl⟩) (by intro h; cases h) (fun _ _ => rfl) rfl rfl (fun _ => rfl) (.inl (by simp only [slotState]; decide))
    (by simp only [slotState]; decide)
  refine ⟨rfl, ?_, rfl, ?_, fun _ _ => rfl, (by intro h; cases h), ?_, ?_⟩
  · exact Nat.le_refl 3
  · show decide (n < 2) = true
    simpa using hn
  · rintro _ _ - (h | ⟨-, h⟩)
    · cases h
    · exact hc h
  · rintro _ h
    cases h

/-- The hypotheses of the statements about SEQ's next step. -/
def seqNext (p : Phase) (s : State) : Bool := s.regs.fault == 0#8 && nextMove s == .seq && s.seq.phase == p

theorem test_witness_SpecExamplesEncodeAndDecode :
    [0x13000000#32, 0x10000001#32, 0x21FF0000#32].all
      (fun w => seqNext .idle (sess [w] []) && (sess [w] []).prog[(sess [w] []).pc]? == some w) = true := by decide
theorem test_witness_EncodeInvertsDecode : decode [0x40000000#32, 0#32] = .ok (.sendByte 0x00#8) := by decide
theorem test_witness_StatementsAssembleExactlyInRange : Source.assemble ⟨"begin", [255]⟩ = some (.beginOp 0xFF#8) := by decide
theorem test_witness_StepRunsTheDecodedOperation :
    (seqNext .idle (sess [0x42000000#32] []) = true ∧ decode ((sess [0x42000000#32] []).prog.drop 0) = .ok .readByte) ∧
    (seqNext .l3 (at_ .readByte .l3) = true ∧ (at_ .readByte .l3).current = some .readByte) := by decide
theorem test_witness_PlacedWordIsIssuedNext : decodeTableWord 32 0x42000000 = some .readByte := by decide
theorem test_witness_IssueChecksThenLatches :
    [0x13000000#32, 0x41000000#32, 0x10000001#32, 0x21FF0000#32, 0x10000000#32].all (fun w => seqNext .idle (sess [w] [] cold)) = true ∧
    [0x01000000#32, 0x20FF0000#32].all (fun w => seqNext .idle (sess [w] [])) = true := by decide
theorem test_witness_NormalEndHasNoSeqStep :
    ∀ m ∈ [Move.seq, Move.wdog], (nexts m demo).regs.fault = 0#8 ∧ demo.seq.phase = .idle ∧ demo.pc = demo.prog.length ∧
      nextMove (nexts m demo) = m := by decide
theorem test_witness_FaultedStateIsFinal :
    (sess [0x13000000#32] []).regs.fault = 0#8 ∧ faultOf (step (sess [0x13000000#32] [])) = some 1#8 ∧
    { demo with regs.fault := 6#8 }.regs.fault ≠ 0#8 := by decide
theorem test_witness_FaultCodesHaveTheirCauses :
    (sess [0x13000000#32] []).regs.fault = 0#8 ∧ faultOf (step (at_ (.driveData 1#8) .l1)) = some 6#8 ∧
    faultOf (step (at_ .readByte .l1 (driving demo))) = some 7#8 ∧ faultOf (step (at_ .acquireData .l1 (hosted 1#8))) = some 8#8 ∧
    faultOf (step (nexts (.host (.data (some 1#8))) (driving demo))) = some 8#8 ∧
    faultOf (step (nexts (.host .ackFall) { demo with regs.cnt := 0xFFFF#16 })) = some 9#8 ∧
    faultOf (step (at_ (.readBlock 0#32 1#32) .l4)) = some 10#8 :=
  ⟨by decide, by decide, by decide, by decide, by decide, by decide, by decide⟩
theorem test_witness_DataBusLevel :
    (dataDriven (driving demo) = some 0x12#8) ∧ dataDriven (hosted 0x34#8) = some 0x34#8 ∧ dataDriven demo = none := by decide
/-- For `QueriesCompleteWithLevels`, `DriveDataWritesTheLatch`, `ReleaseAndAcquireDataSwitchDirection`, `PullAndReleaseIrqSetTheLine`,
`BeginConfiguresTheSession` and `EndTearsTheSessionDown`. -/
theorem test_witness_lines_of_one_step_operations :
    (∀ i ∈ [Instr.readStrobe, .readAck, .isIdle, .driveData 1#8, .releaseData, .acquireData, .pullIrq, .releaseIrq, .beginOp 1#8, .endOp],
      (at_ i .l1).seq.phase = .l1) ∧
    (at_ (.driveData 1#8) .l1).regs.ctrl.ddir = false ∧ (at_ (.driveData 1#8) .l1 (driving demo)).regs.ctrl.ddir = true ∧
    (driving demo).lines.dh = none ∧ (hosted 1#8).lines.dh ≠ none ∧
    (demo.seq.phase = .idle ∧ demo.regs.ctrl.init = true) ∧ (cold.seq.phase = .idle ∧ cold.regs.ctrl.init = false) ∧
    demo.regs.tcfg.word = 0x77#8 ∧ demo.regs.dcfg.word = 0x0177#16 :=
  ⟨by decide, by decide, by decide, by decide, by decide, by decide, by decide, by decide, by decide⟩
theorem test_witness_SafeReleaseIsIdempotent :
    { demo with regs.ctrl := ⟨true, true, true, true, true⟩ }.regs.ctrl.word = 0b11111#32 := by decide
theorem test_witness_AckFallTicksAndCaptures :
    nextMove (nexts (.host .ackFall) demo) = .host .ackFall ∧ demo.regs.fault = 0#8 ∧ demo.lines.ackH = false ∧
    demo.regs.tcfg.ten = true ∧ demo.regs.cnt ≠ 0xFFFF#16 ∧ { demo with regs.cnt := 0xFFFF#16 }.regs.tcfg.ten = true ∧
    cold.regs.tcfg.ten = false ∧ cold.regs.fault = 0#8 := by decide
theorem test_witness_HostAndDevicesMoveOneLine :
    (∀ m ∈ [Move.host .toggleCS, .host .toggleA1, .env .toggleIrq, .env .toggleReq, .host (.data none), .host (.data (some 0#8)),
      .host .ackRise, .host .ackFall], nextMove (nexts m demo) = m) ∧
    demo.regs.ctrl.ddir = false ∧ (driving demo).regs.ctrl.ddir = true ∧ demo.lines.ackH = false ∧
    { demo with lines.ackH := true }.lines.ackH = true := by decide
theorem test_witness_WaitCommandLines :
    (∀ p ∈ [Phase.l1, .l2a, .l2b, .l2c, .l2d, .l3, .l4], (at_ (.waitCommand 0x81#8) p).seq.phase = p) ∧
    strobe 0x81#8 (snapshot (strobed (hosted 0xE0#8))) = true ∧ strobe 0x81#8 (snapshot (strobed (hosted 0x20#8))) = false ∧
    busIdle demo = true ∧ busIdle { demo with lines.irqE := true } = false ∧ (strobed demo).lines.csH = true ∧
    demo.lines.csH = false := by decide
theorem test_witness_WaitCommandReturnsMembersOnly :
    seqNext .l4 (at_ (.waitCommand 0x01#8) .l4) = true ∧ running (at_ (.waitCommand 0x01#8) .l4) = some (.waitCommand 0x01#8) ∧
    Inv { at_ (.waitCommand 0x01#8) .l4 with regs.ctrl.jsusp := true, seq.cmd := 0x08#8 } := by
  refine ⟨by decide, by decide, ?_⟩
  refine Inv.of_line (.waitCommand 0x01#8) (by decide) rfl (by decide) (by decide) ?_ (fun _ => ⟨rfl, rfl, rfl, rfl⟩) (by decide)
    (by decide) (by decide) (by decide) (by decide) (.inl (by decide)) (by decide)
  refine ⟨by decide, by decide, by decide, by decide, by decide, by decide, (by intro _ _ h; cases h), ?_⟩
  intro mask h
  cases h
  decide
theorem test_witness_WaitCommandCapturesTheByte :
    let s := sess [0x30010000#32] [.seq, .seq, .seq, .seq, .host .toggleCS, .seq, .seq] (strobed (hosted 0x08#8))
    s.regs.fault = 0#8 ∧ s.seq.phase = .idle ∧ decode (s.prog.drop s.pc) = .ok (.waitCommand 0x01#8) ∧ s.regs.ctrl.init = true ∧
    s.regs.ctrl.ddir = false ∧ s.lines.dh = some 0x08#8 ∧ s.lines.csH = true ∧ s.lines.a1H = true ∧
    (0x01#8).getLsbD ((0x08#8).extractLsb' 5 3).toNat = true ∧ levelIRQ s = true ∧ levelREQ s = true ∧ levelACK s = true := by decide
/-- For `SendByteLines`, `SendBytesLines`, `ReadByteLines` and `ReadBytesLines`. -/
theorem test_witness_lines_of_interrupt_bytes :
    (∀ p ∈ [Phase.l1, .l2, .l3, .l4, .l5, .l6], (at_ (.sendByte 0#8) p).seq.phase = p ∧ (at_ .readByte p).seq.phase = p) ∧
    (∀ p ∈ [Phase.l1, .l2, .l3, .l4, .l5, .l6, .l7, .l8],
      (at_ (.sendBytes 0#32 1#32) p).seq.phase = p ∧ (at_ (.readBytes 0#32 1#32) p).seq.phase = p) ∧
    admitted demo.params (effAddr 0xFFFFFFFF#32 0) = true ∧ (at_ .readByte .l1 (driving demo)).regs.ctrl.ddir = true := by decide
theorem test_witness_SendByteDeliversTheByte :
    let s := sess [0x40C30000#32] [.seq, .seq, .seq, .seq, .host .toggleCS, .seq, .host .toggleCS, .seq, .seq]
    s.regs.fault = 0#8 ∧ s.seq.phase = .idle ∧ decode (s.prog.drop s.pc) = .ok (.sendByte 0xC3#8) ∧ s.regs.ctrl.init = true ∧
    s.lines.dh = none ∧ s.lines.csH = false := by decide
theorem test_witness_SendBytesDeliversTheBuffer :
    let s := sess [0x41000000#32, 0x200#32, 2#32] ([.seq, .seq] ++ (List.replicate 2 exchangeOut).flatten ++ [.seq])
    s.regs.fault = 0#8 ∧ s.seq.phase = .idle ∧ decode (s.prog.drop s.pc) = .ok (.sendBytes 0x200#32 2#32) ∧ s.regs.ctrl.init = true ∧
    s.lines.dh = none ∧ s.lines.csH = false ∧ (∀ k, k < (2#32).toNat → admitted s.params ((0x200#32).toNat + k) = true) := by decide
theorem test_witness_ReadByteReturnsTheByte :
    let s := sess [0x42000000#32] [.seq, .seq, .seq, .host .toggleCS, .seq, .host .toggleCS, .seq, .seq] (hosted 0x5A#8)
    s.regs.fault = 0#8 ∧ s.seq.phase = .idle ∧ decode (s.prog.drop s.pc) = .ok .readByte ∧ s.regs.ctrl.init = true ∧
    s.regs.ctrl.ddir = false ∧ s.lines.dh = some 0x5A#8 ∧ s.lines.csH = false := by decide
theorem test_witness_ReadBytesStoresTheBytes :
    let s := sess [0x43000000#32, 0x100#32, 2#32] ([.seq, .seq] ++ [1#8, 2#8].flatMap exchangeIn ++ [.seq, .seq])
    s.regs.fault = 0#8 ∧ s.seq.phase = .idle ∧ decode (s.prog.drop s.pc) = .ok (.readBytes 0x100#32 2#32) ∧ s.regs.ctrl.init = true ∧
    s.regs.ctrl.ddir = false ∧ s.lines.csH = false ∧ [1#8, 2#8].length = (2#32).toNat ∧
    (∀ k, k < (2#32).toNat → admitted s.params ((0x100#32).toNat + k) = true) := by decide

/-- For `ReadBlockLines` and `WriteBlockLines`. -/
theorem test_witness_lines_of_block_operations :
    (∀ p ∈ [Phase.l1, .l2, .l3, .l4, .l5, .l6, .l7],
      (at_ (.readBlock 0#32 1#32) p).seq.phase = p ∧ (at_ (.writeBlock 0#32 1#32) p).seq.phase = p) ∧
    ((strictAt 2#16).params.strict = true ∧ (strictAt 2#16).params.ovrT.toNat ≤ (strictAt 2#16).regs.cnt.toNat) ∧
    ¬ ((strictAt 1#16).params.ovrT.toNat ≤ (strictAt 1#16).regs.cnt.toNat) ∧ { demo with seq.idx := 1 }.seq.idx ≠ 0 ∧
    demo.regs.sample = .unwritten ∧ { demo with regs.sample := .holds 0#16 }.regs.sample = .holds 0#16 ∧
    { demo with ovr := true }.ovr = true ∧ demo.ovr = false := by decide
theorem test_witness_ReadBlockStoresTheBytes :
    let s := sess [0x50000000#32, 0x400#32, 1#32] ([.seq, .seq] ++ [9#8].flatMap slotIn ++ [.seq])
    Inv s ∧ s.regs.fault = 0#8 ∧ s.seq.phase = .idle ∧ decode (s.prog.drop s.pc) = .ok (.readBlock 0x400#32 1#32) ∧
    s.regs.ctrl.init = true ∧ s.regs.ctrl.ddir = false ∧ s.lines.ackH = false ∧ s.params.wf = true ∧ [9#8].length = (1#32).toNat ∧
    (∀ k, k < (1#32).toNat → admitted s.params ((0x400#32).toNat + k) = true) ∧
    s.sched = [.seq, .seq] ++ [9#8].flatMap slotIn ++ finalCheckMoves s.params (1#32).toNat ++ [.seq] ++ [] :=
  ⟨inv_sess _ _, by decide⟩
theorem test_witness_WriteBlockDeliversTheBuffer :
    let s := sess [0x51000000#32, 0x200#32, 2#32] ([.seq, .seq] ++ slotOut ++ slotOut ++ [.seq])
    Inv s ∧ s.regs.fault = 0#8 ∧ s.seq.phase = .idle ∧ decode (s.prog.drop s.pc) = .ok (.writeBlock 0x200#32 2#32) ∧
    s.regs.ctrl.init = true ∧ s.lines.dh = none ∧ s.lines.ackH = false ∧ s.params.wf = true ∧
    (∀ k, k < (2#32).toNat → admitted s.params ((0x200#32).toNat + k) = true) ∧
    s.sched = [.seq, .seq] ++ (List.replicate (2#32).toNat slotOut).flatten ++ finalCheckMoves s.params (2#32).toNat ++ [.seq] ++ [] :=
  ⟨inv_sess _ _, by decide⟩
theorem test_witness_DoubleAckAbortsStrictReadBlock :
    let s := slotState 0 0#16 .unwritten true
      [.host .ackFall, .host .ackRise, .host .ackFall, .host .ackRise, .seq, .seq, .seq, .seq]
    Inv s ∧ s.regs.fault = 0#8 ∧ running s = some (.readBlock 0x400#32 2#32) ∧ s.seq.phase = .l3 ∧ s.regs.cnt = 0#16 ∧
    s.params.strict = true ∧ s.params.ovrT = 2#16 ∧ s.seq.idx + 1 < (2#32).toNat ∧
    admitted s.params (effAddr 0x400#32 s.seq.idx) = true ∧ s.lines.dh = some 0x11#8 ∧ s.lines.ackH = false ∧ s.lines.reqE = false :=
  ⟨inv_slotState _ _ _ _ _ (by decide) (by decide), by decide⟩
theorem test_witness_MemoryAccessRules :
    (∀ i ∈ [(Instr.sendBytes 0x200#32 1#32, Phase.l3), (.readBytes 0x200#32 1#32, .l5), (.readBlock 0x200#32 1#32, .l4),
      (.writeBlock 0x200#32 1#32, .l2)],
      seqNext i.2 (at_ i.1 i.2 barred) = true ∧ (at_ i.1 i.2 barred).current = some i.1 ∧
      admitted (barred).params (effAddr 0x200#32 (at_ i.1 i.2 barred).seq.idx) = false) ∧
    admitted demo.params 0xFFFFFFFF = true ∧ admitted demo.params 0x100000000 = false := by decide
theorem test_witness_OnlyStoreLinesWriteMemory :
    after (step { at_ (.readBytes 0x300#32 1#32) .l5 with seq.v := 1#8 }) (fun t => t.mem.read 0x300) = some 1#8 ∧
    demo.mem.read 0x300 = 0#8 := by decide
theorem test_witness_WatchdogResetsAtWaitsOnly :
    (∀ i ∈ [(Instr.waitCommand 1#8, Phase.l2a), (.waitCommand 1#8, .l2c), (.waitCommand 1#8, .l3), (.sendByte 1#8, .l4), (.sendByte 1#8, .l5),
        (.readByte, .l3), (.readByte, .l4), (.sendBytes 0#32 1#32, .l5), (.sendBytes 0#32 1#32, .l6), (.readBytes 0#32 1#32, .l3),
        (.readBytes 0#32 1#32, .l4), (.readBytes 0#32 1#32, .l7), (.readBlock 0#32 1#32, .l3), (.writeBlock 0#32 1#32, .l4)],
      watchdogEnabled (at_ i.1 i.2) = true) ∧
    (∀ i ∈ [(Instr.sendBytes 0#32 1#32, Phase.l3), (.readBytes 0#32 1#32, .l5), (.readBlock 0#32 1#32, .l4), (.writeBlock 0#32 1#32, .l2)],
      watchdogEnabled (at_ i.1 i.2) = false ∧ watchdogEnabled (at_ i.1 i.2 barred) = true) := by decide
/-- For `StepKeepsTheInvariant`, `InvariantStatesStep`, `SampleIsNeverReadUnwritten`, `StepKeepsProgramAndParameters`, `LogOnlyGrows`,
`PcAndResChangeAtCompletionOrReset`, `DevmaskIsNeverRead` and `JsuspChangesNothingElse`. -/
theorem test_witness_StepKeepsTheInvariant :
    Inv (sess [0x42000000#32] []) ∧ after (step (sess [0x42000000#32] [])) (fun t => t.seq.phase) = some .l1 :=
  ⟨inv_sess _ _, by decide⟩
theorem test_witness_TransfersReleaseOnEveryExit :
    (∀ i ∈ [(Instr.sendByte 0#8, Phase.l6), (.readByte, .l5), (.sendBytes 0#32 0#32, .l8), (.readBytes 0#32 0#32, .l8),
        (.readBlock 0#32 0#32, .l6), (.readBlock 0#32 0#32, .l7), (.writeBlock 0#32 0#32, .l6), (.writeBlock 0#32 0#32, .l7)],
      running (at_ i.1 i.2) = some i.1 ∧ isGuarded i.1 = true ∧ after (exec i.1 (at_ i.1 i.2)) (fun t => t.seq.phase) = some .idle) := by
  decide
theorem test_witness_CsPulseBetweenPollsIsMissed :
    (∀ i ∈ [(Instr.sendByte 0#8, Phase.l4), (.sendBytes 0#32 1#32, .l5), (.readByte, .l3), (.readBytes 0#32 1#32, .l3)],
      running (at_ i.1 i.2) = some i.1 ∧ (at_ i.1 i.2).seq.phase = i.2 ∧ (at_ i.1 i.2).lines.csH = false ∧
      (at_ i.1 i.2).regs.fault = 0#8) := by decide
theorem test_witness_LaunchMeetsTheInvariant : Memory.wf [(0x200, 0xAA#8), (0x201, 0x55#8)] = true := by decide
theorem test_witness_BlockRequestsExactlyInOpenSlots :
    Inv (slotState 0 0#16 .unwritten false []) ∧ blockRequests (slotState 0 0#16 .unwritten false []) = true ∧
    Inv (slotState 1 1#16 (.holds 0#16) false []) ∧ blockRequests (slotState 1 1#16 (.holds 0#16) false []) = false :=
  ⟨inv_slotState _ _ _ _ _ (by decide) (by decide), by decide, inv_slotState _ _ _ _ _ (by decide) (by decide), by decide⟩
theorem test_witness_SlotTickCapturesAndReleasesReq :
    let s := slotState 0 0#16 .unwritten false [.host .ackFall]
    Inv s ∧ s.regs.fault = 0#8 ∧ slotWaiting s = true ∧ s.regs.cnt = 0#16 ∧ s.lines.reqE = false ∧ s.lines.ackH = false ∧
    nextMove s = .host .ackFall := ⟨inv_slotState _ _ _ _ _ (by decide) (by decide), by decide⟩
theorem test_witness_OneAckHostIsNeverAborted :
    let s := slotState 0 0#16 .unwritten true [.host .ackFall]
    Inv s ∧ s.params.wf = true ∧ (slotOpen s = true → s.regs.cnt.toNat ≤ 1) ∧ hOneAck s (nextMove s) ∧
    after (step s) (fun t => t.regs.cnt) = some 1#16 ∧
    hOneAck (slotState 1 1#16 (.holds 0#16) true []) .seq ∧ inside isBlock (slotState 1 1#16 (.holds 0#16) true []) = true :=
  ⟨inv_slotState _ _ _ _ _ (by decide) (by decide), by decide, by decide, fun _ => ⟨by decide, fun _ => rfl⟩, by decide,
    (by intro h; cases h), by decide⟩
theorem test_witness_NoDriveHostIsNeverContended :
    hNoDrive demo .seq ∧ hNoDrive demo (.host (.data (some 1#8))) ∧
    after (step (nexts (.host (.data (some 1#8))) demo)) (fun t => t.lines.dh) = some (some 1#8) :=
  ⟨⟨(by intro b h; cases h), fun _ _ => rfl⟩, ⟨fun _ _ => rfl, (by intro h; cases h)⟩, by decide⟩

/-! ## The host duties over a trace (49 R309): a host that keeps each, and hosts that break it -/

/-- The trace of a schedule from a session's program. -/
def runOf (prog : List Word) (sched : List Move) (s : State := demo) : Trace := trace sched.length (sess prog sched s)

/-- One `read_byte` with the host's byte first, then its CS cycle. -/
def goodRead : Trace :=
  runOf [0x42000000#32]
    [.seq, .seq, .seq, .host (.data (some 0x5A#8)), .host .toggleCS, .seq, .host .toggleCS, .seq, .seq, .host (.data none)]

theorem test_duty_read_byte_kept : hDataHold goodRead = true ∧ hCsCycle goodRead = true ∧ hCsSeen goodRead = true := by decide
/-- CS asserted undriven before IRQ is pulled; D changed after CS is released and before the sample. -/
theorem test_duty_data_hold_broken :
    hDataHold (runOf [0x42000000#32] [.seq, .host .toggleCS, .seq, .seq, .host (.data (some 1#8)), .seq, .host .toggleCS, .seq, .seq]) =
      false ∧
    hDataHold (runOf [0x42000000#32] [.seq, .seq, .seq, .host (.data (some 1#8)), .host .toggleCS, .seq, .host .toggleCS,
      .host (.data none), .seq, .seq]) = false := by decide
/-- The same byte driven again while it is held. -/
theorem test_duty_data_hold_redrive :
    hDataHold (runOf [0x42000000#32] [.seq, .seq, .seq, .host (.data (some 1#8)), .host .toggleCS, .seq, .host (.data (some 1#8)),
      .host .toggleCS, .seq, .seq]) = true := by decide
/-- At the first edge of a slot D must be driven, at a second it need not be. -/
theorem test_duty_data_before_ack :
    ¬ hDataBeforeAck (slotState 0 0#16 .unwritten true [] |> fun s => { s with lines.dh := none }) (.host .ackFall) ∧
    hDataBeforeAck (slotState 0 1#16 (.holds 0#16) true [] |> fun s => { s with lines.dh := none }) (.host .ackFall) :=
  ⟨fun h => h 0x400#32 2#32 (by decide) (by decide) (by decide) (by decide) rfl, fun _ _ _ _ h => absurd h (by decide)⟩
/-- A cycle after IRQ is pulled; one at line 8, where no byte is left; CS asserted in the operation before IRQ. -/
theorem test_duty_take_after_irq :
    hTakeAfterIrq (runOf [0x41000000#32, 0x200#32, 1#32] ([.seq, .seq] ++ exchangeOut ++ [.host .toggleCS, .seq])) = true ∧
    hTakeAfterIrq (runOf [0x41000000#32, 0x200#32, 1#32] [.seq, .seq, .seq, .host .toggleCS]) = false := by decide
/-- CS asserted while SEQ is idle: held into the poll of `send_byte`, which counts it (R220), and released before that poll. -/
theorem test_duty_take_held_from_idle :
    hTakeAfterIrq (runOf [0x40010000#32] [.host .toggleCS, .seq, .seq, .seq, .seq, .seq]) = false ∧
    hTakeAfterIrq (runOf [0x40010000#32] [.host .toggleCS, .seq, .seq, .seq, .seq, .host .toggleCS, .seq, .host .toggleCS, .seq]) = true := by
  decide
/-- CS changes after the last exchange of each multi-byte operation, which no IRQ assertion is left for. -/
theorem test_duty_cs_after_the_exchanges :
    hCsCycle (runOf [0x41000000#32, 0x200#32, 1#32] ([.seq, .seq] ++ exchangeOut ++ [.host .toggleCS, .seq])) = true ∧
    hCsCycle (runOf [0x43000000#32, 0x200#32, 1#32]
      ([.seq, .seq] ++ exchangeIn 1#8 ++ [.host .toggleCS, .seq, .host .toggleCS, .seq, .host .toggleCS, .seq])) = true := by decide
/-- A command whose CS is released, before `wait_command` has come to its line 3 or after; one that stays asserted at line 2b. -/
theorem test_duty_command_release :
    hCsCycle (runOf [0x30010000#32] [.host .toggleA1, .host .toggleCS, .seq, .host .toggleCS]) = true ∧
    hCsCycle (runOf [0x30010000#32] [.host .toggleA1, .host .toggleCS]) = false ∧
    hCsCycle [({ at_ (.waitCommand 1#8) .l2b with lines.csH := true }, .seq)] = false ∧
    hCsCycle [(at_ (.waitCommand 1#8) .l2d (strobed demo), .seq)] = false := by decide
/-- Two bytes of `send_bytes`, a cycle each. -/
theorem test_duty_cs_cycle_kept :
    hCsCycle (runOf [0x41000000#32, 0x200#32, 2#32] ([.seq, .seq] ++ exchangeOut ++ exchangeOut ++ [.seq])) = true := by decide
/-- A second cycle after a byte's own; a byte that is not answered; a `wait_command` whose host keeps CS asserted. -/
theorem test_duty_cs_cycle_broken :
    hCsCycle (runOf [0x41000000#32, 0x200#32, 2#32]
      ([.seq, .seq] ++ exchangeOut ++ [.host .toggleCS, .host .toggleCS] ++ exchangeOut ++ [.seq])) = false ∧
    hCsCycle (runOf [0x41000000#32, 0x200#32, 2#32] ([.seq, .seq] ++ exchangeOut ++ [.seq, .seq, .seq])) = false ∧
    hCsCycle [({ at_ (.waitCommand 1#8) .l3 with lines.csH := true }, .seq)] = false := by decide
/-- A CS pulse between two polls. -/
theorem test_duty_cs_seen_broken :
    hCsSeen (runOf [0x42000000#32] [.seq, .seq, .seq, .host .toggleCS, .host .toggleCS, .seq]) = false := by decide
/-- An edge in each slot; none in the second; a double acknowledge whose abort opens no further slot; a slot that the watchdog ends. -/
theorem test_duty_ack_answers :
    hAckAnswers (runOf [0x50000000#32, 0x400#32, 2#32] ([.seq, .seq] ++ slotIn 1#8 ++ slotIn 2#8 ++ [.seq])) = true ∧
    hAckAnswers (runOf [0x50000000#32, 0x400#32, 2#32] ([.seq, .seq] ++ slotIn 1#8 ++ [.seq, .seq])) = false ∧
    hAckAnswers (runOf [0x50000000#32, 0x400#32, 2#32]
      [.seq, .seq, .seq, .host (.data (some 1#8)), .host .ackFall, .host .ackRise, .host .ackFall, .host .ackRise, .seq, .seq, .seq, .seq]
      { demo with params.strict := true }) = true ∧
    hAckAnswers (runOf [0x50000000#32, 0x400#32, 2#32] [.seq, .seq, .seq, .seq, .wdog]) = true := by decide

end Sys2Proof.Tests
end

section
/-! PROOF. What an outcome says about the state it gives: one rule for each way in which a meaning ends. -/

namespace Sys2Proof.Machine

/-- The outcome is a next state with the property, or it stops the machine and `stop` holds: with `stop` true, every next state has
the property; with `stop` false, there is a next state as well. -/
def Ends (P : State → Prop) (stop : Prop) : Out → Prop
  | .next t => P t
  | .fault _ => stop
  | .refused _ => stop

section
variable {P : State → Prop} {stop : Prop}

@[simp] theorem ends_next {t : State} : Ends P stop (.next t) ↔ P t := Iff.rfl

@[simp] theorem ends_fault {r : Fault} : Ends P stop (.fault r) ↔ stop := Iff.rfl

@[simp] theorem ends_raise {c : FaultCode} {s : State} : Ends P stop (raise c s) ↔ P { s with regs.fault := c.code } := Iff.rfl

@[simp] theorem ends_waitUntil {c : Bool} {act still : State} :
    Ends P stop (waitUntil c act still) ↔ (c = true → P act) ∧ (c = false → P still) := by
  cases c <;> simp [waitUntil]

@[simp] theorem ends_ite {c : Prop} [Decidable c] {o o' : Out} :
    Ends P stop (if c then o else o') ↔ (c → Ends P stop o) ∧ (¬ c → Ends P stop o') := by
  split <;> simp_all

theorem Ends.of_next {o : Out} {t : State} (h : Ends P stop o) (ht : o = .next t) : P t := by
  subst ht
  exact h

theorem Ends.exists_next {o : Out} (h : Ends P False o) : ∃ t, o = .next t ∧ P t := by
  cases o with
  | next t => exact ⟨t, rfl, h⟩
  | fault r => exact h.elim
  | refused r => exact h.elim

end

end Sys2Proof.Machine
end

section
/-! PROOF. What any step does to the program, the parameters, `S.PC`, `RES` and the log. -/

namespace Sys2Proof.Machine

/-- The program, the parameters, `S.PC` and `RES` are as before, and the log has the events appended. -/
def Logs (es : List Event) (s t : State) : Prop :=
  t.prog = s.prog ∧ t.params = s.params ∧ t.pc = s.pc ∧ t.regs.res = s.regs.res ∧ t.log = s.log ++ es

/-- The operation completes (30 R109): `S.PC` advances by its length, `Done` is logged with the new `RES`, SEQ goes idle. -/
def Completes (i : Instr) (s t : State) : Prop :=
  t.prog = s.prog ∧ t.params = s.params ∧ t.pc = s.pc + i.words ∧ t.seq.phase = .idle ∧
  t.log = s.log ++ [.done s.pc i.opcode t.regs.res]

/-- A step of an operation logs nothing, or completes the operation at one of its lines. -/
def SeqEffect (i : Instr) (s t : State) : Prop := Logs [] s t ∨ s.seq.phase ≠ .idle ∧ Completes i s t

/-- A step of an agent other than a completion or a reset logs at most two events. -/
def LogsFew (s t : State) : Prop := ∃ es : List Event, es.length ≤ 2 ∧ Logs es s t

/-! ## SEQ -/

@[simp] theorem slotReset_logs (pa po : Phase) (s : State) : Logs [] s (slotReset pa po s) := by
  rcases slotReset_cases pa po s with ⟨-, -, he⟩ | ⟨-, he⟩ <;> simp [he, Logs]

@[simp] theorem storeSample_effect (i : Instr) (buf count : Word) (s : State) :
    Ends (SeqEffect i s) True (storeSample buf count s) := by
  unfold storeSample
  split <;> simp [SeqEffect, Logs]

/-- Line by line: only `complete`, which ends a last line, writes `S.PC`, `RES` or the log. -/
theorem exec_effect (i : Instr) (s : State) : Ends (SeqEffect i s) True (exec i s) := by
  have reset (pa po : Phase) : SeqEffect i s (slotReset pa po s) := .inl (slotReset_logs pa po s)
  cases i <;> simp only [exec, execBeginOp, execEndOp, execReadStrobe, execReadAck, execIsIdle, execDriveData, execReleaseData,
    execAcquireData, execPullIrq, execReleaseIrq, execWaitCommand, execSendByte, execSendBytes, execReadByte, execReadBytes,
    execReadBlock, execWriteBlock, issueBegin, issue] <;> split <;>
    simp only [ends_next, ends_fault, ends_raise, ends_ite, ends_waitUntil, storeSample_effect, reset] <;>
    simp [SeqEffect, Logs, Completes, State.finish, arrivePoll, beginSetup, endTeardown, *]

/-! ## The other agents -/

theorem Logs.few {s t : State} {es : List Event} (h : Logs es s t) (hn : es.length ≤ 2 := by simp) : LogsFew s t := ⟨es, hn, h⟩

/-- A host move logs its event, and the ACK falling edge its tick too. -/
theorem hostMove_logsFew (m : HostMove) (s : State) : Ends (LogsFew s) True (hostMove m s) := by
  have event (e : Event) (l : Lines) (n : Nat) : LogsFew s { s with lines := l, log := s.log ++ [e], draws := n } :=
    Logs.few (es := [e]) ⟨rfl, rfl, rfl, rfl, rfl⟩
  have same : LogsFew s s := Logs.few (es := []) (by simp [Logs])
  have raised (c : FaultCode) : LogsFew s { s with regs.fault := c.code } := Logs.few (es := []) (by simp [Logs])
  cases m with
  | toggleCS => exact event _ _ _
  | toggleA1 => exact event _ _ _
  | ackFall =>
    simp only [hostMove, ackFalls, ends_ite, ends_next, ends_raise]
    refine ⟨fun _ => same, fun _ => ⟨fun _ => ⟨fun _ => raised _, fun _ => ?_⟩, fun _ => event _ _ _⟩⟩
    exact Logs.few (es := [_, _]) ⟨rfl, rfl, rfl, rfl, List.append_assoc _ _ _⟩
  | ackRise =>
    simp only [hostMove, ends_ite, ends_next]
    exact ⟨fun _ => event _ _ _, fun _ => same⟩
  | data drive =>
    simp only [hostMove, ends_ite, ends_next, ends_raise]
    exact ⟨fun _ => raised _, fun _ => event _ _ _⟩

theorem envMove_logsFew (m : EnvMove) (s : State) : Ends (LogsFew s) True (envMove m s) := by
  cases m <;> exact Logs.few (es := [_]) ⟨rfl, rfl, rfl, rfl, rfl⟩

/-! ## One step -/

/-- A step logs at most two events and keeps the rest, or completes the running operation, or is the watchdog's reset. -/
theorem step_effect {s t : State} (h : step s = .next t) :
    LogsFew s t ∨ (nextMove s = .seq ∧ ∃ i, running s = some i ∧ Completes i s t) ∨
    (nextMove s = .wdog ∧ t = blockReset .watchdog s.popped) := by
  have raised (c : FaultCode) (hr : raise c s.popped = .next t) : LogsFew s t := by
    cases hr
    exact Logs.few (es := []) (by simp [Logs])
  have same (ht : t = s.popped) : LogsFew s t := by
    subst ht
    exact Logs.few (es := []) (by simp [Logs])
  obtain ⟨-, ⟨hm, hs⟩ | ⟨m, -, hs⟩ | ⟨m, -, hs⟩ | ⟨hm, hs⟩⟩ := step_cases h
  · rcases seqStep_cases hs with ⟨hp, -, i, -, he⟩ | ⟨-, -, -, hr⟩ | ⟨-, -, -, hr⟩ | ⟨-, -, -, hr⟩ | ⟨-, -, ht⟩ |
      ⟨hp, i, hc, he⟩
    · rcases (exec_effect i _).of_next he with hl | ⟨hne, -⟩
      · exact .inl (Logs.few hl)
      · exact absurd hp hne
    · exact .inl (raised _ hr)
    · exact .inl (raised _ hr)
    · exact .inl (raised _ hr)
    · exact .inl (same ht)
    · rcases (exec_effect i _).of_next he with hl | ⟨-, hd⟩
      · exact .inl (Logs.few hl)
      · exact .inr (.inl ⟨hm, i, running_iff.mpr ⟨hp, hc⟩, hd⟩)
  · have hl : LogsFew s.popped t := (hostMove_logsFew m s.popped).of_next hs
    exact .inl hl
  · have hl : LogsFew s.popped t := (envMove_logsFew m s.popped).of_next hs
    exact .inl hl
  · unfold watchdogMove at hs
    split at hs
    · cases hs
      exact .inr (.inr ⟨hm, rfl⟩)
    · exact .inl (same (Host.Outcome.next.inj hs).symm)

/-- Settles O44, by the cases of a step. -/
theorem stepKeepsProgramAndParameters : Obligations.StepKeepsProgramAndParameters := by
  intro s t h
  rcases step_effect h with ⟨es, -, hprog, hparams, -⟩ | ⟨-, i, -, hprog, hparams, -⟩ | ⟨-, rfl⟩
  · exact ⟨hprog, hparams⟩
  · exact ⟨hprog, hparams⟩
  · exact ⟨rfl, rfl⟩

/-- Settles O45: a completion and a reset log one event, any other step at most two. -/
theorem logOnlyGrows : Obligations.LogOnlyGrows := by
  intro s t h
  rcases step_effect h with ⟨es, hn, -, -, -, -, hlog⟩ | ⟨-, i, -, -, -, -, -, hlog⟩ | ⟨-, rfl⟩
  · exact ⟨es, hn, hlog⟩
  · exact ⟨_, by simp, hlog⟩
  · exact ⟨[.reset .watchdog], by simp, rfl⟩

/-- Settles O46, which is the cases of a step without the program and the parameters. -/
theorem pcAndResChangeAtCompletionOrReset : Obligations.PcAndResChangeAtCompletionOrReset := by
  intro s t h
  rcases step_effect h with ⟨es, -, -, -, hpc, hres, -⟩ | ⟨hm, i, hr, -, -, hpc, hidle, hlog⟩ | ⟨hm, rfl⟩
  · exact .inl ⟨hpc, hres⟩
  · exact .inr (.inl ⟨hm, hidle, i, hr, hpc, hlog⟩)
  · exact .inr (.inr ⟨hm, rfl, rfl, rfl⟩)

end Sys2Proof.Machine
end

section
/-! PROOF. No step reads `DEVMASK` (10_state R25): every meaning gives the same outcome, up to `DEVMASK`, on a state and on the state
with `DEVMASK` forgotten. Each proof brings the two outcomes to the same tree of tests, whose leaves then agree by computation. -/

namespace Sys2Proof.Machine

/-- The outcome with its next state seen through `f`. -/
def Out.seen (f : State → State) : Out → Out
  | .next t => .next (f t)
  | .fault r => .fault r
  | .refused r => .refused r

section
variable (f : State → State)

theorem seen_next (t : State) : Out.seen f (.next t) = .next (f t) := rfl

theorem seen_fault (r : Fault) : Out.seen f (.fault r) = .fault r := rfl

theorem seen_raise (c : FaultCode) (s : State) : Out.seen f (raise c s) = .next (f { s with regs.fault := c.code }) := rfl

theorem seen_ite (c : Prop) [Decidable c] (o o' : Out) :
    Out.seen f (if c then o else o') = if c then Out.seen f o else Out.seen f o' := by
  split <;> rfl

theorem seen_waitUntil (c : Bool) (act still : State) :
    Out.seen f (waitUntil c act still) = if c then .next (f act) else .next (f still) := by
  cases c <;> rfl

/-- An outcome that looks like a next state is a next state. -/
theorem exists_next_of_seen {o : Out} {t : State} (h : Out.seen f o = .next t) : ∃ t', o = .next t' ∧ f t' = t := by
  cases o with
  | next t' => exact ⟨t', rfl, Host.Outcome.next.inj h⟩
  | fault r => cases h
  | refused r => cases h

end

/-- The state with `DEVMASK` forgotten. -/
def State.sansDevmask (s : State) : State := { s with regs.devmask := .unwritten }

theorem slotReset_sansDevmask (pa po : Phase) (s : State) :
    (slotReset pa po s.sansDevmask).sansDevmask = (slotReset pa po s).sansDevmask := by
  simp only [slotReset, apply_ite State.sansDevmask]
  rfl

theorem storeSample_sansDevmask (buf count : Word) (s : State) :
    Out.seen .sansDevmask (storeSample buf count s.sansDevmask) = Out.seen .sansDevmask (storeSample buf count s) := by
  have hs : s.sansDevmask.regs.sample = s.regs.sample := rfl
  simp only [storeSample, hs]
  split
  · rfl
  · simp only [seen_ite, seen_next]
    rfl

theorem exec_sansDevmask (i : Instr) (s : State) :
    Out.seen .sansDevmask (exec i s.sansDevmask) = Out.seen .sansDevmask (exec i s) := by
  have hp : s.sansDevmask.seq.phase = s.seq.phase := rfl
  cases i <;> simp only [exec, execBeginOp, execEndOp, execReadStrobe, execReadAck, execIsIdle, execDriveData, execReleaseData,
    execAcquireData, execPullIrq, execReleaseIrq, execWaitCommand, execSendByte, execSendBytes, execReadByte, execReadBytes,
    execReadBlock, execWriteBlock, issueBegin, issue, hp] <;> split <;>
    simp only [seen_next, seen_fault, seen_raise, seen_ite, seen_waitUntil, slotReset_sansDevmask, storeSample_sansDevmask] <;> rfl

theorem seqStep_sansDevmask (s : State) :
    Out.seen .sansDevmask (seqStep s.sansDevmask) = Out.seen .sansDevmask (seqStep s) := by
  have hp : s.sansDevmask.seq.phase = s.seq.phase := rfl
  have hpc : s.sansDevmask.pc = s.pc := rfl
  have hprog : s.sansDevmask.prog = s.prog := rfl
  have hf : fetch s.sansDevmask = fetch s := rfl
  have hc : s.sansDevmask.current = s.current := rfl
  simp only [seqStep, issueStep, lineStep, hp, hpc, hprog, hf, hc]
  split
  · split
    · split
      · exact exec_sansDevmask _ s
      all_goals rfl
    · rfl
  · split
    · exact exec_sansDevmask _ s
    · rfl

theorem hostMove_sansDevmask (m : HostMove) (s : State) :
    Out.seen .sansDevmask (hostMove m s.sansDevmask) = Out.seen .sansDevmask (hostMove m s) := by
  cases m <;> simp only [hostMove, ackFalls, seen_next, seen_raise, seen_ite] <;> rfl

theorem envMove_sansDevmask (m : EnvMove) (s : State) :
    Out.seen .sansDevmask (envMove m s.sansDevmask) = Out.seen .sansDevmask (envMove m s) := by
  cases m <;> rfl

theorem watchdogMove_sansDevmask (s : State) :
    Out.seen .sansDevmask (watchdogMove s.sansDevmask) = Out.seen .sansDevmask (watchdogMove s) := by
  simp only [watchdogMove, seen_ite, seen_next]
  rfl

theorem step_sansDevmask (s : State) : Out.seen .sansDevmask (step s.sansDevmask) = Out.seen .sansDevmask (step s) := by
  have hm : nextMove s.sansDevmask = nextMove s := rfl
  have hp : s.sansDevmask.popped = s.popped.sansDevmask := rfl
  have hf : s.sansDevmask.regs.fault = s.regs.fault := rfl
  simp only [step, hm, hp, hf]
  split
  · rfl
  · cases nextMove s with
    | seq => exact seqStep_sansDevmask _
    | host m => exact hostMove_sansDevmask m _
    | env m => exact envMove_sansDevmask m _
    | wdog => exact watchdogMove_sansDevmask _

/-- Settles O48: both steps are, up to `DEVMASK`, the step of the state with `DEVMASK` forgotten. -/
theorem devmaskIsNeverRead : Obligations.DevmaskIsNeverRead := by
  intro s t m ht
  have hsame : Out.seen .sansDevmask (step { s with regs.devmask := m }) = Out.seen .sansDevmask (step s) :=
    (step_sansDevmask { s with regs.devmask := m }).symm.trans (step_sansDevmask s)
  rw [ht, seen_next] at hsame
  exact exists_next_of_seen _ hsame

end Sys2Proof.Machine
end

section
/-! PROOF. The levels of the bus, SEQ's dispatch and the power-on state. -/

namespace Sys2Proof.Machine

/-- Settles O13, line by line. -/
theorem controlLineLevels : Obligations.ControlLineLevels := by
  intro s
  refine ⟨?_, ?_, ?_, ?_, ?_⟩
  · simp [levelCS]
  · simp [levelA1]
  · simp [levelACK]
  · simp [levelIRQ, or_iff_not_imp_left]
  · simp [levelREQ, blockRequests, or_iff_not_imp_left]

/-- Settles O14: the two driven cases, and the port's high half. -/
theorem dataBusLevel : Obligations.DataBusLevel := by
  intro s b
  refine ⟨fun hd hh ho => ?_, fun hd hh => ?_, sampleByte_portIn s⟩
  · simp [levelD, dataDriven, hd, hh, ho]
  · simp [levelD, dataDriven, hd, hh]

/-- SEQ decodes an operation only from a word of `PROG`. -/
theorem pc_lt_of_decode {s : State} {i : Instr} (h : decode (s.prog.drop s.pc) = .ok i) : s.pc < s.prog.length := by
  have hw := decode_words h
  have hpos := i.words_pos
  rw [List.length_drop] at hw
  omega

/-- SEQ at a line of the latched operation. -/
theorem seqStep_line {s : State} {i : Instr} (hp : s.seq.phase ≠ .idle) (hc : s.current = some i) : seqStep s = exec i s := by
  simp [seqStep, hp, lineStep, hc]

/-- SEQ idle at a decoded operation. -/
theorem seqStep_issue {s : State} {i : Instr} (hp : s.seq.phase = .idle) (hd : decode (s.prog.drop s.pc) = .ok i) :
    seqStep s = exec i s := by
  simp [seqStep, hp, issueStep, pc_lt_of_decode hd, fetch, hd]

/-- Settles O7: SEQ's dispatch when idle and at a line. -/
theorem stepRunsTheDecodedOperation : Obligations.StepRunsTheDecodedOperation := by
  refine ⟨fun s i hf hm hp hd => ?_, fun s i hf hm hp hc => ?_⟩
  · rw [step_eq s hf, hm]
    exact seqStep_issue hp hd
  · rw [step_eq s hf, hm]
    exact seqStep_line hp hc

/-- Settles O42, by evaluation of the one state it speaks of. -/
theorem powerOnState : Obligations.PowerOnState := by
  refine ⟨?_, rfl, ?_, ?_, rfl, rfl, rfl, rfl, rfl, rfl, rfl, rfl, rfl, rfl, rfl⟩
  · show Ctrl.reset.word = 0#32
    decide
  · show Tcfg.reset.word = 0#8
    decide
  · show Dcfg.reset.word = 0#16
    decide

end Sys2Proof.Machine
end

section
/-! PROOF. The lines of each operation as a list of cases, where the tests made on arrival lead, and the status of a result. -/

namespace Sys2Proof.Machine

theorem hasLine_idle (i : Instr) : hasLine i .idle = false := by cases i <;> rfl

theorem hasLine_waitCommand {mask : Byte} {p : Phase} (h : hasLine (.waitCommand mask) p = true) :
    p = .l1 ∨ p = .l2a ∨ p = .l2b ∨ p = .l2c ∨ p = .l2d ∨ p = .l3 ∨ p = .l4 := by
  simpa [hasLine] using h

theorem hasLine_sendByte {b : Byte} {p : Phase} (h : hasLine (.sendByte b) p = true) :
    p = .l1 ∨ p = .l2 ∨ p = .l3 ∨ p = .l4 ∨ p = .l5 ∨ p = .l6 := by
  simpa [hasLine] using h

theorem hasLine_sendBytes {buf count : Word} {p : Phase} (h : hasLine (.sendBytes buf count) p = true) :
    p = .l1 ∨ p = .l2 ∨ p = .l3 ∨ p = .l4 ∨ p = .l5 ∨ p = .l6 ∨ p = .l7 ∨ p = .l8 := by
  simpa [hasLine] using h

theorem hasLine_readByte {p : Phase} (h : hasLine .readByte p = true) :
    p = .l1 ∨ p = .l2 ∨ p = .l3 ∨ p = .l4 ∨ p = .l5 := by
  simpa [hasLine] using h

theorem hasLine_readBytes {buf count : Word} {p : Phase} (h : hasLine (.readBytes buf count) p = true) :
    p = .l1 ∨ p = .l2 ∨ p = .l3 ∨ p = .l4 ∨ p = .l5 ∨ p = .l6 ∨ p = .l7 ∨ p = .l8 := by
  simpa [hasLine] using h

theorem hasLine_readBlock {buf count : Word} {p : Phase} (h : hasLine (.readBlock buf count) p = true) :
    p = .l1 ∨ p = .l2 ∨ p = .l3 ∨ p = .l4 ∨ p = .l5 ∨ p = .l6 ∨ p = .l7 := by
  simpa [hasLine] using h

theorem hasLine_writeBlock {buf count : Word} {p : Phase} (h : hasLine (.writeBlock buf count) p = true) :
    p = .l1 ∨ p = .l2 ∨ p = .l3 ∨ p = .l4 ∨ p = .l5 ∨ p = .l6 ∨ p = .l7 := by
  simpa [hasLine] using h

/-- The operations without a guard have one line. -/
theorem hasLine_unguarded {i : Instr} {p : Phase} (hg : isGuarded i = false) (h : hasLine i p = true) : p = .l1 := by
  cases i <;> simp_all [isGuarded, hasLine]

theorem isBegin_of_guarded {i : Instr} (hg : isGuarded i = true) : isBegin i = false := by
  cases i <;> simp_all [isGuarded, isBegin]

theorem slotLine_l1 (i : Instr) : slotLine i .l1 = false := by cases i <;> rfl

/-- The arrival at the next byte goes to line 2, and to the line after the loop once all bytes are done. -/
theorem arriveByte_cases (count : Word) (done : Phase) (s : State) :
    (s.seq.idx = count.toNat ∧ s.arriveByte count done = s.goto done) ∨
    (s.seq.idx ≠ count.toNat ∧ s.arriveByte count done = s.goto .l2) := by
  unfold State.arriveByte
  split <;> simp_all

/-- The arrival at the next slot goes to line 2, and to `FinalCheck` or the normal exit once all bytes are done. -/
theorem arriveSlot_cases (count : Word) (s : State) :
    (s.seq.idx = count.toNat ∧ count.toNat ≠ 0 ∧ s.arriveSlot count = s.goto .l5) ∨
    (s.seq.idx = count.toNat ∧ s.arriveSlot count = s.goto .l6) ∨
    (s.seq.idx ≠ count.toNat ∧ s.arriveSlot count = s.goto .l2) := by
  unfold State.arriveSlot
  split_ifs <;> simp_all

/-- The line that a block operation arrives at suits its index. -/
theorem arriveSlot_line {i : Instr} {buf count : Word} (hi : i = .readBlock buf count ∨ i = .writeBlock buf count) {t : State}
    (hidx : t.seq.idx ≤ count.toNat) :
    ∃ p, t.arriveSlot count = t.goto p ∧ (p = .l2 ∨ p = .l5 ∨ p = .l6) ∧ hasLine i p = true ∧ indexOk i p t.seq.idx = true := by
  rcases arriveSlot_cases count t with ⟨hn, h0, he⟩ | ⟨hn, he⟩ | ⟨hn, he⟩
  · exact ⟨.l5, he, by simp, by rcases hi with rfl | rfl <;> rfl, by rcases hi with rfl | rfl <;> simp [indexOk, hn, h0]⟩
  · exact ⟨.l6, he, by simp, by rcases hi with rfl | rfl <;> rfl, by rcases hi with rfl | rfl <;> simp [indexOk, hn]⟩
  · have hlt := Nat.lt_of_le_of_ne hidx hn
    exact ⟨.l2, he, by simp, by rcases hi with rfl | rfl <;> rfl, by rcases hi with rfl | rfl <;> simp [indexOk, hlt]⟩

/-- The high byte of a packed result is its status (R27). -/
@[simp] theorem status_packRes (st v : Byte) : (packRes st v).extractLsb' 8 8 = st := by
  apply BitVec.eq_of_getLsbD_eq
  intro k hk
  rw [packRes, BitVec.getLsbD_extractLsb', BitVec.getLsbD_append]
  simp [hk]

/-- A strobe names a member of the mask (43 R203). -/
theorem maskHas_of_strobe {mask : Byte} {r : Snapshot} (h : strobe mask r = true) : maskHas mask (deviceId r.d) = true :=
  ((strobe_iff mask r).mp h).2.2

end Sys2Proof.Machine
end

section
/-! PROOF. One rule for each thing that a line of a running operation can do to the invariant: put the guards up, go on, pass,
complete, finish. -/

namespace Sys2Proof.Machine

/-- SEQ is at a line of the operation, in a state that meets the invariant. -/
structure RunsAt (i : Instr) (s : State) : Prop where
  inv : Inv s
  current : s.current = some i
  running : Running i s

/-- The states agree on what no line but those of `begin` and `end` writes before its completion. -/
structure SameSession (s t : State) : Prop where
  current : t.current = s.current := by rfl
  prog : t.prog = s.prog := by rfl
  pc : t.pc = s.pc := by rfl
  lines : t.lines = s.lines := by rfl
  init : t.regs.ctrl.init = s.regs.ctrl.init := by rfl
  tcfg : t.regs.tcfg = s.regs.tcfg := by rfl
  dcfg : t.regs.dcfg = s.regs.dcfg := by rfl
  ccrReq : t.regs.ccrReq = s.regs.ccrReq := by rfl
  ccrTrig : t.regs.ccrTrig = s.regs.ccrTrig := by rfl
  sample : t.regs.sample = s.regs.sample := by rfl
  res : t.regs.res = s.regs.res := by rfl
  fault : t.regs.fault = s.regs.fault := by rfl

/-- What a guarded operation holds past line 1 (41 R140, 45 R261). -/
structure Guarded (i : Instr) (t : State) : Prop where
  guarded : isGuarded i = true := by rfl
  reqMode : t.regs.ctrl.reqMode = isBlock i
  jsusp : t.regs.ctrl.jsusp = true
  saved : t.seq.savedJsusp = false

/-- What the invariant asks of a step from `s` to a later line of the operation, in `t`. The defaults fit a line that writes neither
memory nor the counter, of an operation without an index, a bus direction, a capture or a filter: a use names the rest. -/
structure Arrives (i : Instr) (s t : State) : Prop where
  line : hasLine i t.seq.phase = true := by rfl
  past : t.seq.phase ≠ .l1 := by nofun
  index : indexOk i t.seq.phase t.seq.idx = true := by rfl
  sampling : isSampling i = true → t.regs.ctrl.ddir = false := by nofun
  driving : drivesAt i t.seq.phase = true → t.regs.ctrl.ddir = true := by nofun
  oneDriver : (s.regs.ctrl.ddir = true → s.lines.dh = none) → t.regs.ctrl.ddir = true → t.lines.dh = none := by exact id
  memory : s.mem.wf = true → t.mem.wf = true := by exact id
  counter : (s.regs.cnt = 0#16 → slotLine i s.seq.phase = true) → t.regs.cnt = 0#16 → slotLine i t.seq.phase = true := by
    exact id
  captured : ∀ buf count, i = .readBlock buf count →
    (t.seq.phase = .l4 ∨ t.seq.phase = .l3 ∧ t.regs.cnt ≠ 0#16) → t.regs.sample ≠ .unwritten := by nofun
  member : ∀ mask, i = .waitCommand mask →
    (t.seq.phase = .l2b → strobe mask t.seq.snap = true) ∧
    (t.seq.phase = .l3 ∨ t.seq.phase = .l4 → maskHas mask (deviceId t.seq.cmd) = true) := by nofun

namespace RunsAt

variable {i : Instr} {s t u : State} {p : Phase}

/-! ## What is known at a line -/

theorem phase_ne_idle (w : RunsAt i s) : s.seq.phase ≠ .idle := by
  intro h
  have hl := w.running.line
  rw [h, hasLine_idle] at hl
  cases hl

theorem inside_eq (w : RunsAt i s) (c : Instr → Bool) : inside c s = (c i && s.seq.phase != .l1) :=
  inside_line w.phase_ne_idle w.current

/-- Past line 1 the guards are up. -/
theorem guarded (w : RunsAt i s) (hp : s.seq.phase = p) (hl : p ≠ .l1 := by nofun) (hg : isGuarded i = true := by rfl) :
    Guarded i s where
  guarded := hg
  reqMode := by simp [w.inv.reqMode, w.inside_eq, hp, hl]
  jsusp := by simp [w.inv.jsusp, w.inside_eq, hp, hl, hg]
  saved := w.inv.saved (by simp [w.inside_eq, hp, hl, hg])

/-- At line 1 they are not up yet. -/
theorem unguarded (w : RunsAt i s) (hp : s.seq.phase = .l1) : s.regs.ctrl.reqMode = false ∧ s.regs.ctrl.jsusp = false := by
  simp [w.inv.reqMode, w.inv.jsusp, w.inside_eq, hp]

/-- In a session a count of 0 is found at a slot's wait only. -/
theorem counter (w : RunsAt i s) (hb : isBegin i = false) : s.regs.cnt = 0#16 → slotLine i s.seq.phase = true := by
  have hwait := w.inv.counter (by simp [w.running.session, hb])
  rwa [slotWaiting_line w.phase_ne_idle w.current] at hwait

/-- The counter is not 0 at a line that is not a slot's wait. -/
theorem cnt_ne_zero (w : RunsAt i s) (hp : s.seq.phase = p) (hb : isBegin i = false := by rfl)
    (hw : slotLine i p = false := by rfl) : s.regs.cnt ≠ 0#16 := by
  intro h0
  have hwait := w.counter hb h0
  rw [hp, hw] at hwait
  cases hwait

/-- The byte index at a line. -/
theorem index (w : RunsAt i s) (hp : s.seq.phase = p) : indexOk i p s.seq.idx = true := hp ▸ w.running.index

/-- A driving operation drives D between its acquire and its release. -/
theorem drives (w : RunsAt i s) (hp : s.seq.phase = p) (hd : drivesAt i p = true := by rfl) : s.regs.ctrl.ddir = true :=
  w.running.driving (hp ▸ hd)

/-- A sampling operation past line 1 does not drive D. -/
theorem samples (w : RunsAt i s) (hp : s.seq.phase = p) (hl : p ≠ .l1 := by nofun) (hs : isSampling i = true := by rfl) :
    s.regs.ctrl.ddir = false :=
  w.running.sampling hs (hp ▸ hl)

/-! ## What a line passes on to the next -/

/-- The byte index, to a line that asks the same of it. -/
theorem sameIndex {q : Phase} (w : RunsAt i s) (hp : s.seq.phase = p)
    (hq : indexOk i q s.seq.idx = indexOk i p s.seq.idx := by rfl) : indexOk i q s.seq.idx = true :=
  hq.trans (w.index hp)

/-- A count that is not 0. -/
theorem sameCount {before after : Prop} (w : RunsAt i s) (hp : s.seq.phase = p) (hb : isBegin i = false := by rfl)
    (hw : slotLine i p = false := by rfl) : before → s.regs.cnt = 0#16 → after :=
  fun _ h0 => absurd h0 (w.cnt_ne_zero hp hb hw)

/-! ## The rules -/

/-- A step to a later line of the operation keeps the invariant. -/
theorem arrive (w : RunsAt i s) (k : SameSession s t) (g : Guarded i t) (a : Arrives i s t) : Inv t := by
  have hne : t.seq.phase ≠ .idle := fun h => by simpa [h, hasLine_idle] using a.line
  refine Inv.of_line i hne (k.current.trans w.current) (a.memory w.inv.memory) (a.oneDriver w.inv.oneDriver) ?_ ?_ ?_ ?_ ?_ ?_ ?_
    ?_ ?_
  · exact {
      line := a.line
      fits := by simpa [k.pc, k.prog] using w.running.fits
      session := k.init.trans w.running.session
      index := a.index
      sampling := fun hs _ => a.sampling hs
      driving := a.driving
      captured := a.captured
      member := a.member }
  · simpa [k.init, k.ccrReq, k.ccrTrig, k.tcfg, k.dcfg] using w.inv.configured
  · simpa [k.init, k.tcfg, k.dcfg] using w.inv.stopped
  · exact fun _ => a.counter (w.counter (isBegin_of_guarded g.guarded))
  · simp [g.reqMode, a.past]
  · simp [g.jsusp, g.guarded, a.past]
  · exact fun _ => g.saved
  · simpa [k.res] using w.inv.status
  · simpa [k.fault] using w.inv.faultCode

/-- Line 1 of a guarded operation puts the guards up. -/
theorem enter (w : RunsAt i s) (hp : s.seq.phase = .l1) (a : Arrives i s t)
    (reqMode : s.regs.ctrl.reqMode = false → t.regs.ctrl.reqMode = isBlock i := by exact id)
    (k : SameSession s t := by exact {}) (hg : isGuarded i = true := by rfl) (jsusp : t.regs.ctrl.jsusp = true := by rfl)
    (saved : t.seq.savedJsusp = s.regs.ctrl.jsusp := by rfl) : Inv t := by
  obtain ⟨hreq, hjs⟩ := w.unguarded hp
  exact w.arrive k ⟨hg, reqMode hreq, jsusp, saved.trans hjs⟩ a

/-- A later line leaves the guards as they are. -/
theorem advance (w : RunsAt i s) (hp : s.seq.phase = p) (a : Arrives i s t) (hl : p ≠ .l1 := by nofun)
    (k : SameSession s t := by exact {}) (hg : isGuarded i = true := by rfl)
    (reqMode : t.regs.ctrl.reqMode = s.regs.ctrl.reqMode := by rfl)
    (jsusp : t.regs.ctrl.jsusp = s.regs.ctrl.jsusp := by rfl)
    (saved : t.seq.savedJsusp = s.seq.savedJsusp := by rfl) : Inv t := by
  have g := w.guarded hp hl hg
  exact w.arrive k ⟨hg, reqMode.trans g.reqMode, jsusp.trans g.jsusp, saved.trans g.saved⟩ a

/-- A later line that passes the index, the bus direction and the counter on to a line that asks the same of them. -/
theorem pass (w : RunsAt i s) (hp : s.seq.phase = p) (hl : p ≠ .l1 := by nofun)
    (line : hasLine i t.seq.phase = true := by rfl) (past : t.seq.phase ≠ .l1 := by nofun)
    (index : indexOk i t.seq.phase t.seq.idx = indexOk i p s.seq.idx := by rfl)
    (ddir : t.regs.ctrl.ddir = s.regs.ctrl.ddir := by rfl) (driving : drivesAt i t.seq.phase = drivesAt i p := by rfl)
    (cnt : t.regs.cnt = s.regs.cnt := by rfl) (hw : slotLine i p = false := by rfl)
    (memory : s.mem.wf = true → t.mem.wf = true := by exact id)
    (captured : ∀ buf count, i = .readBlock buf count →
      (t.seq.phase = .l4 ∨ t.seq.phase = .l3 ∧ t.regs.cnt ≠ 0#16) → t.regs.sample ≠ .unwritten := by nofun)
    (member : ∀ mask, i = .waitCommand mask →
      (t.seq.phase = .l2b → strobe mask t.seq.snap = true) ∧
      (t.seq.phase = .l3 ∨ t.seq.phase = .l4 → maskHas mask (deviceId t.seq.cmd) = true) := by nofun)
    (k : SameSession s t := by exact {}) (hg : isGuarded i = true := by rfl)
    (reqMode : t.regs.ctrl.reqMode = s.regs.ctrl.reqMode := by rfl)
    (jsusp : t.regs.ctrl.jsusp = s.regs.ctrl.jsusp := by rfl)
    (saved : t.seq.savedJsusp = s.seq.savedJsusp := by rfl) : Inv t := by
  refine w.advance hp ?_ hl k hg reqMode jsusp saved
  exact {
    line, past, memory, captured, member
    index := index.trans (w.index hp)
    sampling := fun hs => ddir.trans (w.samples hp hl hs)
    driving := fun hd => ddir.trans (w.drives hp (driving ▸ hd))
    oneDriver := by rw [ddir, k.lines]; exact id
    counter := by rw [cnt]; exact w.sameCount hp (isBegin_of_guarded hg) hw }

/-- A completion that leaves the session as it is keeps the invariant. -/
theorem complete (w : RunsAt i s) {v st : Byte} (hcnt : s.regs.cnt ≠ 0#16)
    (bus : u.regs.ctrl.ddir = true → u.lines.dh = none) (reqMode : u.regs.ctrl.reqMode = false)
    (jsusp : u.regs.ctrl.jsusp = false) (hst : st = statusOk ∨ st = statusIntegrity) (k : SameSession s u := by exact {})
    (mem : u.mem = s.mem := by rfl) (cnt : u.regs.cnt = s.regs.cnt := by rfl) : Inv (u.complete i v st) := by
  refine Inv.of_idle rfl ?_ bus ?_ ?_ ?_ ?_ reqMode jsusp ?_ ?_
  · simpa [mem] using w.inv.memory
  · simpa [k.pc, k.prog] using w.running.fits
  · simpa [k.init, k.ccrReq, k.ccrTrig, k.tcfg, k.dcfg] using w.inv.configured
  · simpa [k.init, k.tcfg, k.dcfg] using w.inv.stopped
  · simpa [cnt] using fun _ => hcnt
  · simpa [statusOk, statusIntegrity] using hst
  · simpa [k.fault] using w.inv.faultCode

/-- The last line of the transfer operations keeps the invariant. -/
theorem finish (w : RunsAt i s) (hp : s.seq.phase = p) {v st : Byte} (hst : st = statusOk ∨ st = statusIntegrity)
    (hl : p ≠ .l1 := by nofun) (hg : isGuarded i = true := by rfl) (hw : slotLine i p = false := by rfl) :
    Inv (s.finish i v st) :=
  w.complete (w.cnt_ne_zero hp (isBegin_of_guarded hg) hw) nofun rfl (w.guarded hp hl hg).saved hst

/-- The completion at line 1 of an operation without a guard, in a session, keeps the invariant. -/
theorem completeUnguarded {v : Byte} (w : RunsAt i s) (hp : s.seq.phase = .l1) (hb : isBegin i = false)
    (bus : (s.regs.ctrl.ddir = true → s.lines.dh = none) → u.regs.ctrl.ddir = true → u.lines.dh = none := by exact id)
    (k : SameSession s u := by exact {})
    (reqMode : u.regs.ctrl.reqMode = s.regs.ctrl.reqMode := by rfl) (jsusp : u.regs.ctrl.jsusp = s.regs.ctrl.jsusp := by rfl)
    (mem : u.mem = s.mem := by rfl) (cnt : u.regs.cnt = s.regs.cnt := by rfl) : Inv (u.complete i v statusOk) := by
  obtain ⟨hreq, hjs⟩ := w.unguarded hp
  exact w.complete (w.cnt_ne_zero hp hb (slotLine_l1 i)) (bus w.inv.oneDriver) (reqMode.trans hreq) (jsusp.trans hjs) (.inl rfl)
    k mem cnt

/-- The arrival of a block operation at its next slot or past the last one keeps the invariant. -/
theorem arriveSlot {buf count : Word} (w : RunsAt i s) (hi : i = .readBlock buf count ∨ i = .writeBlock buf count)
    (g : Guarded i t) (hidx : t.seq.idx ≤ count.toNat) (hcnt : t.regs.cnt ≠ 0#16) (k : SameSession s t := by exact {})
    (sampling : isSampling i = true → t.regs.ctrl.ddir = false := by nofun)
    (driving : isSampling i = false → t.regs.ctrl.ddir = true := by nofun)
    (oneDriver : (s.regs.ctrl.ddir = true → s.lines.dh = none) → t.regs.ctrl.ddir = true → t.lines.dh = none := by exact id)
    (memory : s.mem.wf = true → t.mem.wf = true := by exact id) : Inv (t.arriveSlot count) := by
  obtain ⟨p, he, hp, hline, hix⟩ := arriveSlot_line hi hidx
  rw [he]
  refine w.arrive { k with } { g with } {
    line := hline, index := hix, sampling, oneDriver, memory
    past := ?_, driving := ?_, counter := fun _ h0 => absurd h0 hcnt, captured := ?_, member := ?_ }
  · rcases hp with rfl | rfl | rfl <;> nofun
  · rcases hi with rfl | rfl
    · nofun
    · exact fun _ => driving rfl
  · rcases hp with rfl | rfl | rfl <;> simp
  · rcases hi with rfl | rfl <;> nofun

end RunsAt

/-- Draws of free values keep the invariant. -/
theorem Inv.drawn {s : State} (h : Inv s) (n : Nat) : Inv (s.drawn n) := h.lines s.lines s.log _ h.oneDriver

end Sys2Proof.Machine
end

section
/-! PROOF. From every line of a running operation SEQ's step leads to a next state that meets the invariant: one lemma for each
operation, one case for each line. -/

namespace Sys2Proof.Machine.RunsAt

variable {s : State} {mask b : Byte} {buf count : Word}

/-! ## The session and the bus lines (41, 42): line 1 completes -/

theorem execBeginOp_inv (w : RunsAt (.beginOp mask) s) : Ends Inv False (execBeginOp mask s) := by
  have hp := hasLine_unguarded rfl w.running.line
  simp only [execBeginOp, hp, ends_next]
  have hcnt : Config.cntInit ≠ 0#16 := by decide
  exact Inv.of_idle rfl w.inv.memory nofun w.running.fits (fun _ => ⟨rfl, rfl, rfl, rfl⟩) nofun (fun _ => hcnt) rfl
    (w.unguarded hp).2 (.inl (status_packRes _ _)) w.inv.faultCode

theorem execEndOp_inv (w : RunsAt .endOp s) : Ends Inv False (execEndOp s) := by
  have hp := hasLine_unguarded rfl w.running.line
  simp only [execEndOp, hp, ends_next]
  exact Inv.of_idle rfl w.inv.memory nofun w.running.fits nofun (fun _ => ⟨rfl, rfl⟩) nofun rfl (w.unguarded hp).2
    (.inl (status_packRes _ _)) w.inv.faultCode

theorem execReadStrobe_inv (w : RunsAt .readStrobe s) : Ends Inv False (execReadStrobe s) := by
  have hp := hasLine_unguarded rfl w.running.line
  simp only [execReadStrobe, hp, ends_next]
  exact w.completeUnguarded hp rfl

theorem execReadAck_inv (w : RunsAt .readAck s) : Ends Inv False (execReadAck s) := by
  have hp := hasLine_unguarded rfl w.running.line
  simp only [execReadAck, hp, ends_next]
  exact w.completeUnguarded hp rfl

theorem execIsIdle_inv (w : RunsAt .isIdle s) : Ends Inv False (execIsIdle s) := by
  have hp := hasLine_unguarded rfl w.running.line
  simp only [execIsIdle, hp, ends_next]
  exact w.completeUnguarded hp rfl

theorem execDriveData_inv (w : RunsAt (.driveData b) s) : Ends Inv False (execDriveData b s) := by
  have hp := hasLine_unguarded rfl w.running.line
  simp only [execDriveData, hp, ends_ite, ends_next, ends_raise]
  exact ⟨fun _ => w.completeUnguarded hp rfl, fun _ => w.inv.faulted _⟩

theorem execReleaseData_inv (w : RunsAt .releaseData s) : Ends Inv False (execReleaseData s) := by
  have hp := hasLine_unguarded rfl w.running.line
  simp only [execReleaseData, hp, ends_next]
  exact w.completeUnguarded hp rfl (bus := nofun)

theorem execAcquireData_inv (w : RunsAt .acquireData s) : Ends Inv False (execAcquireData s) := by
  have hp := hasLine_unguarded rfl w.running.line
  simp only [execAcquireData, hp, ends_ite, ends_next, ends_raise]
  exact ⟨fun _ => w.inv.faulted _, fun hdh => w.completeUnguarded hp rfl (bus := fun _ _ => by simpa using hdh)⟩

theorem execPullIrq_inv (w : RunsAt .pullIrq s) : Ends Inv False (execPullIrq s) := by
  have hp := hasLine_unguarded rfl w.running.line
  simp only [execPullIrq, hp, ends_next]
  exact w.completeUnguarded hp rfl

theorem execReleaseIrq_inv (w : RunsAt .releaseIrq s) : Ends Inv False (execReleaseIrq s) := by
  have hp := hasLine_unguarded rfl w.running.line
  simp only [execReleaseIrq, hp, ends_next]
  exact w.completeUnguarded hp rfl

/-! ## Command capture (43): the accepted byte's id is in the mask -/

/-- The filter facts, for the mask of the running `wait_command`. -/
theorem member_of {p : Phase} {snap : Snapshot} {cmd : Byte} (hs : p = .l2b → strobe mask snap = true)
    (hc : p = .l3 ∨ p = .l4 → maskHas mask (deviceId cmd) = true) (m : Byte) (h : Instr.waitCommand mask = .waitCommand m) :
    (p = .l2b → strobe m snap = true) ∧ (p = .l3 ∨ p = .l4 → maskHas m (deviceId cmd) = true) := by
  cases h
  exact ⟨hs, hc⟩

theorem execWaitCommand_inv (w : RunsAt (.waitCommand mask) s) : Ends Inv False (execWaitCommand mask s) := by
  rcases hasLine_waitCommand w.running.line with hp | hp | hp | hp | hp | hp | hp <;>
    simp only [execWaitCommand, hp, ends_ite, ends_raise, ends_next, ends_waitUntil]
  · refine ⟨fun _ => w.inv.faulted _, fun hd => ?_⟩
    rcases arrivePoll_cases s.guardEnter with he | he <;> rw [he]
    all_goals exact w.enter hp { sampling := fun _ => by simpa using hd, member := member_of nofun (by simp) }
  · exact ⟨fun hs => w.pass hp (member := member_of (fun _ => hs) (by simp)), fun _ => w.inv.drawn 1⟩
  · refine ⟨fun _ => w.pass hp (member := member_of nofun fun _ => ?_), fun _ => ?_⟩
    · exact maskHas_of_strobe ((w.running.member mask rfl).1 hp)
    · rcases arrivePoll_cases s with he | he <;> rw [he]
      all_goals exact w.pass hp (member := member_of nofun (by simp))
  · exact ⟨fun _ => w.pass hp (member := member_of nofun (by simp)), fun _ => w.inv⟩
  · refine ⟨fun hs => w.pass hp (member := member_of nofun fun _ => maskHas_of_strobe hs), fun _ => ?_⟩
    rcases arrivePoll_cases ((s.drawn 1).setSnap (snapshot s)) with he | he <;> rw [he]
    all_goals exact w.pass hp (member := member_of nofun (by simp))
  · have hmem := (w.running.member mask rfl).2 (.inl hp)
    exact ⟨fun _ => w.pass hp (member := member_of nofun fun _ => hmem), fun _ => w.inv⟩
  · have g := w.guarded hp
    exact w.complete (w.cnt_ne_zero hp) w.inv.oneDriver g.reqMode g.saved (.inl rfl)

/-! ## Interrupt bytes (44) -/

theorem execSendByte_inv (w : RunsAt (.sendByte b) s) : Ends Inv False (execSendByte b s) := by
  rcases hasLine_sendByte w.running.line with hp | hp | hp | hp | hp | hp <;>
    simp only [execSendByte, hp, ends_ite, ends_raise, ends_next, ends_waitUntil]
  · exact ⟨fun _ => w.inv.faulted _, fun hdh =>
      w.enter hp { driving := fun _ => rfl, oneDriver := fun _ _ => by simpa using hdh }⟩
  · exact w.pass hp
  · exact w.pass hp
  · exact ⟨fun _ => w.pass hp, fun _ => w.inv⟩
  · exact ⟨fun _ => w.pass hp, fun _ => w.inv⟩
  · exact w.finish hp (.inl rfl)

theorem execSendBytes_inv (w : RunsAt (.sendBytes buf count) s) : Ends Inv False (execSendBytes buf count s) := by
  rcases hasLine_sendBytes w.running.line with hp | hp | hp | hp | hp | hp | hp | hp <;>
    simp only [execSendBytes, hp, ends_ite, ends_raise, ends_next, ends_waitUntil]
  · rcases arriveByte_cases count .l8 (s.guardEnter.setIdx 0) with ⟨hi, he⟩ | ⟨hi, he⟩ <;> rw [he]
    · exact w.enter hp { index := beq_iff_eq.mpr hi }
    · exact w.enter hp { index := decide_eq_true (Nat.pos_of_ne_zero hi.symm) }
  · exact ⟨fun _ => w.inv.faulted _, fun hdh => w.advance hp
      { index := w.sameIndex hp, driving := fun _ => rfl, oneDriver := fun _ _ => by simpa using hdh }⟩
  · exact ⟨fun _ => w.pass hp, fun _ => w.inv⟩
  · exact w.pass hp
  · exact ⟨fun _ => w.pass hp, fun _ => w.inv⟩
  · exact ⟨fun _ => w.pass hp, fun _ => w.inv⟩
  · have hlt : s.seq.idx < count.toNat := of_decide_eq_true (w.index hp)
    rcases arriveByte_cases count .l8 (((s.setDdir false).setIrqPull false).setIdx (s.seq.idx + 1)) with ⟨hi, he⟩ | ⟨hi, he⟩ <;>
      rw [he]
    · exact w.advance hp { index := beq_iff_eq.mpr hi, oneDriver := nofun }
    · exact w.advance hp { index := decide_eq_true (Nat.lt_of_le_of_ne hlt hi), oneDriver := nofun }
  · exact w.finish hp (.inl rfl)

theorem execReadByte_inv (w : RunsAt .readByte s) : Ends Inv False (execReadByte s) := by
  rcases hasLine_readByte w.running.line with hp | hp | hp | hp | hp <;>
    simp only [execReadByte, hp, ends_ite, ends_raise, ends_next, ends_waitUntil]
  · exact ⟨fun _ => w.inv.faulted _, fun hd => w.enter hp { sampling := fun _ => by simpa using hd }⟩
  · exact w.pass hp
  · exact ⟨fun _ => w.pass hp, fun _ => w.inv⟩
  · exact ⟨fun _ => w.pass hp, fun _ => w.inv⟩
  · exact w.finish hp (.inl rfl)

theorem execReadBytes_inv (w : RunsAt (.readBytes buf count) s) : Ends Inv False (execReadBytes buf count s) := by
  rcases hasLine_readBytes w.running.line with hp | hp | hp | hp | hp | hp | hp | hp <;>
    simp only [execReadBytes, hp, ends_ite, ends_raise, ends_next, ends_waitUntil]
  · refine ⟨fun _ => w.inv.faulted _, fun hd => ?_⟩
    have hddir : s.regs.ctrl.ddir = false := by simpa using hd
    rcases arriveByte_cases count .l7 (s.guardEnter.setIdx 0) with ⟨hi, he⟩ | ⟨hi, he⟩ <;> rw [he]
    · exact w.enter hp { index := beq_iff_eq.mpr hi, sampling := fun _ => hddir }
    · exact w.enter hp { index := decide_eq_true (Nat.pos_of_ne_zero hi.symm), sampling := fun _ => hddir }
  · exact w.pass hp
  · exact ⟨fun _ => w.pass hp, fun _ => w.inv⟩
  · exact ⟨fun _ => w.pass hp, fun _ => w.inv⟩
  · exact ⟨fun _ => w.pass hp (memory := Memory.wf_write _ _), fun _ => w.inv⟩
  · have hlt : s.seq.idx < count.toNat := of_decide_eq_true (w.index hp)
    rcases arriveByte_cases count .l7 ((s.setIrqPull false).setIdx (s.seq.idx + 1)) with ⟨hi, he⟩ | ⟨hi, he⟩ <;> rw [he]
    · exact w.advance hp { index := beq_iff_eq.mpr hi, sampling := fun _ => w.samples hp }
    · exact w.advance hp { index := decide_eq_true (Nat.lt_of_le_of_ne hlt hi), sampling := fun _ => w.samples hp }
  · exact ⟨fun _ => w.pass hp, fun _ => w.inv⟩
  · exact w.finish hp (.inl rfl)

/-! ## Block transfers (45) -/

/-- Line 1 of a block operation puts the guards up and makes REQ the timer's output. -/
theorem guarded_blockStart {i : Instr} (w : RunsAt i s) (hp : s.seq.phase = .l1) (hb : isBlock i = true := by rfl)
    (hg : isGuarded i = true := by rfl) : Guarded i s.blockStart :=
  ⟨hg, hb.symm, rfl, (w.unguarded hp).2⟩

theorem storeSample_inv (w : RunsAt (.readBlock buf count) s) (hp : s.seq.phase = .l4) :
    Ends Inv False (storeSample buf count s) := by
  have hlt : s.seq.idx < count.toNat := of_decide_eq_true (w.index hp)
  have hcnt := w.cnt_ne_zero hp
  have hddir := w.samples hp
  unfold storeSample
  split
  · exact w.inv.faulted _
  · simp only [ends_ite, ends_next]
    constructor <;> intro
    all_goals exact w.arriveSlot (.inl rfl) { w.guarded hp with } hlt hcnt (sampling := fun _ => hddir)
                      (memory := Memory.wf_write _ _)

theorem execReadBlock_inv (w : RunsAt (.readBlock buf count) s) : Ends Inv False (execReadBlock buf count s) := by
  rcases hasLine_readBlock w.running.line with hp | hp | hp | hp | hp | hp | hp <;>
    simp only [execReadBlock, hp, ends_ite, ends_raise, ends_next, ends_waitUntil]
  · refine ⟨fun _ => w.inv.faulted _, fun hd => ?_⟩
    exact w.arriveSlot (.inl rfl) (w.guarded_blockStart hp) (Nat.zero_le _) (w.cnt_ne_zero hp)
      (sampling := fun _ => by simpa using hd)
  · have hlt : s.seq.idx < count.toNat := of_decide_eq_true (w.index hp)
    rcases slotReset_cases .l7 .l3 s with ⟨h0, -, he⟩ | ⟨-, he⟩ <;> rw [he]
    · exact w.advance hp {
        index := by simp [indexOk, h0, hlt.le]
        sampling := fun _ => w.samples hp
        counter := w.sameCount hp
        captured := by simp }
    · exact w.advance hp {
        index := w.sameIndex hp
        sampling := fun _ => w.samples hp
        counter := fun _ _ => rfl
        captured := by simp }
  · refine ⟨fun hc => ?_, fun _ => w.inv⟩
    have hcnt : s.regs.cnt ≠ 0#16 := by simpa using hc
    have hcap := w.running.captured _ _ rfl (.inr ⟨hp, hcnt⟩)
    exact w.advance hp {
      index := w.sameIndex hp
      sampling := fun _ => w.samples hp
      counter := fun _ h0 => absurd h0 hcnt
      captured := fun _ _ _ _ => hcap }
  · exact ⟨fun _ => w.storeSample_inv hp, fun _ => w.inv⟩
  · obtain ⟨hn, h0⟩ : s.seq.idx = count.toNat ∧ s.seq.idx ≠ 0 := by simpa [indexOk] using w.index hp
    rcases finalCheck_cases s with ⟨-, he⟩ | ⟨-, he⟩ <;> rw [he]
    all_goals exact w.advance hp {
      index := by simp [indexOk, ← hn, h0]
      sampling := fun _ => w.samples hp
      counter := w.sameCount hp
      captured := by simp }
  · exact w.finish hp (.inl rfl)
  · exact w.finish hp (.inr rfl)

theorem execWriteBlock_inv (w : RunsAt (.writeBlock buf count) s) : Ends Inv False (execWriteBlock buf count s) := by
  rcases hasLine_writeBlock w.running.line with hp | hp | hp | hp | hp | hp | hp <;>
    simp only [execWriteBlock, hp, ends_ite, ends_raise, ends_next, ends_waitUntil]
  · refine ⟨fun _ => w.inv.faulted _, fun hdh => ?_⟩
    exact w.arriveSlot (.inr rfl) { w.guarded_blockStart hp with } (Nat.zero_le _) (w.cnt_ne_zero hp) (driving := fun _ => rfl)
      (oneDriver := fun _ _ => by simpa using hdh)
  · exact ⟨fun _ => w.pass hp, fun _ => w.inv⟩
  · have hlt : s.seq.idx < count.toNat := of_decide_eq_true (w.index hp)
    rcases slotReset_cases .l7 .l4 s with ⟨h0, -, he⟩ | ⟨-, he⟩ <;> rw [he]
    · exact w.advance hp {
        index := by simp [indexOk, h0, hlt.le]
        driving := fun _ => w.drives hp
        counter := w.sameCount hp }
    · exact w.advance hp {
        index := w.sameIndex hp
        driving := fun _ => w.drives hp
        counter := fun _ _ => rfl }
  · refine ⟨fun hc => ?_, fun _ => w.inv⟩
    have hlt : s.seq.idx < count.toNat := of_decide_eq_true (w.index hp)
    exact w.arriveSlot (.inr rfl) { w.guarded hp with } hlt (by simpa using hc) (driving := fun _ => w.drives hp)
  · obtain ⟨hn, h0⟩ : s.seq.idx = count.toNat ∧ s.seq.idx ≠ 0 := by simpa [indexOk] using w.index hp
    rcases finalCheck_cases s with ⟨-, he⟩ | ⟨-, he⟩ <;> rw [he]
    all_goals exact w.advance hp {
      index := by simp [indexOk, ← hn, h0]
      driving := fun _ => w.drives hp
      counter := w.sameCount hp }
  · exact w.finish hp (.inl rfl)
  · exact w.finish hp (.inr rfl)

theorem exec_inv {i : Instr} (w : RunsAt i s) : Ends Inv False (exec i s) := by
  cases i with
  | beginOp mask => exact w.execBeginOp_inv
  | endOp => exact w.execEndOp_inv
  | readStrobe => exact w.execReadStrobe_inv
  | readAck => exact w.execReadAck_inv
  | isIdle => exact w.execIsIdle_inv
  | driveData b => exact w.execDriveData_inv
  | releaseData => exact w.execReleaseData_inv
  | acquireData => exact w.execAcquireData_inv
  | pullIrq => exact w.execPullIrq_inv
  | releaseIrq => exact w.execReleaseIrq_inv
  | waitCommand mask => exact w.execWaitCommand_inv
  | sendByte b => exact w.execSendByte_inv
  | sendBytes buf count => exact w.execSendBytes_inv
  | readByte => exact w.execReadByte_inv
  | readBytes buf count => exact w.execReadBytes_inv
  | readBlock buf count => exact w.execReadBlock_inv
  | writeBlock buf count => exact w.execWriteBlock_inv

end Sys2Proof.Machine.RunsAt
end

section
/-! PROOF. Every agent's step keeps the invariant, and what follows from the invariant. -/

namespace Sys2Proof.Machine

/-! ## SEQ -/

/-- The issue of a decoded operation, in the session that it asks for. -/
theorem Inv.latch {s : State} {i : Instr} (h : Inv s) (hp : s.seq.phase = .idle) (hfit : s.pc + i.words ≤ s.prog.length)
    (hinit : s.regs.ctrl.init = !isBegin i) : Inv (s.latch i) := by
  have hreq : s.regs.ctrl.reqMode = false := by rw [h.reqMode, inside_idle hp]
  have hjs : s.regs.ctrl.jsusp = false := by rw [h.jsusp, inside_idle hp]
  refine Inv.of_line i (by simp) (current_latch i s) h.memory h.oneDriver ?_ h.configured h.stopped ?_ ?_ ?_ ?_ h.status h.faultCode
  · exact {
      line := by cases i <;> rfl
      fits := hfit
      session := hinit
      index := by cases i <;> rfl
      sampling := fun _ hl => absurd rfl hl
      driving := by cases i <;> nofun
      captured := by simp
      member := by simp }
  · intro hi h0
    have hwait := h.counter hi h0
    rw [slotWaiting_idle hp] at hwait
    cases hwait
  · simpa using hreq
  · simpa using hjs
  · simp

/-- Line 0 latches the operation, or faults on the session. -/
theorem Inv.issue {s : State} {i : Instr} (h : Inv s) (hp : s.seq.phase = .idle) (hfit : s.pc + i.words ≤ s.prog.length) :
    Ends Inv False (exec i s) := by
  rw [exec_idle i s hp]
  cases i with
  | beginOp mask =>
    simp only [issueBegin, ends_ite, ends_raise, ends_next]
    exact ⟨fun _ => h.faulted _, fun hi => h.latch hp hfit (by simpa [isBegin] using hi)⟩
  | _ =>
    simp only [Machine.issue, ends_ite, ends_raise, ends_next]
    exact ⟨fun hi => h.latch hp hfit hi, fun _ => h.faulted _⟩

theorem Inv.seqStep {s : State} (h : Inv s) : Ends Inv False (seqStep s) := by
  unfold Machine.seqStep
  split
  case isTrue hp =>
    unfold issueStep
    split
    · split
      case h_1 i hd =>
        have hfit : i.words ≤ s.prog.length - s.pc := by simpa using decode_words hd
        exact h.issue hp (by omega)
      all_goals exact h.faulted _
    · exact h
  case isFalse hp =>
    obtain ⟨i, hc, r⟩ := h.op hp
    simp only [lineStep, hc]
    exact RunsAt.exec_inv ⟨h, hc, r⟩

/-! ## The other agents -/

theorem Inv.ackFalls {s : State} (h : Inv s) : Ends Inv False (ackFalls s) := by
  simp only [Machine.ackFalls, ends_ite, ends_raise, ends_next]
  have fallen (n : Nat) := h.lines { s.lines with ackH := true } (s.log ++ [.line .ack true (levelD s)]) n h.oneDriver
  exact ⟨fun hten => ⟨fun _ => h.faulted _, fun hc => ((fallen _).tick hten hc _).drawn 2⟩, fun _ => fallen _⟩

theorem Inv.hostMove {s : State} (h : Inv s) (m : HostMove) : Ends Inv False (hostMove m s) := by
  cases m with
  | toggleCS => exact h.lines _ _ _ h.oneDriver
  | toggleA1 => exact h.lines _ _ _ h.oneDriver
  | ackFall =>
    simp only [Machine.hostMove, ends_ite, ends_next]
    exact ⟨fun _ => h, fun _ => h.ackFalls⟩
  | ackRise =>
    simp only [Machine.hostMove, ends_ite, ends_next]
    exact ⟨fun _ => h.lines _ _ _ h.oneDriver, fun _ => h⟩
  | data drive =>
    simp only [Machine.hostMove, ends_ite, ends_next, ends_raise]
    exact ⟨fun _ => h.faulted _, fun hn => h.lines _ _ _ fun hd => by simpa [hd] using hn⟩

theorem Inv.envMove {s : State} (h : Inv s) (m : EnvMove) : Ends Inv False (envMove m s) := by
  cases m <;> exact h.lines _ _ _ h.oneDriver

theorem Inv.blockReset {s : State} (h : Inv s) (c : Cause) : Inv (blockReset c s) :=
  Inv.of_idle rfl h.memory nofun (Nat.zero_le _) nofun (fun _ => ⟨rfl, rfl⟩) nofun rfl rfl
    (.inl (by simp [Machine.blockReset])) (Nat.zero_le _)

theorem Inv.watchdogMove {s : State} (h : Inv s) : Ends Inv False (watchdogMove s) := by
  simp only [Machine.watchdogMove, ends_ite, ends_next]
  exact ⟨fun _ => h.blockReset _, fun _ => h⟩

/-! ## One step -/

/-- Without a model fault there is a next state, and it meets the invariant. -/
theorem Inv.step {s : State} (h : Inv s) (hf : s.regs.fault = 0#8) : Ends Inv False (step s) := by
  rw [step_eq s hf]
  cases nextMove s with
  | seq => exact h.popped.seqStep
  | host m => exact h.popped.hostMove m
  | env m => exact h.popped.envMove m
  | wdog => exact h.popped.watchdogMove

/-- Settles O52: `Inv` is inductive as it stands; the cases are the agents, and for SEQ the lines of the running operation. -/
theorem stepKeepsTheInvariant : Obligations.StepKeepsTheInvariant := by
  intro s t h ht
  have hf : s.regs.fault = 0#8 := (step_cases ht).1
  exact (h.step hf).of_next ht

/-- Settles O53: the step of a state that meets the invariant never ends in a stop. -/
theorem invariantStatesStep : Obligations.InvariantStatesStep := by
  intro s h hf
  obtain ⟨t, ht, -⟩ := (h.step hf).exists_next
  exact ⟨t, ht⟩

/-! ## REQ -/

/-- The block holds REQ low at a count of 0 below the compare value 1. -/
theorem blockRequests_iff {s : State} (hc : s.regs.ccrReq = 1#16) :
    blockRequests s = true ↔ s.regs.ctrl.reqMode = true ∧ s.regs.cnt = 0#16 := by
  have hlt : s.regs.cnt.toNat < s.regs.ccrReq.toNat ↔ s.regs.cnt = 0#16 := by
    rw [hc]
    bv_omega
  simp [blockRequests, hlt]

/-- SEQ past line 1 of a block operation is in a session. -/
theorem Inv.init_of_inside {s : State} (h : Inv s) (hin : inside isBlock s = true) : s.regs.ctrl.init = true := by
  by_cases hp : s.seq.phase = .idle
  · rw [inside_idle hp] at hin
    cases hin
  · obtain ⟨i, hc, r⟩ := h.op hp
    rw [inside_line hp hc] at hin
    rw [r.session]
    cases i <;> simp_all [isBlock, isBegin]

/-- A slot's wait is past line 1 of a block operation. -/
theorem inside_of_slotWaiting {s : State} (h : slotWaiting s = true) : inside isBlock s = true := by
  unfold slotWaiting at h
  unfold inside
  split at h <;> simp_all [isBlock]

/-- Settles O55: within a block operation `CCR_REQ` is 1, and the count is 0 at a slot's wait only. -/
theorem blockRequestsExactlyInOpenSlots : Obligations.BlockRequestsExactlyInOpenSlots := by
  intro s h
  constructor
  · intro hr
    have hreq : s.regs.ctrl.reqMode = true := by
      rw [blockRequests, Bool.and_eq_true] at hr
      exact hr.1
    have hinit := h.init_of_inside (h.reqMode.symm.trans hreq)
    have h0 := ((blockRequests_iff (h.configured hinit).1).mp hr).2
    exact ⟨h.counter hinit h0, h0⟩
  · rintro ⟨hw, h0⟩
    have hin := inside_of_slotWaiting hw
    have hinit := h.init_of_inside hin
    exact (blockRequests_iff (h.configured hinit).1).mpr ⟨h.reqMode.trans hin, h0⟩

end Sys2Proof.Machine
end

section
/-! PROOF. The serialized form of a program (20 R75). -/

namespace Sys2Proof

/-- A word is its four bytes, most significant first. -/
theorem append_wordBytes (w : Word) :
    w.extractLsb' 24 8 ++ w.extractLsb' 16 8 ++ w.extractLsb' 8 8 ++ w.extractLsb' 0 8 = w := by
  rw [BitVec.extractLsb'_append_extractLsb'_eq_extractLsb' (show 24 = 16 + 8 from rfl),
    BitVec.extractLsb'_append_extractLsb'_eq_extractLsb' (show 16 = 8 + 8 from rfl),
    BitVec.extractLsb'_append_extractLsb'_eq_extractLsb' (show 8 = 0 + 8 from rfl)]
  exact BitVec.extractLsb'_eq_self

/-- The bytes of a program give it back. -/
@[simp] theorem bytesProg_progBytes (ws : List Word) : bytesProg (progBytes ws) = ws := by
  induction ws with
  | nil => rfl
  | cons w ws ih => simp only [progBytes, wordBytes, List.cons_append, List.nil_append, bytesProg, append_wordBytes, ih]

/-- Settles O5: the layout by definition, the read back by induction on the program. -/
theorem serializedProgramIsLittleEndian : Obligations.SerializedProgramIsLittleEndian :=
  ⟨fun _ _ => rfl, bytesProg_progBytes⟩

end Sys2Proof
end

section
/-! PROOF. Buffer memory (20): which accesses are admitted, SEQ at one that is not, and what a step can do to memory. -/

namespace Sys2Proof.Machine

/-! ## An access that is not admitted -/

/-- Admission (R71): below 2^32 and in a range of `MEM_ADMIT`. -/
theorem admitted_iff (p : Params) (a : Nat) :
    admitted p a = true ↔ a < 2 ^ 32 ∧ ∃ r ∈ p.admits, r.base ≤ a ∧ a < r.base + r.size := by
  have hspace : Config.addrSpace = 2 ^ 32 := rfl
  simp only [admitted, hspace, Bool.and_eq_true, decide_eq_true_eq, List.any_eq_true]

/-- SEQ accesses memory at a line of an operation only. -/
theorem accessAt_idle (i : Instr) (n : Nat) : accessAt i .idle n = none := by cases i <;> rfl

/-- At an access that is not admitted the operation does nothing (20 R71). -/
theorem exec_of_not_admitted {i : Instr} {s : State} {a : Nat} (ha : accessAt i s.seq.phase s.seq.idx = some a)
    (hn : admitted s.params a = false) : exec i s = .next s := by
  cases i with
  | sendBytes buf count =>
    obtain ⟨hp, rfl⟩ : s.seq.phase = .l3 ∧ effAddr buf s.seq.idx = a := by simpa [accessAt] using ha
    simp [exec, execSendBytes, hp, waitUntil, hn]
  | readBytes buf count =>
    obtain ⟨hp, rfl⟩ : s.seq.phase = .l5 ∧ effAddr buf s.seq.idx = a := by simpa [accessAt] using ha
    simp [exec, execReadBytes, hp, waitUntil, hn]
  | readBlock buf count =>
    obtain ⟨hp, rfl⟩ : s.seq.phase = .l4 ∧ effAddr buf s.seq.idx = a := by simpa [accessAt] using ha
    simp [exec, execReadBlock, hp, hn]
  | writeBlock buf count =>
    obtain ⟨hp, rfl⟩ : s.seq.phase = .l2 ∧ effAddr buf s.seq.idx = a := by simpa [accessAt] using ha
    simp [exec, execWriteBlock, hp, waitUntil, hn]
  | _ => cases ha

/-- There SEQ's step takes its move off the schedule and changes nothing else. -/
theorem step_of_not_admitted {i : Instr} {s : State} {a : Nat} (hf : s.regs.fault = 0#8) (hm : nextMove s = .seq)
    (hc : s.current = some i) (ha : accessAt i s.seq.phase s.seq.idx = some a) (hn : admitted s.params a = false) :
    step s = .next s.popped := by
  have hp : s.seq.phase ≠ .idle := by
    intro hidle
    rw [hidle, accessAt_idle] at ha
    cases ha
  rw [stepRunsTheDecodedOperation.2 s i hf hm hp hc]
  exact exec_of_not_admitted (s := s.popped) ha hn

/-- Settles O40: `Memory.read_write`, `admitted_iff`, and the four accesses of the operations. -/
theorem memoryAccessRules : Obligations.MemoryAccessRules := by
  refine ⟨Memory.read_write, admitted_iff, fun buf count s hf hm hn hline => ?_⟩
  obtain ⟨i, hc, ha⟩ : ∃ i, s.current = some i ∧ accessAt i s.seq.phase s.seq.idx = some (effAddr buf s.seq.idx) := by
    rcases hline with ⟨hc, hp⟩ | ⟨hc, hp⟩ | ⟨hc, hp⟩ | ⟨hc, hp⟩ <;> exact ⟨_, hc, by simp [accessAt, hp]⟩
  exact step_of_not_admitted hf hm hc ha hn

/-! ## Who writes memory (R76) -/

/-- The operation stores one byte, at the address of its store line, which is admitted. -/
def Stores (i : Instr) (s t : State) : Prop :=
  ∃ buf count b, (i = .readBytes buf count ∧ s.seq.phase = .l5 ∨ i = .readBlock buf count ∧ s.seq.phase = .l4) ∧
    admitted s.params (effAddr buf s.seq.idx) = true ∧ t.mem = s.mem.write (effAddr buf s.seq.idx) b

/-- What a step of an operation can do to memory. -/
def MemEffect (i : Instr) (s t : State) : Prop := t.mem = s.mem ∨ Stores i s t

@[simp] theorem slotReset_mem (pa po : Phase) (s : State) : (slotReset pa po s).mem = s.mem := by
  rcases slotReset_cases pa po s with ⟨-, -, he⟩ | ⟨-, he⟩ <;> simp [he]

/-- Line 4 of `read_block` at an admitted access stores a byte, the captured one or a free one, or faults. -/
theorem storeSample_memEffect {buf count : Word} {s : State} (hp : s.seq.phase = .l4)
    (ha : admitted s.params (effAddr buf s.seq.idx) = true) :
    Ends (MemEffect (.readBlock buf count) s) True (storeSample buf count s) := by
  unfold storeSample
  split
  · exact .inl rfl
  · simp only [ends_ite, ends_next]
    constructor <;> exact fun _ => .inr ⟨buf, count, _, .inr ⟨rfl, hp⟩, ha, rfl⟩

/-- Every line but line 5 leaves memory as it was. -/
theorem execReadBytes_memEffect (buf count : Word) (s : State) :
    Ends (MemEffect (.readBytes buf count) s) True (execReadBytes buf count s) := by
  unfold execReadBytes
  split
  case h_6 hp =>
    simp only [ends_waitUntil]
    exact ⟨fun ha => .inr ⟨buf, count, _, .inl ⟨rfl, hp⟩, ha, rfl⟩, fun _ => .inl rfl⟩
  all_goals simp [MemEffect, issue, State.finish]

/-- Every line but line 4 leaves memory as it was. -/
theorem execReadBlock_memEffect (buf count : Word) (s : State) :
    Ends (MemEffect (.readBlock buf count) s) True (execReadBlock buf count s) := by
  unfold execReadBlock
  split
  case h_5 hp =>
    simp only [ends_ite, ends_next]
    exact ⟨fun ha => storeSample_memEffect hp ha, fun _ => .inl rfl⟩
  all_goals simp [MemEffect, issue, State.finish]

/-- The operations other than `read_bytes` and `read_block` leave memory as it was at every line. -/
theorem exec_memEffect (i : Instr) (s : State) : Ends (MemEffect i s) True (exec i s) := by
  cases i with
  | readBytes buf count => exact execReadBytes_memEffect buf count s
  | readBlock buf count => exact execReadBlock_memEffect buf count s
  | _ =>
    simp only [exec, execBeginOp, execEndOp, execReadStrobe, execReadAck, execIsIdle, execDriveData, execReleaseData,
      execAcquireData, execPullIrq, execReleaseIrq, execWaitCommand, execSendByte, execSendBytes, execReadByte, execWriteBlock,
      issueBegin, issue]
    split <;> simp [MemEffect, State.finish, arrivePoll, beginSetup, endTeardown]

theorem hostMove_mem (m : HostMove) (s : State) : Ends (fun t => t.mem = s.mem) True (hostMove m s) := by
  cases m <;> simp [hostMove, ackFalls, tick]

theorem envMove_mem (m : EnvMove) (s : State) : Ends (fun t => t.mem = s.mem) True (envMove m s) := by
  cases m <;> rfl

theorem watchdogMove_mem (s : State) : Ends (fun t => t.mem = s.mem) True (watchdogMove s) := by
  simp [watchdogMove, blockReset]

/-- SEQ's step leaves memory as it was, or is a store of the running operation. -/
theorem seqStep_memEffect {s t : State} (h : seqStep s = .next t) : t.mem = s.mem ∨ ∃ i, running s = some i ∧ Stores i s t := by
  rcases seqStep_cases h with ⟨hp, -, i, -, he⟩ | ⟨-, -, -, hr⟩ | ⟨-, -, -, hr⟩ | ⟨-, -, -, hr⟩ | ⟨-, -, rfl⟩ | ⟨hp, i, hc, he⟩
  · rcases (exec_memEffect i s).of_next he with hmem | ⟨_, _, _, ⟨-, hl⟩ | ⟨-, hl⟩, -⟩
    · exact .inl hmem
    · exact absurd (hp.symm.trans hl) nofun
    · exact absurd (hp.symm.trans hl) nofun
  · cases hr; exact .inl rfl
  · cases hr; exact .inl rfl
  · cases hr; exact .inl rfl
  · exact .inl rfl
  · exact ((exec_memEffect i s).of_next he).imp_right fun hst => ⟨i, running_iff.mpr ⟨hp, hc⟩, hst⟩

/-- A step of any agent leaves memory as it was, or is SEQ's store. -/
theorem step_memEffect {s t : State} (h : step s = .next t) :
    t.mem = s.mem ∨ nextMove s = .seq ∧ ∃ i, running s = some i ∧ Stores i s t := by
  obtain ⟨-, ⟨hm, hs⟩ | ⟨m, -, hs⟩ | ⟨m, -, hs⟩ | ⟨-, hs⟩⟩ := step_cases h
  · exact (seqStep_memEffect hs).imp_right fun hst => ⟨hm, hst⟩
  · exact .inl ((hostMove_mem m s.popped).of_next hs)
  · exact .inl ((envMove_mem m s.popped).of_next hs)
  · exact .inl ((watchdogMove_mem s.popped).of_next hs)

/-- Settles O41: a step that changes memory is a store, which writes at one address. -/
theorem onlyStoreLinesWriteMemory : Obligations.OnlyStoreLinesWriteMemory := by
  intro s t h hne
  rcases step_memEffect h with hmem | ⟨hm, i, hr, buf, count, b, hline, hadm, hw⟩
  · exact absurd hmem hne
  · refine ⟨hm, buf, count, ?_, hadm, fun a ha => by rw [hw, Memory.read_write, if_neg ha]⟩
    rcases hline with ⟨rfl, hp⟩ | ⟨rfl, hp⟩
    · exact .inl ⟨hr, hp⟩
    · exact .inr ⟨hr, hp⟩

end Sys2Proof.Machine
end

section
/-! PROOF. The descriptor encoding (30_encoding): the opcode table by its three lists of opcodes, the decoder's answer under each
condition of R108, and that an operation is decoded exactly from the words that begin with its own. -/

namespace Sys2Proof

/-! ## The opcode table (R105) -/

/-- The opcodes of R105. -/
def opcodes : List Byte :=
  [0x01#8, 0x02#8, 0x10#8, 0x11#8, 0x12#8, 0x20#8, 0x21#8, 0x22#8, 0x23#8, 0x24#8, 0x30#8, 0x40#8, 0x41#8, 0x42#8, 0x43#8, 0x50#8,
    0x51#8]

/-- The opcodes whose `IMM8` is an operand (R105). -/
def immOpcodes : List Byte := [0x01#8, 0x20#8, 0x30#8, 0x40#8]

/-- The opcodes with `BUF` and `COUNT` (R102, R105). -/
def bufferOpcodes : List Byte := [0x41#8, 0x43#8, 0x50#8, 0x51#8]

/-- A descriptor of the opcode asks for more words than stand after its first (R103). -/
def Short (opc : Byte) (rest : List Word) : Prop := opc ∈ bufferOpcodes ∧ rest.length < 2

/-- A bit that R106 reserves is set. -/
def Reserved (w0 : Word) : Prop := rsvField w0 ≠ 0#16 ∨ (opcField w0 ∉ immOpcodes ∧ immField w0 ≠ 0#8)

/-- What the three lists say of a row, and that the row's code and its mnemonic name no other row. -/
theorem opTable_rows : ∀ row ∈ opTable,
    row.code ∈ opcodes ∧ row.usesImm = decide (row.code ∈ immOpcodes) ∧ row.words = (if row.code ∈ bufferOpcodes then 3 else 1) ∧
      rowOf row.code = some row ∧ rowNamed row.mnemonic = some row := by
  decide

theorem rowOf_mem {opc : Byte} {row : OpRow} (h : rowOf opc = some row) : row ∈ opTable ∧ row.code = opc :=
  ⟨List.mem_of_find?_eq_some h, by simpa using List.find?_some h⟩

theorem rowNamed_mem {m : String} {row : OpRow} (h : rowNamed m = some row) : row ∈ opTable ∧ row.mnemonic = m :=
  ⟨List.mem_of_find?_eq_some h, by simpa using List.find?_some h⟩

theorem rowOf_eq_none_iff {opc : Byte} : rowOf opc = none ↔ opc ∉ opcodes := by
  have hcodes : opcodes = opTable.map OpRow.code := rfl
  simp [rowOf, hcodes]

/-! ## The operation of an opcode -/

/-- The operation's fields are the given ones where the opcode uses them, and 0 or none elsewhere. -/
theorem instrOf_eq_some {opc imm : Byte} {b c : Word} {i : Instr} (h : instrOf opc imm b c = some i) :
    i.opcode = opc ∧ i.imm = (if opc ∈ immOpcodes then imm else 0#8) ∧
      i.bufferWords = (if opc ∈ bufferOpcodes then some (b, c) else none) := by
  unfold instrOf at h
  split at h <;> cases h <;> exact ⟨rfl, rfl, rfl⟩

theorem instrOf_of_mem {opc : Byte} (h : opc ∈ opcodes) (imm : Byte) (b c : Word) : ∃ i, instrOf opc imm b c = some i := by
  rw [← Option.isSome_iff_exists, ← rowOf_isSome_iff opc imm b c, Option.isSome_iff_ne_none]
  exact fun hn => rowOf_eq_none_iff.mp hn h

theorem Instr.opcode_mem (i : Instr) : i.opcode ∈ opcodes := by
  obtain ⟨row, hr, -⟩ := rowOf_opcode i
  exact not_not.mp fun hn => by simp [rowOf_eq_none_iff.mpr hn] at hr

/-- An unused immediate that is 0 is the operation's own. -/
theorem imm_of_instrOf {opc imm : Byte} {b c : Word} {i : Instr} (h : instrOf opc imm b c = some i)
    (himm : opc ∉ immOpcodes → imm = 0#8) : i.imm = imm := by
  rw [(instrOf_eq_some h).2.1]
  split_ifs with hm
  · rfl
  · exact (himm hm).symm

theorem Instr.imm_eq_zero (i : Instr) (h : i.opcode ∉ immOpcodes) : i.imm = 0#8 := by
  simpa [h] using (instrOf_eq_some (instrOf_fields i 0 0)).2.1

/-! ## The decoder's answers (R106 to R108) -/

theorem not_reserved_iff {w0 : Word} :
    ¬ Reserved w0 ↔ rsvField w0 = 0#16 ∧ (opcField w0 ∉ immOpcodes → immField w0 = 0#8) := by
  simp [Reserved]

theorem decode_of_not_mem {w0 : Word} (h : opcField w0 ∉ opcodes) (rest : List Word) : decode (w0 :: rest) = .illegalOp := by
  simp [decode, rowOf_eq_none_iff.mpr h]

/-- A known opcode: the checks on the length and on the reserved bits, in this order, and then the operation of the fields. -/
theorem decode_of_mem {w0 : Word} (h : opcField w0 ∈ opcodes) (rest : List Word) :
    (Short (opcField w0) rest → decode (w0 :: rest) = .truncated) ∧
    (¬ Short (opcField w0) rest → Reserved w0 → decode (w0 :: rest) = .reservedBits) ∧
    ∃ i, instrOf (opcField w0) (immField w0) (rest.getD 0 0#32) (rest.getD 1 0#32) = some i ∧
      (¬ Short (opcField w0) rest → ¬ Reserved w0 → decode (w0 :: rest) = .ok i) := by
  obtain ⟨i, hi⟩ := instrOf_of_mem h (immField w0) (rest.getD 0 0#32) (rest.getD 1 0#32)
  obtain ⟨row, hr⟩ := Option.ne_none_iff_exists'.mp fun hn => rowOf_eq_none_iff.mp hn h
  obtain ⟨hmem, hcode⟩ := rowOf_mem hr
  obtain ⟨-, himm, hwords, -, -⟩ := opTable_rows row hmem
  rw [hcode] at himm hwords
  have hshort : Short (opcField w0) rest ↔ rest.length + 1 < row.words := by
    rw [hwords, Short]
    by_cases hb : opcField w0 ∈ bufferOpcodes
    · rw [if_pos hb]
      simp only [hb, true_and]
      omega
    · simp [hb]
  have hres : Reserved w0 ↔ reservedSet row w0 = true := by simp [reservedSet, Reserved, himm]
  rw [hshort, hres]
  refine ⟨fun hl => ?_, fun hl hb => ?_, i, hi, fun hl hb => ?_⟩
  · simp only [decode, hr, if_pos hl]
  · simp only [decode, hr, if_neg hl, if_pos hb]
  · simp only [decode, hr, if_neg hl, if_neg hb, hi]

/-- What is known of a list of words that is decoded. -/
theorem decode_cons_eq_ok {w0 : Word} {rest : List Word} {i : Instr} (h : decode (w0 :: rest) = .ok i) :
    ¬ Short (opcField w0) rest ∧ ¬ Reserved w0 ∧
      instrOf (opcField w0) (immField w0) (rest.getD 0 0#32) (rest.getD 1 0#32) = some i := by
  have hopc : opcField w0 ∈ opcodes := by
    by_contra hn
    cases (decode_of_not_mem hn rest).symm.trans h
  obtain ⟨htrunc, hbits, j, hj, hok⟩ := decode_of_mem hopc rest
  have hlen : ¬ Short (opcField w0) rest := fun hl => by cases (htrunc hl).symm.trans h
  have hres : ¬ Reserved w0 := fun hb => by cases (hbits hlen hb).symm.trans h
  cases (hok hlen hres).symm.trans h
  exact ⟨hlen, hres, hj⟩

/-! ## The round trips -/

theorem encode_of_bufferWords {i : Instr} {b c : Word} (h : i.bufferWords = some (b, c)) :
    encode i = [packW0 i.opcode i.imm, b, c] := by
  simp [encode, h]

theorem encode_of_no_bufferWords {i : Instr} (h : i.bufferWords = none) : encode i = [packW0 i.opcode i.imm] := by
  simp [encode, h]

/-- After the first word of an operation stand enough words, with its operands at their head. -/
theorem encode_append_eq_cons (i : Instr) (rest : List Word) :
    ∃ ws, encode i ++ rest = packW0 i.opcode i.imm :: ws ∧ ¬ Short i.opcode ws ∧
      instrOf i.opcode i.imm (ws.getD 0 0#32) (ws.getD 1 0#32) = some i := by
  cases i <;> exact ⟨_, rfl, by simp [Short, Instr.opcode, Instr.bufferWords, bufferOpcodes], rfl⟩

/-- Decoding reads an operation's words and nothing after them. -/
theorem decode_encode_append (i : Instr) (rest : List Word) : decode (encode i ++ rest) = .ok i := by
  obtain ⟨ws, hws, hlen, hi⟩ := encode_append_eq_cons i rest
  have hres : ¬ Reserved (packW0 i.opcode i.imm) := not_reserved_iff.mpr (by simpa using i.imm_eq_zero)
  obtain ⟨-, -, j, hj, hok⟩ := decode_of_mem (w0 := packW0 i.opcode i.imm) (by simpa using i.opcode_mem) ws
  rw [opcField_packW0, immField_packW0, hi] at hj
  cases hj
  exact hws ▸ hok (by simpa using hlen) hres

/-- The words that decode to an operation begin with the operation's own. -/
theorem encode_prefix_of_decode {ws : List Word} {i : Instr} (h : decode ws = .ok i) : encode i <+: ws := by
  cases ws with
  | nil => cases h
  | cons w0 rest =>
    obtain ⟨hlen, hres, hi⟩ := decode_cons_eq_ok h
    obtain ⟨hrsv, himm⟩ := not_reserved_iff.mp hres
    obtain ⟨ho, -, hb⟩ := instrOf_eq_some hi
    have hw : packW0 i.opcode i.imm = w0 := by rw [ho, imm_of_instrOf hi himm, packW0_fields w0 hrsv]
    split_ifs at hb with hbuf
    · obtain ⟨b, c, t, rfl⟩ : ∃ b c t, rest = b :: c :: t := by
        match rest with
        | [] | [_] => exact absurd ⟨hbuf, by simp⟩ hlen
        | b :: c :: t => exact ⟨b, c, t, rfl⟩
      rw [encode_of_bufferWords hb, hw]
      exact List.prefix_append _ t
    · rw [encode_of_no_bufferWords hb, hw]
      exact List.prefix_append _ rest

/-- An operation is decoded exactly from the lists of words that begin with its own. -/
theorem decode_eq_ok_iff {ws : List Word} {i : Instr} : decode ws = .ok i ↔ encode i <+: ws :=
  ⟨encode_prefix_of_decode, fun ⟨t, ht⟩ => ht ▸ decode_encode_append i t⟩

/-- Settles O2: the words of an operation are a prefix of the list, and the serialized form loses nothing. -/
theorem decodeInvertsEncode : Obligations.DecodeInvertsEncode :=
  fun i rest => ⟨decode_encode_append i rest, by rw [bytesProg_progBytes, decode_encode_append]⟩

/-- Settles O3: the decoded operation's words are a prefix of the list, as long as its descriptor. -/
theorem encodeInvertsDecode : Obligations.EncodeInvertsDecode := by
  intro ws i h
  have hpre := decode_eq_ok_iff.mp h
  have hlen : (encode i).length = i.words := (Laws.EncodedForm.of_row i).1
  exact ⟨hlen ▸ hpre.length_le, hlen ▸ (List.prefix_iff_eq_take.mp hpre).symm⟩

/-- Settles O4: the conditions of R108 in their order, each with its own answer. -/
theorem decodeIsTotalAndExclusive : Obligations.DecodeIsTotalAndExclusive := by
  intro w0 rest opc known short reserved
  change (_ ↔ ¬ opcField w0 ∈ opcodes) ∧ (_ ↔ opcField w0 ∈ opcodes ∧ Short (opcField w0) rest) ∧
    (_ ↔ opcField w0 ∈ opcodes ∧ ¬ Short (opcField w0) rest ∧ Reserved w0) ∧
    (_ ↔ opcField w0 ∈ opcodes ∧ ¬ Short (opcField w0) rest ∧ ¬ Reserved w0)
  by_cases hopc : opcField w0 ∈ opcodes
  · obtain ⟨htrunc, hbits, i, -, hok⟩ := decode_of_mem hopc rest
    by_cases hlen : Short (opcField w0) rest
    · simp [htrunc hlen, hopc, hlen]
    · by_cases hres : Reserved w0
      · simp [hbits hlen hres, hopc, hlen, hres]
      · simp [hok hlen hres, hopc, hlen, hres]
  · simp [decode_of_not_mem hopc, hopc]

end Sys2Proof
end

section
/-! PROOF. The assembler's operand ranges (30_encoding R110): an operation's operands and their bounds by the kind of its opcode. -/

namespace Sys2Proof

theorem inBounds_nil_iff {vs : List Nat} : inBounds vs [] = true ↔ vs = [] := by
  cases vs <;> simp [inBounds]

theorem inBounds_cons_iff {vs bs : List Nat} {b : Nat} :
    inBounds vs (b :: bs) = true ↔ ∃ v ws, vs = v :: ws ∧ v < b ∧ inBounds ws bs = true := by
  cases vs <;> simp [inBounds]

/-- The bounds of a row's operands, by the kind of its opcode. -/
theorem operandBounds_eq : ∀ row ∈ opTable, operandBounds row =
    if row.code ∈ immOpcodes then [2 ^ 8] else if row.code ∈ bufferOpcodes then [2 ^ 32, 2 ^ 32] else [] := by
  decide

/-- The operands of an operation, by the kind of its opcode. -/
theorem operands_of_instrOf {opc imm : Byte} {b c : Word} {i : Instr} (h : instrOf opc imm b c = some i) :
    i.operands = if opc ∈ immOpcodes then [imm.toNat] else if opc ∈ bufferOpcodes then [b.toNat, c.toNat] else [] := by
  unfold instrOf at h
  split at h <;> cases h <;> rfl

/-- The row of an operation's opcode is the row that its mnemonic names. -/
theorem rowNamed_mnemonic {i : Instr} {row : OpRow} (h : rowOf i.opcode = some row) : rowNamed i.mnemonic = some row := by
  obtain ⟨-, -, -, -, hnamed⟩ := opTable_rows row (rowOf_mem h).1
  simpa [Instr.mnemonic, h] using hnamed

/-- A statement assembles iff its mnemonic names a row and its operands are in that row's ranges. -/
theorem assemble_isSome (src : Source) : src.assemble.isSome = src.wellFormed := by
  unfold Source.assemble Source.wellFormed
  cases hr : rowNamed src.mnemonic with
  | none => rfl
  | some row =>
    obtain ⟨hcode, -⟩ := opTable_rows row (rowNamed_mem hr).1
    cases hb : inBounds src.operands (operandBounds row) with
    | false => simp [hb]
    | true => simpa [hb, Option.isSome_iff_exists] using instrOf_of_mem hcode _ _ _

/-- What an assembled statement is: a row's name, operands in the row's ranges, and the operation of the row's opcode with them. -/
theorem assemble_eq_some_iff {src : Source} {i : Instr} : src.assemble = some i ↔
    ∃ row, rowNamed src.mnemonic = some row ∧ inBounds src.operands (operandBounds row) = true ∧
      instrOf row.code (if row.code ∈ immOpcodes then BitVec.ofNat 8 (src.operands.getD 0 0) else 0#8)
        (BitVec.ofNat 32 (src.operands.getD 0 0)) (BitVec.ofNat 32 (src.operands.getD 1 0)) = some i := by
  unfold Source.assemble
  cases hr : rowNamed src.mnemonic with
  | none => simp
  | some row =>
    obtain ⟨-, himm, -⟩ := opTable_rows row (rowNamed_mem hr).1
    simp [himm]

/-- An operation's statement assembles to it. -/
theorem assemble_source (i : Instr) : i.source.assemble = some i := by
  obtain ⟨row, hr, -⟩ := rowOf_opcode i
  obtain ⟨-, hcode⟩ := rowOf_mem hr
  have hin : inBounds i.operands (operandBounds row) = true := by
    simpa [Instr.wellFormed, Source.wellFormed, Instr.source, rowNamed_mnemonic hr] using i.wellFormed_all
  refine assemble_eq_some_iff.mpr ⟨row, rowNamed_mnemonic hr, hin, ?_⟩
  rw [hcode]
  cases i <;> simp [Instr.source, Instr.operands, rowOf, opTable, Instr.opcode, Instr.imm, Instr.bufferWords, immOpcodes, instrOf]

/-- A statement assembles to an operation only if it is the operation's own. -/
theorem source_of_assemble {src : Source} {i : Instr} (h : src.assemble = some i) : i.source = src := by
  obtain ⟨row, hr, hin, hi⟩ := assemble_eq_some_iff.mp h
  obtain ⟨hmem, hname⟩ := rowNamed_mem hr
  obtain ⟨-, -, -, hrow, -⟩ := opTable_rows row hmem
  obtain ⟨m, vs⟩ := src
  have hm : i.mnemonic = m := by simp [Instr.mnemonic, (instrOf_eq_some hi).1, hrow, hname]
  have hops : i.operands = vs := by
    rw [operands_of_instrOf hi]
    rw [operandBounds_eq row hmem] at hin
    split_ifs at hin ⊢ with himm hbuf
    · obtain ⟨v, _, rfl, hlt, hnil⟩ := inBounds_cons_iff.mp hin
      obtain rfl := inBounds_nil_iff.mp hnil
      simpa using hlt
    · obtain ⟨v, _, rfl, hv, hrest⟩ := inBounds_cons_iff.mp hin
      obtain ⟨w, _, rfl, hw, hnil⟩ := inBounds_cons_iff.mp hrest
      obtain rfl := inBounds_nil_iff.mp hnil
      simpa using And.intro hv hw
    · exact (inBounds_nil_iff.mp hin).symm
  rw [Instr.source, hm, hops]

/-- Settles O6: an ill-formed statement has no assembly, and a well-formed one that of its row and operands. -/
theorem statementsAssembleExactlyInRange : Obligations.StatementsAssembleExactlyInRange :=
  ⟨assemble_isSome, assemble_source, fun _ _ => source_of_assemble⟩

end Sys2Proof
end

section
/-! PROOF. Issue (30_encoding R108): the words that SEQ fetches, the five checks in their order, and the latched descriptor. -/

namespace Sys2Proof.Machine

/-! ## The placed word -/

/-- The words put at `S.PC` are the ones fetched, with more after them. -/
theorem drop_pc_withWordsAtPc (ws : List Word) (s : State) :
    (s.withWordsAtPc ws).prog.drop s.pc = ws ++ s.prog.drop (s.pc + ws.length) := by
  have hlen : (s.prog.take s.pc ++ List.replicate (s.pc - s.prog.length) 0#32).length = s.pc := by
    simp only [List.length_append, List.length_take, List.length_replicate]
    omega
  simp only [State.withWordsAtPc, List.append_assoc]
  rw [← List.append_assoc]
  exact List.drop_left' hlen

theorem decode_of_decodeTableWord {nbits w : Nat} {i : Instr} (h : decodeTableWord nbits w = some i) :
    decode (tableWords nbits w) = .ok i := by
  unfold decodeTableWord at h
  rw [bytesProg_progBytes] at h
  split at h <;> simp_all

/-- Settles O8: the placed words are at `S.PC`, and what follows them is not read. -/
theorem placedWordIsIssuedNext : Obligations.PlacedWordIsIssuedNext := by
  intro s nbits w i h
  have hpre := decode_eq_ok_iff.mp (decode_of_decodeTableWord h)
  have hdrop := drop_pc_withWordsAtPc (tableWords nbits w) s
  have hfetch : encode i <+: (s.withFetchWord nbits w).prog.drop s.pc := hdrop ▸ hpre.trans (List.prefix_append _ _)
  exact stepRunsTheDecodedOperation.1 (s.withFetchWord nbits w) i rfl rfl rfl (decode_eq_ok_iff.mpr hfetch)

/-! ## The issue step -/

/-- Line 0 of any operation: `begin` asks for no session, every other operation for one. -/
theorem exec_idle_opcode (i : Instr) {s : State} (h : s.seq.phase = .idle) :
    exec i s =
      if i.opcode ≠ 0x01#8 ∧ s.regs.ctrl.init = false then raise .uninit s
      else if i.opcode = 0x01#8 ∧ s.regs.ctrl.init = true then raise .reinit s
      else .next (s.latch i) := by
  rw [exec_idle i s h]
  cases hinit : s.regs.ctrl.init with
  | false => cases i <;> simp [Instr.opcode, issueBegin, issue, hinit]
  | true => cases i <;> simp [Instr.opcode, issueBegin, issue, hinit]

/-- The descriptor latched from the fields of a word, with no reserved bit set. -/
theorem latch_of_instrOf {opc imm : Byte} {b c : Word} {i : Instr} (h : instrOf opc imm b c = some i)
    (himm : opc ∉ immOpcodes → imm = 0#8) (s : State) :
    s.latch i = { s with
      seq.opc := opc
      seq.imm8 := imm
      seq.buf := if opc ∈ bufferOpcodes then b else s.seq.buf
      seq.count := if opc ∈ bufferOpcodes then c else s.seq.count
      seq.phase := .l1 } := by
  obtain ⟨ho, -, hb⟩ := instrOf_eq_some h
  rw [State.latch, ho, imm_of_instrOf h himm, hb]
  by_cases hm : opc ∈ bufferOpcodes
  · simp only [if_pos hm]
  · simp only [if_neg hm]

/-- The program ends before the descriptor's last word. -/
theorem short_iff_length_lt {prog : List Word} {pc : Nat} (h : pc < prog.length) (opc : Byte) :
    Short opc (prog.drop (pc + 1)) ↔ prog.length < pc + if opc ∈ bufferOpcodes then 3 else 1 := by
  rw [Short, List.length_drop]
  by_cases hb : opc ∈ bufferOpcodes
  · rw [if_pos hb]
    simp only [hb, true_and]
    omega
  · rw [if_neg hb]
    simp only [hb, false_and, false_iff]
    omega

section
variable {s : State} {w0 : Word} (hf : s.regs.fault = 0#8) (hm : nextMove s = .seq) (hp : s.seq.phase = .idle)
  (hw : s.prog[s.pc]? = some w0)
include hf hm hp hw

/-- SEQ's step when idle at a word of the program: a rejection is raised, an operation is issued. -/
theorem step_of_word : step s = match decode (w0 :: s.prog.drop (s.pc + 1)) with
    | .ok i => exec i s.popped
    | .illegalOp => raise .illegalOp s.popped
    | .truncated => raise .truncated s.popped
    | .reservedBits => raise .reservedBits s.popped := by
  obtain ⟨hlt, rfl⟩ := List.getElem?_eq_some_iff.mp hw
  rw [← List.drop_eq_getElem_cons hlt, step_eq s hf, hm]
  exact (if_pos hp).trans (if_pos hlt)

theorem step_of_unknown_opcode (hopc : opcField w0 ∉ opcodes) : step s = .next { s.popped with regs.fault := 1#8 } := by
  rw [step_of_word hf hm hp hw, decode_of_not_mem hopc]
  rfl

theorem step_of_short (hopc : opcField w0 ∈ opcodes) (hlen : Short (opcField w0) (s.prog.drop (s.pc + 1))) :
    step s = .next { s.popped with regs.fault := 2#8 } := by
  rw [step_of_word hf hm hp hw, (decode_of_mem hopc _).1 hlen]
  rfl

theorem step_of_reserved (hopc : opcField w0 ∈ opcodes) (hlen : ¬ Short (opcField w0) (s.prog.drop (s.pc + 1)))
    (hres : Reserved w0) : step s = .next { s.popped with regs.fault := 3#8 } := by
  rw [step_of_word hf hm hp hw, (decode_of_mem hopc _).2.1 hlen hres]
  rfl

/-- Past the checks on its words, a descriptor meets the two on the session and is latched from its fields. -/
theorem step_of_descriptor (hopc : opcField w0 ∈ opcodes) (hlen : ¬ Short (opcField w0) (s.prog.drop (s.pc + 1)))
    (hres : ¬ Reserved w0) :
    step s =
      if opcField w0 ≠ 0x01#8 ∧ s.regs.ctrl.init = false then .next { s.popped with regs.fault := 4#8 }
      else if opcField w0 = 0x01#8 ∧ s.regs.ctrl.init = true then .next { s.popped with regs.fault := 5#8 }
      else .next { s.popped with
        seq.opc := opcField w0
        seq.imm8 := immField w0
        seq.buf := if opcField w0 ∈ bufferOpcodes then s.prog.getD (s.pc + 1) 0#32 else s.seq.buf
        seq.count := if opcField w0 ∈ bufferOpcodes then s.prog.getD (s.pc + 2) 0#32 else s.seq.count
        seq.phase := .l1 } := by
  obtain ⟨-, -, i, hi, hok⟩ := decode_of_mem hopc (s.prog.drop (s.pc + 1))
  have hlatch := latch_of_instrOf hi (not_reserved_iff.mp hres).2 s.popped
  simp only [List.getD_eq_getElem?_getD, List.getElem?_drop] at hlatch ⊢
  have hexec : step s = exec i s.popped := by rw [step_of_word hf hm hp hw, hok hlen hres]
  rw [hexec, exec_idle_opcode i (s := s.popped) hp, (instrOf_eq_some hi).1, hlatch]
  rfl

end

/-- Settles O9: SEQ's step under each condition of R108 in turn. -/
theorem issueChecksThenLatches : Obligations.IssueChecksThenLatches := by
  intro s w0 hf hm hp hw opc imm len
  obtain ⟨hlt, -⟩ := List.getElem?_eq_some_iff.mp hw
  have hlen3 : len = 3 ↔ opcField w0 ∈ bufferOpcodes := by
    show (if opcField w0 ∈ bufferOpcodes then 3 else 1) = 3 ↔ _
    split <;> simp_all
  by_cases hopc : opcField w0 ∈ opcodes
  · refine Eq.trans ?_ (if_neg (not_not.mpr hopc)).symm
    by_cases hlen : Short (opcField w0) (s.prog.drop (s.pc + 1))
    · exact (step_of_short hf hm hp hw hopc hlen).trans (if_pos ((short_iff_length_lt hlt _).mp hlen)).symm
    · refine Eq.trans ?_ (if_neg (mt (short_iff_length_lt hlt _).mpr hlen)).symm
      by_cases hres : Reserved w0
      · exact (step_of_reserved hf hm hp hw hopc hlen hres).trans (if_pos hres).symm
      · refine Eq.trans ?_ (if_neg hres).symm
        simp only [hlen3]
        exact step_of_descriptor hf hm hp hw hopc hlen hres
  · exact (step_of_unknown_opcode hf hm hp hw hopc).trans (if_pos hopc).symm

/-! ## The examples of R111 -/

/-- Settles O1: the words of each example, decoded by the round trip, and the three rejected words. -/
theorem specExamplesEncodeAndDecode : Obligations.SpecExamplesEncodeAndDecode := by
  refine ⟨fun e he => ?_, fun s w hf hm hp hw => ⟨?_, ?_⟩⟩
  · have hwords : encode e.1 = e.2 := by
      revert e
      decide
    exact ⟨hwords, decode_eq_ok_iff.mpr (hwords ▸ List.prefix_rfl)⟩
  · rintro rfl
    exact step_of_unknown_opcode hf hm hp hw (by decide)
  · rintro (rfl | rfl)
    · exact step_of_reserved hf hm hp hw (by decide) (fun h => absurd h.1 (by decide)) (.inl (by decide))
    · exact step_of_reserved hf hm hp hw (by decide) (fun h => absurd h.1 (by decide)) (.inr (by decide))

end Sys2Proof.Machine
end

section
/-! PROOF. Bus line access (41_bus_line_access): line 1 of each operation, the levels that it leaves, and `SafeRelease`. -/

namespace Sys2Proof.Machine

/-! ## Line 1 -/

section
variable {s : State} (hp : s.seq.phase = .l1)
include hp

theorem exec_readStrobe_l1 : exec .readStrobe s = .next (s.complete .readStrobe (boolByte (levelA1 s)) statusOk) := by
  simp only [exec, execReadStrobe, hp]

theorem exec_readAck_l1 : exec .readAck s = .next (s.complete .readAck (boolByte (levelACK s)) statusOk) := by
  simp only [exec, execReadAck, hp]

theorem exec_isIdle_l1 : exec .isIdle s = .next (s.complete .isIdle (boolByte (busIdle s)) statusOk) := by
  simp only [exec, execIsIdle, hp]

theorem exec_driveData_l1 (b : Byte) :
    exec (.driveData b) s =
      if s.regs.ctrl.ddir then .next ((s.setDout b).complete (.driveData b) 0#8 statusOk) else raise .notAcquired s := by
  simp only [exec, execDriveData, hp]

theorem exec_releaseData_l1 : exec .releaseData s = .next ((s.setDdir false).complete .releaseData 0#8 statusOk) := by
  simp only [exec, execReleaseData, hp]

theorem exec_acquireData_l1 :
    exec .acquireData s =
      if s.lines.dh.isSome then raise .busContention s else .next ((s.setDdir true).complete .acquireData 0#8 statusOk) := by
  simp only [exec, execAcquireData, hp]

theorem exec_pullIrq_l1 : exec .pullIrq s = .next ((s.setIrqPull true).complete .pullIrq 0#8 statusOk) := by
  simp only [exec, execPullIrq, hp]

theorem exec_releaseIrq_l1 : exec .releaseIrq s = .next ((s.setIrqPull false).complete .releaseIrq 0#8 statusOk) := by
  simp only [exec, execReleaseIrq, hp]

end

/-! ## Queries -/

/-- A query that succeeds returns its truth value as 1 or 0 (R27). -/
theorem packRes_boolByte (v : Bool) : packRes statusOk (boolByte v) = if v = true then 0x0001#16 else 0x0000#16 := by
  cases v <;> rfl

/-- A query answers 0 exactly when the line is asserted. -/
theorem packRes_boolByte_not (a : Bool) : packRes statusOk (boolByte !a) = if a = true then 0x0000#16 else 0x0001#16 := by
  cases a <;> rfl

/-- Settles O15: each query completes with the truth value of its level, packed. -/
theorem queriesCompleteWithLevels : Obligations.QueriesCompleteWithLevels := by
  refine ⟨rfl, rfl, rfl, fun s hp => ⟨?_, ?_, ?_⟩⟩
  · rw [exec_readStrobe_l1 hp, State.complete, levelA1, packRes_boolByte_not]
    rfl
  · rw [exec_readAck_l1 hp, State.complete, levelACK, packRes_boolByte_not]
    rfl
  · simp only [← busIdle_iff]
    rw [exec_isIdle_l1 hp, State.complete, packRes_boolByte]
    rfl

/-! ## The data bus -/

/-- Settles O16: the two branches of line 1, and the level of a written latch that drives D. -/
theorem driveDataWritesTheLatch : Obligations.DriveDataWritesTheLatch := by
  intro b s
  refine ⟨?_, fun hp hd => ?_, fun hp hd => ?_⟩
  · rw [encode_of_no_bufferWords rfl, packW0_eq_or]
    simp [Instr.opcode, Instr.imm]
  · rw [exec_driveData_l1 hp, if_neg (by simp [hd])]
    rfl
  · rw [exec_driveData_l1 hp, if_pos hd]
    exact ⟨_, rfl, rfl, fun hdh => (dataBusLevel _ b).1 hd hdh rfl⟩

/-- Settles O17: line 1 of both operations, and the level of D under its one driver. -/
theorem releaseAndAcquireDataSwitchDirection : Obligations.ReleaseAndAcquireDataSwitchDirection := by
  refine ⟨rfl, rfl, fun s hp => ⟨?_, fun hdh => ?_, fun hdh => ?_⟩⟩
  · refine ⟨_, exec_releaseData_l1 hp, rfl, fun b hb => ?_⟩
    obtain ⟨-, hosted, -⟩ := dataBusLevel ((s.setDdir false).complete .releaseData 0#8 statusOk) b
    exact hosted rfl hb
  · rw [exec_acquireData_l1 hp, if_neg (by simp [hdh])]
    exact ⟨_, rfl, rfl, fun b hb => (dataBusLevel _ b).1 rfl hdh hb⟩
  · rw [exec_acquireData_l1 hp, if_pos (Option.isSome_iff_ne_none.mpr hdh)]
    rfl

/-! ## IRQ -/

/-- IRQ is low while the block pulls it. -/
theorem levelIRQ_of_pull {s : State} (h : s.regs.ctrl.irqPull = true) : levelIRQ s = false := by
  simp [levelIRQ, h]

/-- IRQ follows the other devices while the block does not pull it. -/
theorem levelIRQ_of_no_pull {s : State} (h : s.regs.ctrl.irqPull = false) : levelIRQ s = !s.lines.irqE := by
  simp [levelIRQ, h]

/-- Settles O18: line 1 of both operations, and the level of IRQ under the pull that it leaves. -/
theorem pullAndReleaseIrqSetTheLine : Obligations.PullAndReleaseIrqSetTheLine := by
  refine ⟨rfl, rfl, fun s hp => ⟨?_, ?_⟩⟩
  · exact ⟨_, exec_pullIrq_l1 hp, rfl, levelIRQ_of_pull rfl⟩
  · exact ⟨_, exec_releaseIrq_l1 hp, rfl, levelIRQ_of_no_pull rfl⟩

/-! ## `SafeRelease` -/

/-- The word of a `CTRL` with every field set has `INIT` and `JSUSP` left once the three drives are cleared (V2.2.9). -/
theorem Ctrl.word_cleared_drives (c : Ctrl) (h : c.word = 0b11111#32) :
    (Ctrl.mk c.init c.jsusp false false false).word = 0b00011#32 := by
  have all : ∀ i j d q r : Bool, (Ctrl.mk i j d q r).word = 0b11111#32 → (Ctrl.mk i j false false false).word = 0b00011#32 := by
    decide
  exact all _ _ _ _ _ h

/-- Settles O19: `SafeRelease` is one assignment to `CTRL`, of constants to the three drives. -/
theorem safeReleaseIsIdempotent : Obligations.SafeReleaseIsIdempotent :=
  fun s => ⟨rfl, rfl, Ctrl.word_cleared_drives s.regs.ctrl⟩

end Sys2Proof.Machine
end

section
/-! PROOF. How a transfer of 44 or 45 ends (41 R139, R140, 45 R260): a step at a line leads to a line again, or is the last line,
`SafeRelease; GuardExit; Complete`. -/

namespace Sys2Proof.Machine

/-- The step leaves SEQ at a line, or is the operation's last line. -/
def StaysOrFinishes (i : Instr) (s t : State) : Prop := t.seq.phase ≠ .idle ∨ ∃ value status, t = s.finish i value status

@[simp] theorem staysOrFinishes_finish (i : Instr) (value status : Byte) (s : State) :
    StaysOrFinishes i s (s.finish i value status) := .inr ⟨value, status, rfl⟩

/-- A state that is at a line is no end. -/
theorem staysOrFinishes_of_line {i : Instr} {s t : State} (h : t.seq.phase ≠ .idle) : StaysOrFinishes i s t := .inl h

@[simp] theorem staysOrFinishes_goto {p : Phase} (hp : p ≠ .idle) (i : Instr) (s t : State) : StaysOrFinishes i s (t.goto p) :=
  .inl hp

/-! ## What leads to a line -/

@[simp] theorem arriveByte_phase_ne_idle {done : Phase} (hd : done ≠ .idle) (count : Word) (s : State) :
    (s.arriveByte count done).seq.phase ≠ .idle := by
  rcases arriveByte_cases count done s with ⟨-, he⟩ | ⟨-, he⟩ <;> simp [he, hd]

@[simp] theorem arriveSlot_phase_ne_idle (count : Word) (s : State) : (s.arriveSlot count).seq.phase ≠ .idle := by
  rcases arriveSlot_cases count s with ⟨-, -, he⟩ | ⟨-, he⟩ | ⟨-, he⟩ <;> simp [he]

@[simp] theorem slotReset_phase_ne_idle {pa po : Phase} (ha : pa ≠ .idle) (ho : po ≠ .idle) (s : State) :
    (slotReset pa po s).seq.phase ≠ .idle := by
  rcases slotReset_cases pa po s with ⟨-, -, he⟩ | ⟨-, he⟩ <;> simp [he, ha, ho]

@[simp] theorem finalCheck_phase_ne_idle (s : State) : s.finalCheck.seq.phase ≠ .idle := by
  rcases finalCheck_cases s with ⟨-, he⟩ | ⟨-, he⟩ <;> simp [he]

theorem storeSample_staysOrFinishes {i : Instr} {s : State} (hp : s.seq.phase ≠ .idle) (buf count : Word) :
    Ends (StaysOrFinishes i s) True (storeSample buf count s) := by
  unfold storeSample
  split
  · exact staysOrFinishes_of_line hp
  · simp [staysOrFinishes_of_line]

/-! ## The transfer operations -/

/-- Only the last lines, one for each exit, leave SEQ idle. -/
theorem exec_staysOrFinishes {i : Instr} {s : State} (hg : isGuarded i = true) (hw : ∀ mask, i ≠ .waitCommand mask)
    (hp : s.seq.phase ≠ .idle) : Ends (StaysOrFinishes i s) True (exec i s) := by
  cases i with
  | waitCommand mask => exact absurd rfl (hw mask)
  | sendByte b | sendBytes buf count | readByte | readBytes buf count | readBlock buf count | writeBlock buf count =>
    simp only [exec, execSendByte, execSendBytes, execReadByte, execReadBytes, execReadBlock, execWriteBlock]
    split
    case h_1 hidle => exact absurd hidle hp
    all_goals simp [staysOrFinishes_of_line, storeSample_staysOrFinishes, hp]
  | _ => cases hg

/-- The last line releases every line of the block and restores `JSUSP`. -/
theorem finish_ctrl (i : Instr) (value status : Byte) (s : State) :
    (s.finish i value status).regs.ctrl = ⟨s.regs.ctrl.init, s.seq.savedJsusp, false, false, false⟩ := rfl

/-- Settles O47: a step that completes a transfer is its last line, on either exit. -/
theorem transfersReleaseOnEveryExit : Obligations.TransfersReleaseOnEveryExit := by
  intro i s t hr hg hw ht hidle
  have hp : s.seq.phase ≠ .idle := (running_iff.mp hr).1
  rcases (exec_staysOrFinishes hg hw hp).of_next ht with hline | ⟨value, status, rfl⟩
  · exact absurd hidle hline
  · exact finish_ctrl i value status s

end Sys2Proof.Machine
end

section
/-! PROOF. The session operations (42_handshake_timer_sampler R160, R161): line 0 and line 1 of `begin` and `end`, and the packed
configuration that `end` leaves. -/

namespace Sys2Proof.Machine

section
variable {s : State}

theorem exec_beginOp_l1 (hp : s.seq.phase = .l1) (mask : Byte) :
    exec (.beginOp mask) s = .next ((beginSetup mask s).complete (.beginOp mask) 0#8 statusOk) := by
  simp only [exec, execBeginOp, hp]

theorem exec_endOp_l1 (hp : s.seq.phase = .l1) : exec .endOp s = .next ((endTeardown s).complete .endOp 0#8 statusOk) := by
  simp only [exec, execEndOp, hp]

/-- `begin` is executed once in a session. -/
theorem exec_beginOp_idle (hp : s.seq.phase = .idle) (hi : s.regs.ctrl.init = true) (mask : Byte) :
    exec (.beginOp mask) s = raise .reinit s := by
  rw [exec_idle_opcode _ hp]
  simp [Instr.opcode, hi]

/-- `end` asks for a session. -/
theorem exec_endOp_idle (hp : s.seq.phase = .idle) (hi : s.regs.ctrl.init = false) : exec .endOp s = raise .uninit s := by
  rw [exec_idle_opcode _ hp]
  simp [Instr.opcode, hi]

end

/-- Settles O20: line 0 in a session, and the writes of line 1 with the packed views of the configuration. -/
theorem beginConfiguresTheSession : Obligations.BeginConfiguresTheSession := by
  intro mask s
  refine ⟨?_, fun hp hi => exec_beginOp_idle hp hi mask, fun hp => ⟨_, exec_beginOp_l1 hp mask, ?_⟩⟩
  · rw [encode_of_no_bufferWords rfl, packW0_eq_or]
    simp [Instr.opcode, Instr.imm]
  · exact ⟨rfl, rfl, rfl, rfl, Tcfg.word_begun, Dcfg.word_begun, rfl, rfl, rfl, rfl, rfl, rfl⟩

/-- Clearing the lowest field of a word clears its bit 0. -/
theorem append_zero_of_append_ofBool {n : Nat} {hi : BitVec n} {b : Bool} {w : BitVec (n + 1)} (h : hi ++ BitVec.ofBool b = w) :
    hi ++ 0#1 = w &&& (BitVec.allOnes n ++ 0#1) := by
  subst h
  simp [BitVec.and_append]

/-- A `TCFG` of 0x77 with the timer stopped is 0x76. -/
theorem Tcfg.word_stopped {c : Tcfg} (h : c.word = 0x77#8) : Tcfg.word { c with ten := false } = 0x76#8 :=
  (append_zero_of_append_ofBool h).trans (by decide)

/-- A `DCFG` of 0x0177 with the sampler disabled is 0x0176. -/
theorem Dcfg.word_stopped {c : Dcfg} (h : c.word = 0x0177#16) : Dcfg.word { c with den := false } = 0x0176#16 :=
  (append_zero_of_append_ofBool h).trans (by decide)

/-- Settles O21: line 0 outside a session, the writes of line 1, and the enable bits cleared in the packed words. -/
theorem endTearsTheSessionDown : Obligations.EndTearsTheSessionDown :=
  ⟨rfl, fun _ hp hi => exec_endOp_idle hp hi, fun _ hp => ⟨_, exec_endOp_l1 hp, rfl, Tcfg.word_stopped, Dcfg.word_stopped⟩⟩

end Sys2Proof.Machine
end

section
/-! PROOF. The timer and the sampler (42_handshake_timer_sampler R170 to R176): the ACK falling edge with its tick and capture, and
the tick of a byte slot. -/

namespace Sys2Proof.Machine

/-! ## The tick -/

/-- The tick captures: the new count is the compare value of the enabled trigger of the enabled channel (R171). -/
def captures (s : State) : Bool := decide (s.regs.cnt + 1#16 = s.regs.ccrTrig) && s.regs.tcfg.trige && s.regs.dcfg.den

theorem captures_iff {s : State} :
    captures s = true ↔ s.regs.cnt + 1#16 = s.regs.ccrTrig ∧ s.regs.tcfg.trige = true ∧ s.regs.dcfg.den = true := by
  simp only [captures, Bool.and_eq_true, decide_eq_true_eq, and_assoc]

theorem tick_sample (port : Half) (s : State) :
    (tick port s).regs.sample = if captures s = true then .holds port else s.regs.sample := rfl

theorem tick_log (port : Half) (s : State) :
    (tick port s).log = s.log ++ [.tick (s.regs.cnt + 1#16) (captures s)] := rfl

theorem tick_ovr_iff (port : Half) (s : State) :
    (tick port s).ovr = true ↔ s.ovr = true ∨ (2 ≤ (tick port s).regs.cnt.toNat ∧ s.regs.ctrl.reqMode = true) := by
  simp [tick, secondEdge]

/-! ## The ACK falling edge -/

/-- The state with ACK asserted and the edge logged (49 R302). -/
def State.ackAsserted (s : State) : State := State.emit (.line .ack true (levelD s)) { s with lines.ackH := true }

section
variable {s : State} (hf : s.regs.fault = 0#8) (hm : nextMove s = .host .ackFall) (ha : s.lines.ackH = false)
include hf hm ha

/-- The host's move at a released ACK is the falling edge. -/
theorem step_ackFall : step s = ackFalls s.popped := by
  rw [step_eq s hf, hm]
  exact if_neg (by simp [ha])

theorem step_ackFall_tick (hten : s.regs.tcfg.ten = true) (hc : s.regs.cnt ≠ 0xFFFF#16) :
    step s = .next ((tick (portIn s) s.popped.ackAsserted).drawn 2) := by
  rw [step_ackFall hf hm ha]
  exact (if_pos hten).trans (if_neg hc)

theorem step_ackFall_wrap (hten : s.regs.tcfg.ten = true) (hc : s.regs.cnt = 0xFFFF#16) :
    step s = raise .counterWrap s.popped := by
  rw [step_ackFall hf hm ha]
  exact (if_pos hten).trans (if_pos hc)

theorem step_ackFall_stopped (hten : s.regs.tcfg.ten = false) : step s = .next (s.popped.ackAsserted.drawn 1) := by
  rw [step_ackFall hf hm ha]
  exact if_neg (by simp [hten])

end

/-- Settles O22: the edge with its tick below the counter's top, at it, and with the timer stopped. -/
theorem ackFallTicksAndCaptures : Obligations.AckFallTicksAndCaptures := by
  intro s hf hm ha
  refine ⟨fun hten hc => ?_, step_ackFall_wrap hf hm ha, fun hten => ⟨_, step_ackFall_stopped hf hm ha hten, rfl⟩⟩
  refine ⟨_, step_ackFall_tick hf hm ha hten hc, rfl, rfl, ⟨fun hcap => ?_, fun hcap => ?_, tick_ovr_iff _ _, ?_⟩, rfl⟩
  · exact ⟨_, (tick_sample _ _).trans (if_pos (captures_iff.mpr hcap))⟩
  · exact (tick_sample _ _).trans (if_neg (mt captures_iff.mp hcap))
  · rw [State.drawn_log, tick_log, ← Bool.decide_coe (captures _), State.ackAsserted, State.emit_log, List.append_assoc]
    simp only [captures_iff]
    rfl

/-- A slot's wait is in a session. -/
theorem Inv.init_of_slotWaiting {s : State} (h : Inv s) (hw : slotWaiting s = true) : s.regs.ctrl.init = true :=
  h.init_of_inside (inside_of_slotWaiting hw)

/-- The first tick of a slot captures (R172): the session's trigger is enabled at the count 1. -/
theorem Inv.captures_of_slotWaiting {s : State} (h : Inv s) (hw : slotWaiting s = true) (h0 : s.regs.cnt = 0#16) :
    captures s = true := by
  obtain ⟨-, htrig, htcfg, hdcfg⟩ := h.configured (h.init_of_slotWaiting hw)
  rw [captures, h0, htrig, htcfg, hdcfg]
  rfl

/-- Settles O56: the edge that makes `CNT` 1 captures, and ends the request because the compare value is 1. -/
theorem slotTickCapturesAndReleasesReq : Obligations.SlotTickCapturesAndReleasesReq := by
  intro s h hf hw h0 hreqE ha hm
  obtain ⟨hreq, -, htcfg, -⟩ := h.configured (h.init_of_slotWaiting hw)
  have hlow : blockRequests s = true := (blockRequestsExactlyInOpenSlots s h).mpr ⟨hw, h0⟩
  have hcap := captures_iff.mp (h.captures_of_slotWaiting hw h0)
  obtain ⟨t, ht, hlines, hcnt, ⟨hcaptured, -, -, hlog⟩, hframe⟩ :=
    (ackFallTicksAndCaptures s hf hm ha).1 (by rw [htcfg]; rfl) (by rw [h0]; decide)
  obtain ⟨low, hsample⟩ := hcaptured hcap
  rw [decide_eq_true hcap, h0] at hlog
  rw [h0] at hcnt
  have hreq' : t.regs.ccrReq = 1#16 := (congrArg (·.regs.ccrReq) hframe).trans hreq
  have hhigh : blockRequests t = false := by simp [blockRequests, hcnt, hreq']
  exact ⟨by simp [levelREQ, hlow], t, low, ht, by simp [levelREQ, hhigh, hlines, hreqE], hcnt, hsample, hlog⟩

end Sys2Proof.Machine
end

section
/-! PROOF. The sample that `read_block` reads (10_state R32, 42 R175): what a step that raises `UNWRITTEN` is. -/

namespace Sys2Proof.Machine

/-- The operation is `read_block` at its read of an unwritten `SAMPLE` (10_state R32). -/
def ReadsUnwritten (i : Instr) (s : State) : Prop :=
  s.seq.phase = .l4 ∧ s.regs.sample = .unwritten ∧ ∃ buf count, i = .readBlock buf count

/-- A step from `s` to `t` that raises `UNWRITTEN` is that read. -/
def RaisesUnwrittenAtRead (i : Instr) (s t : State) : Prop := t.regs.fault = FaultCode.unwritten.code → ReadsUnwritten i s

@[simp] theorem slotReset_fault (pa po : Phase) (s : State) : (slotReset pa po s).regs.fault = s.regs.fault := by
  rcases slotReset_cases pa po s with ⟨-, -, he⟩ | ⟨-, he⟩ <;> simp [he]

section
variable {s : State} (hf : s.regs.fault = 0#8)
include hf

theorem storeSample_raisesUnwritten {buf count : Word} (hp : s.seq.phase = .l4) :
    Ends (RaisesUnwrittenAtRead (.readBlock buf count) s) True (storeSample buf count s) := by
  unfold storeSample
  split
  case h_1 hs => exact fun _ => ⟨hp, hs, buf, count, rfl⟩
  case h_2 => simp [RaisesUnwrittenAtRead, hf, FaultCode.code]

/-- Only line 4 of `read_block` raises `UNWRITTEN`: every other line raises another code or leaves `FAULT` as it is. -/
theorem exec_raisesUnwritten (i : Instr) : Ends (RaisesUnwrittenAtRead i s) True (exec i s) := by
  cases i <;> simp only [exec, execBeginOp, execEndOp, execReadStrobe, execReadAck, execIsIdle, execDriveData, execReleaseData,
    execAcquireData, execPullIrq, execReleaseIrq, execWaitCommand, execSendByte, execSendBytes, execReadByte, execReadBytes,
    execReadBlock, execWriteBlock, issueBegin, issue] <;> split <;>
    simp only [ends_next, ends_fault, ends_raise, ends_ite, ends_waitUntil, storeSample_raisesUnwritten, *] <;>
    simp [RaisesUnwrittenAtRead, FaultCode.code, hf, State.finish, arrivePoll, beginSetup, endTeardown]

/-- SEQ raises `UNWRITTEN` at a line of the running operation, not at an issue. -/
theorem seqStep_raisesUnwritten {t : State} (h : seqStep s = .next t) (h10 : t.regs.fault = FaultCode.unwritten.code) :
    ∃ i, running s = some i ∧ ReadsUnwritten i s := by
  rcases seqStep_cases h with ⟨hp, -, i, -, he⟩ | ⟨-, -, -, hr⟩ | ⟨-, -, -, hr⟩ | ⟨-, -, -, hr⟩ | ⟨-, -, rfl⟩ | ⟨hp, i, hc, he⟩
  · obtain ⟨hl4, -⟩ := (exec_raisesUnwritten hf i).of_next he h10
    exact absurd (hp.symm.trans hl4) nofun
  · cases hr
    cases h10
  · cases hr
    cases h10
  · cases hr
    cases h10
  · cases hf.symm.trans h10
  · exact ⟨i, running_iff.mpr ⟨hp, hc⟩, (exec_raisesUnwritten hf i).of_next he h10⟩

/-- The host raises two codes, of a driven bus and of the counter's top. -/
theorem hostMove_fault_ne_unwritten (m : HostMove) :
    Ends (fun t => t.regs.fault ≠ FaultCode.unwritten.code) True (hostMove m s) := by
  cases m with
  | ackFall => simp [hostMove, ackFalls, tick, FaultCode.code, hf]
  | _ => simp [hostMove, FaultCode.code, hf]

theorem envMove_fault (m : EnvMove) : Ends (fun t => t.regs.fault = 0#8) True (envMove m s) := by
  cases m <;> exact hf

theorem watchdogMove_fault : Ends (fun t => t.regs.fault = 0#8) True (watchdogMove s) := by
  simp only [watchdogMove, ends_ite, ends_next]
  exact ⟨fun _ => rfl, fun _ => hf⟩

end

/-- A step that raises `UNWRITTEN` is SEQ's, at line 4 of `read_block` with `SAMPLE` unwritten (60 R340). -/
theorem step_raisesUnwritten {s t : State} (h : step s = .next t) (h10 : t.regs.fault = FaultCode.unwritten.code) :
    ∃ i, running s = some i ∧ ReadsUnwritten i s := by
  obtain ⟨hf, ⟨-, hs⟩ | ⟨m, -, hs⟩ | ⟨m, -, hs⟩ | ⟨-, hs⟩⟩ := step_cases h
  · exact seqStep_raisesUnwritten (s := s.popped) hf hs h10
  · exact absurd h10 ((hostMove_fault_ne_unwritten (s := s.popped) hf m).of_next hs)
  · cases ((envMove_fault (s := s.popped) hf m).of_next hs).symm.trans h10
  · cases ((watchdogMove_fault (s := s.popped) hf).of_next hs).symm.trans h10

/-- Settles O54: at line 4 of `read_block` the slot's tick has captured. -/
theorem sampleIsNeverReadUnwritten : Obligations.SampleIsNeverReadUnwritten := by
  intro s t h ht h10
  obtain ⟨i, hr, hl4, hs, buf, count, rfl⟩ := step_raisesUnwritten ht h10
  obtain ⟨hp, hc⟩ := running_iff.mp hr
  obtain ⟨j, hj, r⟩ := h.op hp
  obtain rfl : .readBlock buf count = j := Option.some.inj (hc.symm.trans hj)
  exact r.captured buf count rfl (.inl hl4) hs

end Sys2Proof.Machine
end

section
/-! PROOF. Command capture (43_command_capture R200 to R204): the lines of `wait_command`, its one exit, and a whole capture. -/

namespace Sys2Proof.Machine

/-! ## The lines -/

/-- `Strobe` of the lines as they are: CS and A1 asserted, and a member's byte on D. -/
theorem strobe_snapshot_iff (mask : Byte) (s : State) : strobe mask (snapshot s) = true ↔
    s.lines.csH = true ∧ s.lines.a1H = true ∧ mask.getLsbD ((levelD s).extractLsb' 5 3).toNat = true := by
  rw [strobe_iff, snapshot_eq]

section
variable {mask : Byte} {s : State}

theorem exec_waitCommand_l1 (hp : s.seq.phase = .l1) : exec (.waitCommand mask) s =
    if s.regs.ctrl.ddir then raise .busOwnership s else .next (arrivePoll s.guardEnter) := by
  simp only [exec, execWaitCommand, hp]

theorem exec_waitCommand_l2a (hp : s.seq.phase = .l2a) : exec (.waitCommand mask) s =
    .next (if strobe mask (snapshot s) then ((s.drawn 1).setSnap (snapshot s)).goto .l2b else s.drawn 1) := by
  simp only [exec, execWaitCommand, hp, waitUntil_eq]

theorem exec_waitCommand_l2b (hp : s.seq.phase = .l2b) : exec (.waitCommand mask) s =
    if busIdle s then .next ((s.setCmd s.seq.snap.d).goto .l3) else .next (arrivePoll s) := by
  simp only [exec, execWaitCommand, hp]

theorem exec_waitCommand_l2c (hp : s.seq.phase = .l2c) : exec (.waitCommand mask) s =
    .next (if busIdle s then s.goto .l2d else s) := by
  simp only [exec, execWaitCommand, hp, waitUntil_eq]

theorem exec_waitCommand_l2d (hp : s.seq.phase = .l2d) : exec (.waitCommand mask) s =
    if strobe mask (snapshot s) then .next ((((s.drawn 1).setSnap (snapshot s)).setCmd (snapshot s).d).goto .l3)
    else .next (arrivePoll ((s.drawn 1).setSnap (snapshot s))) := by
  simp only [exec, execWaitCommand, hp]

theorem exec_waitCommand_l3 (hp : s.seq.phase = .l3) : exec (.waitCommand mask) s =
    .next (if s.lines.csH then s else s.goto .l4) := by
  simp only [exec, execWaitCommand, hp, waitUntil_eq, asserted, levelCS]
  cases s.lines.csH <;> rfl

theorem exec_waitCommand_l4 (hp : s.seq.phase = .l4) : exec (.waitCommand mask) s =
    .next (s.guardExit.complete (.waitCommand mask) s.seq.cmd statusOk) := by
  simp only [exec, execWaitCommand, hp]

end

/-- The outcome is an arrival at line 2: SEQ is at 2a or 2c, and the state is `u` but for the phase and the draws. -/
def ArrivesAtPoll (o : Out) (u : State) : Prop :=
  ∃ t, o = .next t ∧ (t.seq.phase = .l2a ∨ t.seq.phase = .l2c) ∧ { t with seq.phase := u.seq.phase, draws := u.draws } = u

theorem arrivePoll_phase (s : State) : (arrivePoll s).seq.phase = .l2a ∨ (arrivePoll s).seq.phase = .l2c := by
  rcases arrivePoll_cases s with h | h <;> simp [h]

@[simp] theorem arrivePoll_phase_ne_idle (s : State) : (arrivePoll s).seq.phase ≠ .idle := by
  rcases arrivePoll_phase s with h | h <;> simp [h]

/-- The choice at line 2 is an arrival there, however many values were drawn on the way. -/
theorem arrivesAtPoll_drawn (n : Nat) (s : State) : ArrivesAtPoll (.next (arrivePoll (s.drawn n))) s :=
  ⟨_, rfl, arrivePoll_phase _, rfl⟩

/-- Settles O24: each line's rule under each of its conditions, with `Strobe` and `Idle` read as the levels they are. -/
theorem waitCommandLines : Obligations.WaitCommandLines := by
  intro mask s arrives snap member idle
  have hstrobe : strobe mask (snapshot s) = true ↔ member := strobe_snapshot_iff mask s
  have hidle : busIdle s = true ↔ idle := busIdle_iff s
  have hsnap : snapshot s = snap := snapshot_eq s
  refine ⟨?encoding, ?l1_driving, ?l1, ?l2a_member, ?l2a_other, ?l2b_idle, ?l2b_busy, ?l2c_idle, ?l2c_busy, ?l2d_member, ?l2d_other,
    ?l3_asserted, ?l3_released, exec_waitCommand_l4⟩
  case encoding =>
    rw [encode_of_no_bufferWords rfl, packW0_eq_or]
    simp [Instr.opcode, Instr.imm]
  case l1_driving =>
    intro hp hd
    rw [exec_waitCommand_l1 hp, if_pos hd]
    rfl
  case l1 =>
    intro hp hd
    rw [exec_waitCommand_l1 hp, if_neg (by simp [hd])]
    exact arrivesAtPoll_drawn 0 s.guardEnter
  case l2a_member =>
    intro hp hm
    rw [exec_waitCommand_l2a hp, if_pos (hstrobe.mpr hm), hsnap]
    exact ⟨_, rfl, rfl⟩
  case l2a_other =>
    intro hp hm
    rw [exec_waitCommand_l2a hp, if_neg (mt hstrobe.mp hm)]
    exact ⟨_, rfl, rfl⟩
  case l2b_idle =>
    intro hp hi
    rw [exec_waitCommand_l2b hp, if_pos (hidle.mpr hi)]
    rfl
  case l2b_busy =>
    intro hp hi
    rw [exec_waitCommand_l2b hp, if_neg (mt hidle.mp hi)]
    exact arrivesAtPoll_drawn 0 s
  case l2c_idle =>
    intro hp hi
    rw [exec_waitCommand_l2c hp, if_pos (hidle.mpr hi)]
    rfl
  case l2c_busy =>
    intro hp hi
    rw [exec_waitCommand_l2c hp, if_neg (mt hidle.mp hi)]
  case l2d_member =>
    intro hp hm
    rw [exec_waitCommand_l2d hp, if_pos (hstrobe.mpr hm), hsnap]
    exact ⟨_, rfl, rfl⟩
  case l2d_other =>
    intro hp hm
    rw [exec_waitCommand_l2d hp, if_neg (mt hstrobe.mp hm), hsnap]
    exact arrivesAtPoll_drawn 1 (s.setSnap snap)
  case l3_asserted =>
    intro hp hcs
    rw [exec_waitCommand_l3 hp, if_pos hcs]
  case l3_released =>
    intro hp hcs
    rw [exec_waitCommand_l3 hp, if_neg (by simp [hcs])]
    rfl

/-! ## The one exit -/

/-- The low byte of a packed result is its value, from which the device id is read (R27, R202). -/
theorem deviceId_packRes (st v : Byte) : (packRes st v).extractLsb' 5 3 = v.extractLsb' 5 3 := by
  apply BitVec.eq_of_getLsbD_eq
  intro k hk
  have hlow : 5 + k < 8 := by omega
  simp only [packRes, BitVec.getLsbD_extractLsb', BitVec.getLsbD_append, hk, hlow, decide_true, Bool.true_and, if_true]

/-- The step leaves SEQ at a line, or is line 4, which returns the accepted byte. -/
def StaysOrReturns (mask : Byte) (s t : State) : Prop :=
  t.seq.phase ≠ .idle ∨ s.seq.phase = .l4 ∧ t = s.guardExit.complete (.waitCommand mask) s.seq.cmd statusOk

/-- Only line 4 leaves SEQ idle. -/
theorem exec_waitCommand_staysOrReturns {mask : Byte} {s : State} (hp : s.seq.phase ≠ .idle) :
    Ends (StaysOrReturns mask s) True (exec (.waitCommand mask) s) := by
  simp only [exec, execWaitCommand]
  split
  case h_1 hidle => exact absurd hidle hp
  all_goals simp [StaysOrReturns, *]

/-- Settles O25: the byte that line 4 returns has passed the filter, by the invariant's fact about the running `wait_command`. -/
theorem waitCommandReturnsMembersOnly : Obligations.WaitCommandReturnsMembersOnly := by
  intro mask s t h hm hr ht hidle
  obtain ⟨hp, hc⟩ := running_iff.mp hr
  obtain ⟨i, hi, r⟩ := h.op hp
  obtain rfl : .waitCommand mask = i := Option.some.inj (hc.symm.trans hi)
  have hexec : exec (.waitCommand mask) s.popped = .next t :=
    (stepRunsTheDecodedOperation.2 s _ (step_cases ht).1 hm hp hc).symm.trans ht
  rcases (exec_waitCommand_staysOrReturns (s := s.popped) hp).of_next hexec with hline | ⟨hl4, rfl⟩
  · exact absurd hidle hline
  · refine ⟨status_packRes _ _, ?_⟩
    have hmember : maskHas mask (deviceId s.seq.cmd) = true := (r.member mask rfl).2 (.inr hl4)
    rwa [State.complete, deviceId_packRes]

/-! ## A whole capture -/

/-- D carries the host's byte while the block does not drive it (R45). -/
theorem levelD_of_host {s : State} {b : Byte} (hdir : s.regs.ctrl.ddir = false) (hdh : s.lines.dh = some b) : levelD s = b :=
  (dataBusLevel s b).2.1 hdir hdh

/-- A host move at the head of the schedule. -/
theorem step_host {s : State} {m : HostMove} {r : List Move} (hs : s.sched = .host m :: r) (hf : s.regs.fault = 0#8) :
    step s = hostMove m { s with sched := r } := by
  have hpop : s.popped = { s with sched := r } := by simp [State.popped, hs]
  simp only [step_eq s hf, nextMove, hs, agentStep, hpop]

/-- The host's release of CS, with the byte on D at the edge. -/
theorem step_releaseCS {s : State} {r : List Move} (hs : s.sched = .host .toggleCS :: r) (hf : s.regs.fault = 0#8)
    (hcs : s.lines.csH = true) : step s = .next (State.logLine .cs false { s with sched := r, lines.csH := false }) := by
  rw [step_host hs hf]
  simp only [hostMove, hcs, Bool.not_true]

/-- A run through SEQ's step at a line of the running operation. -/
theorem run_line {s t : State} {i : Instr} {r : List Move} (n : Nat) (hs : s.sched = .seq :: r) (hf : s.regs.fault = 0#8)
    (hp : s.seq.phase ≠ .idle) (hc : s.current = some i) (he : exec i { s with sched := r } = .next t) :
    core.run (n + 1) s = core.run n t :=
  run_succ n ((step_line hs hf hp hc).trans he)

/-- The descriptor that SEQ latched is the operation's. -/
def Seq.Latched (i : Instr) (q : Seq) : Prop := instrOf q.opc q.imm8 q.buf q.count = some i

section
variable {mask : Byte} {s : State} {r : List Move} (n : Nat) (hf : s.regs.fault = 0#8)
include hf

/-- The issue and line 1 of `wait_command`, in a session that does not drive D, lead to line 2 with the guards up. -/
theorem run_waitCommand_start (hs : s.sched = .seq :: .seq :: r) (hp : s.seq.phase = .idle)
    (hd : decode (s.prog.drop s.pc) = .ok (.waitCommand mask)) (hi : s.regs.ctrl.init = true) (hdir : s.regs.ctrl.ddir = false) :
    ∃ q m, core.run (n + 2) s = core.run n { s with regs.ctrl.jsusp := true, seq := q, draws := m, sched := r } ∧
      q.Latched (.waitCommand mask) ∧ (q.phase = .l2a ∨ q.phase = .l2c) ∧ q.savedJsusp = s.regs.ctrl.jsusp := by
  have hl1 : exec (.waitCommand mask) (State.latch (.waitCommand mask) { s with sched := r }) =
      .next (arrivePoll (State.latch (.waitCommand mask) { s with sched := r }).guardEnter) := by
    rw [exec_waitCommand_l1 rfl]
    exact if_neg (by simp [hdir])
  have hlatched := current_latch (.waitCommand mask) { s with sched := .seq :: r }
  rw [run_succ _ (step_issue hs hf hp hd hi nofun)]
  exact ⟨_, _, run_line n rfl hf (by simp) hlatched hl1, hlatched, arrivePoll_phase _, rfl⟩

variable (hc : s.seq.Latched (.waitCommand mask))
include hc

/-- The two reads of line 2, in either order, accept a member's strobe on an idle bus. -/
theorem run_waitCommand_poll (hs : s.sched = .seq :: .seq :: r) (hp : s.seq.phase = .l2a ∨ s.seq.phase = .l2c)
    (hstrobe : strobe mask (snapshot s) = true) (hidle : busIdle s = true) :
    ∃ q m, core.run (n + 2) s = core.run n { s with seq := q, draws := m, sched := r } ∧
      q.Latched (.waitCommand mask) ∧ q.phase = .l3 ∧ q.cmd = levelD s ∧ q.savedJsusp = s.seq.savedJsusp := by
  rcases hp with hp | hp
  · have hl2a : exec (.waitCommand mask) { s with sched := .seq :: r } =
        .next (((State.drawn 1 { s with sched := .seq :: r }).setSnap (snapshot s)).goto .l2b) := by
      rw [exec_waitCommand_l2a (by exact hp)]
      exact congrArg _ (if_pos hstrobe)
    have hl2b : exec (.waitCommand mask) (((State.drawn 1 { s with sched := r }).setSnap (snapshot s)).goto .l2b) =
        .next ((((State.drawn 1 { s with sched := r }).setSnap (snapshot s)).setCmd (levelD s)).goto .l3) := by
      rw [exec_waitCommand_l2b rfl]
      exact if_pos hidle
    rw [run_line _ hs hf (by simp [hp]) hc hl2a]
    exact ⟨_, _, run_line n rfl hf (by simp) hc hl2b, hc, rfl, rfl, rfl⟩
  · have hl2c : exec (.waitCommand mask) { s with sched := .seq :: r } = .next (State.goto .l2d { s with sched := .seq :: r }) := by
      rw [exec_waitCommand_l2c (by exact hp)]
      exact congrArg _ (if_pos hidle)
    have hl2d : exec (.waitCommand mask) (State.goto .l2d { s with sched := r }) =
        .next ((((State.drawn 1 { s with sched := r }).setSnap (snapshot s)).setCmd (levelD s)).goto .l3) := by
      rw [exec_waitCommand_l2d rfl]
      exact if_pos hstrobe
    rw [run_line _ hs hf (by simp [hp]) hc hl2c]
    exact ⟨_, _, run_line n rfl hf (by simp) hc hl2d, hc, rfl, rfl, rfl⟩

/-- Once CS is released, `wait_command` returns the byte that it accepted. -/
theorem run_waitCommand_finish (hs : s.sched = .seq :: .seq :: r) (hp : s.seq.phase = .l3) (hcs : s.lines.csH = false) :
    core.run 2 s = .next ((State.guardExit { s with sched := r }).complete (.waitCommand mask) s.seq.cmd statusOk) := by
  have hl3 : exec (.waitCommand mask) { s with sched := .seq :: r } = .next (State.goto .l4 { s with sched := .seq :: r }) := by
    rw [exec_waitCommand_l3 (by exact hp)]
    exact congrArg _ (if_neg (by simp [hcs]))
  rw [run_line 1 hs hf (by simp [hp]) hc hl3]
  exact run_line 0 rfl hf (by simp) hc (exec_waitCommand_l4 rfl)

/-- The host releases CS, with the accepted byte still on D, and `wait_command` returns that byte. -/
theorem run_waitCommand_release (hs : s.sched = .host .toggleCS :: .seq :: .seq :: r) (hp : s.seq.phase = .l3)
    (hcs : s.lines.csH = true) (hdir : s.regs.ctrl.ddir = false) (hdh : s.lines.dh = some s.seq.cmd) :
    core.run 3 s = .next { s with
      pc := s.pc + 1
      regs.ctrl.jsusp := s.seq.savedJsusp
      regs.res := packRes statusOk s.seq.cmd
      seq.phase := .idle
      log := s.log ++ [Event.line .cs false s.seq.cmd, Event.done s.pc 0x30#8 (packRes statusOk s.seq.cmd)]
      lines.csH := false
      draws := s.draws + 1
      sched := r } := by
  have hbyte : levelD { s with lines.csH := false } = s.seq.cmd := levelD_of_host hdir hdh
  have hlog (e : Event) : s.log ++ [Event.line .cs false s.seq.cmd, e] =
      (s.log ++ [Event.line .cs false (levelD { s with lines.csH := false })]) ++ [e] := by
    rw [hbyte, List.append_assoc]
    rfl
  rw [run_succ 2 (step_releaseCS hs hf hcs), hlog]
  exact run_waitCommand_finish hf hc rfl hp rfl

/-- From line 2 to the end: the poll in the drawn order, the host's release of CS, and the completion. -/
theorem run_waitCommand_capture {d : Byte} (hs : s.sched = .seq :: .seq :: .host .toggleCS :: .seq :: .seq :: r)
    (hp : s.seq.phase = .l2a ∨ s.seq.phase = .l2c) (hdir : s.regs.ctrl.ddir = false) (hdh : s.lines.dh = some d)
    (hcs : s.lines.csH = true) (ha1 : s.lines.a1H = true) (hmask : mask.getLsbD (d.extractLsb' 5 3).toNat = true)
    (hidle : busIdle s = true) :
    ∃ q m, core.run 5 s = .next { s with
        pc := s.pc + 1
        regs.ctrl.jsusp := s.seq.savedJsusp
        regs.res := packRes statusOk d
        seq := q
        log := s.log ++ [Event.line .cs false d, Event.done s.pc 0x30#8 (packRes statusOk d)]
        lines.csH := false
        draws := m
        sched := r } ∧
      q.phase = .idle := by
  have hbyte : levelD s = d := levelD_of_host hdir hdh
  have hstrobe : strobe mask (snapshot s) = true := by
    rw [strobe_snapshot_iff, hbyte]
    exact ⟨hcs, ha1, hmask⟩
  obtain ⟨q, m, hpoll, hlatched, hq, hcmd, hsaved⟩ := run_waitCommand_poll 3 hf hc hs hp hstrobe hidle
  obtain rfl : q.cmd = d := hcmd.trans hbyte
  rw [hpoll, ← hsaved]
  exact ⟨_, _, run_waitCommand_release hf hlatched rfl hq hcs hdir hdh, rfl⟩

end

/-- Settles O26: the issue and line 1, then the capture from line 2 on, which restores `JSUSP` to what line 1 saved. -/
theorem waitCommandCapturesTheByte : Obligations.WaitCommandCapturesTheByte := by
  intro mask d s rest hf hp hd hi hdir hdh hcs ha1 hmask hirq hreq hack hs
  obtain ⟨q, m, hstart, hc, hq, hsaved⟩ := run_waitCommand_start 5 hf hs hp hd hi hdir
  have hidle : busIdle s = true := (busIdle_iff s).mpr ⟨hirq, hreq, hack⟩
  obtain ⟨q', m', hcapture, hq'⟩ := run_waitCommand_capture
    (s := { s with regs.ctrl.jsusp := true, seq := q, draws := m, sched := .seq :: .seq :: .host .toggleCS :: .seq :: .seq :: rest })
    hf hc rfl hq hdir hdh hcs ha1 hmask hidle
  rw [hsaved] at hcapture
  exact ⟨_, hstart.trans hcapture, rfl, rfl, hq', rfl, rfl, rfl, rfl, rfl, rfl, rfl⟩

end Sys2Proof.Machine
end

section
/-! PROOF. The lines of the interrupt byte operations (44_interrupt_byte_protocol R220 to R223). -/

namespace Sys2Proof.Machine

/-- The wait for CS asserted polls the host's line (10_state R42). -/
theorem waitUntil_csAsserted (s act still : State) :
    waitUntil (asserted (levelCS s)) act still = .next (if s.lines.csH then act else still) := by
  cases h : s.lines.csH <;> simp [waitUntil, asserted, levelCS, h]

/-- The wait for CS released polls the host's line (10_state R42). -/
theorem waitUntil_csReleased (s act still : State) :
    waitUntil (!asserted (levelCS s)) act still = .next (if s.lines.csH then still else act) := by
  cases h : s.lines.csH <;> simp [waitUntil, asserted, levelCS, h]

/-! ## `send_byte` (R220) -/

section
variable {b : Byte} {s : State}

theorem exec_sendByte_l1 (hp : s.seq.phase = .l1) : exec (.sendByte b) s =
    if s.lines.dh.isSome then raise .busContention s else .next ((s.guardEnter.setDdir true).goto .l2) := by
  simp only [exec, execSendByte, hp]

/-- Line 1 while the host does not drive D. -/
theorem exec_sendByte_acquire (hp : s.seq.phase = .l1) (hdh : s.lines.dh = none) :
    exec (.sendByte b) s = .next ((s.guardEnter.setDdir true).goto .l2) :=
  (exec_sendByte_l1 hp).trans (if_neg (by simp [hdh]))

theorem exec_sendByte_l2 (hp : s.seq.phase = .l2) : exec (.sendByte b) s = .next ((s.setDout b).goto .l3) := by
  simp only [exec, execSendByte, hp]

theorem exec_sendByte_l3 (hp : s.seq.phase = .l3) : exec (.sendByte b) s = .next ((s.setIrqPull true).goto .l4) := by
  simp only [exec, execSendByte, hp]

theorem exec_sendByte_l4 (hp : s.seq.phase = .l4) :
    exec (.sendByte b) s = .next (if s.lines.csH then s.goto .l5 else s) := by
  simp only [exec, execSendByte, hp, waitUntil_csAsserted]

theorem exec_sendByte_l5 (hp : s.seq.phase = .l5) :
    exec (.sendByte b) s = .next (if s.lines.csH then s else s.goto .l6) := by
  simp only [exec, execSendByte, hp, waitUntil_csReleased]

/-- The poll that sees CS released. -/
theorem exec_sendByte_released (hp : s.seq.phase = .l5) (hcs : s.lines.csH = false := by simp [*]) :
    exec (.sendByte b) s = .next (s.goto .l6) :=
  (exec_sendByte_l5 hp).trans (congrArg _ (if_neg (by simp [hcs])))

theorem exec_sendByte_l6 (hp : s.seq.phase = .l6) : exec (.sendByte b) s = .next (s.finish (.sendByte b) 0#8 statusOk) := by
  simp only [exec, execSendByte, hp]

end

/-- Settles O27: line 1 by whether the host drives D, and the rule of each later line. -/
theorem sendByteLines : Obligations.SendByteLines := by
  intro b s
  refine ⟨?encoding, ?contended, exec_sendByte_acquire, exec_sendByte_l2, exec_sendByte_l3, exec_sendByte_l4, exec_sendByte_l5,
    exec_sendByte_l6⟩
  case encoding =>
    rw [encode_of_no_bufferWords rfl, packW0_eq_or]
    simp [Instr.opcode, Instr.imm]
  case contended => exact fun hp hdh => (exec_sendByte_l1 hp).trans (if_pos (Option.isSome_iff_ne_none.mpr hdh))

/-! ## `send_bytes` (R221) -/

section
variable {buf count : Word} {s : State}

theorem exec_sendBytes_l1 (hp : s.seq.phase = .l1) :
    exec (.sendBytes buf count) s = .next ((s.guardEnter.setIdx 0).arriveByte count .l8) := by
  simp only [exec, execSendBytes, hp]

theorem exec_sendBytes_l2 (hp : s.seq.phase = .l2) : exec (.sendBytes buf count) s =
    if s.lines.dh.isSome then raise .busContention s else .next ((s.setDdir true).goto .l3) := by
  simp only [exec, execSendBytes, hp]

/-- Line 2 while the host does not drive D. -/
theorem exec_sendBytes_acquire (hp : s.seq.phase = .l2) (hdh : s.lines.dh = none) :
    exec (.sendBytes buf count) s = .next ((s.setDdir true).goto .l3) :=
  (exec_sendBytes_l2 hp).trans (if_neg (by simp [hdh]))

theorem exec_sendBytes_l3 (hp : s.seq.phase = .l3) (ha : admitted s.params (effAddr buf s.seq.idx) = true) :
    exec (.sendBytes buf count) s = .next ((s.setDout (s.mem.read (effAddr buf s.seq.idx))).goto .l4) := by
  simp only [exec, execSendBytes, hp, waitUntil_eq, ha, if_true]

theorem exec_sendBytes_l4 (hp : s.seq.phase = .l4) :
    exec (.sendBytes buf count) s = .next ((s.setIrqPull true).goto .l5) := by
  simp only [exec, execSendBytes, hp]

theorem exec_sendBytes_l5 (hp : s.seq.phase = .l5) :
    exec (.sendBytes buf count) s = .next (if s.lines.csH then s.goto .l6 else s) := by
  simp only [exec, execSendBytes, hp, waitUntil_csAsserted]

theorem exec_sendBytes_l6 (hp : s.seq.phase = .l6) :
    exec (.sendBytes buf count) s = .next (if s.lines.csH then s else s.goto .l7) := by
  simp only [exec, execSendBytes, hp, waitUntil_csReleased]

/-- The poll that sees CS released. -/
theorem exec_sendBytes_released (hp : s.seq.phase = .l6) (hcs : s.lines.csH = false := by simp [*]) :
    exec (.sendBytes buf count) s = .next (s.goto .l7) :=
  (exec_sendBytes_l6 hp).trans (congrArg _ (if_neg (by simp [hcs])))

theorem exec_sendBytes_l7 (hp : s.seq.phase = .l7) : exec (.sendBytes buf count) s =
    .next ((((s.setDdir false).setIrqPull false).setIdx (s.seq.idx + 1)).arriveByte count .l8) := by
  simp only [exec, execSendBytes, hp]

theorem exec_sendBytes_l8 (hp : s.seq.phase = .l8) :
    exec (.sendBytes buf count) s = .next (s.finish (.sendBytes buf count) 0#8 statusOk) := by
  simp only [exec, execSendBytes, hp]

end

/-- Settles O29: line 2 by whether the host drives D, and the rule of each other line. -/
theorem sendBytesLines : Obligations.SendBytesLines := by
  intro buf count s arrive
  refine ⟨?encoding, exec_sendBytes_l1, ?contended, exec_sendBytes_acquire, exec_sendBytes_l3, exec_sendBytes_l4,
    exec_sendBytes_l5, exec_sendBytes_l6, exec_sendBytes_l7, exec_sendBytes_l8⟩
  case encoding =>
    rw [encode_of_bufferWords rfl, packW0_eq_or]
    simp [Instr.opcode, Instr.imm]
  case contended => exact fun hp hdh => (exec_sendBytes_l2 hp).trans (if_pos (Option.isSome_iff_ne_none.mpr hdh))

/-! ## `read_byte` (R222) -/

section
variable {s : State}

theorem exec_readByte_l1 (hp : s.seq.phase = .l1) :
    exec .readByte s = if s.regs.ctrl.ddir then raise .busOwnership s else .next (s.guardEnter.goto .l2) := by
  simp only [exec, execReadByte, hp]

/-- Line 1 while the block does not drive D. -/
theorem exec_readByte_enter (hp : s.seq.phase = .l1) (hdir : s.regs.ctrl.ddir = false) :
    exec .readByte s = .next (s.guardEnter.goto .l2) :=
  (exec_readByte_l1 hp).trans (if_neg (by simp [hdir]))

theorem exec_readByte_l2 (hp : s.seq.phase = .l2) : exec .readByte s = .next ((s.setIrqPull true).goto .l3) := by
  simp only [exec, execReadByte, hp]

theorem exec_readByte_l3 (hp : s.seq.phase = .l3) : exec .readByte s = .next (if s.lines.csH then s.goto .l4 else s) := by
  simp only [exec, execReadByte, hp, waitUntil_csAsserted]

theorem exec_readByte_l4 (hp : s.seq.phase = .l4) :
    exec .readByte s = .next (if s.lines.csH then s else s.sampleD.goto .l5) := by
  simp only [exec, execReadByte, hp, waitUntil_csReleased]

/-- The poll that sees CS released takes the sample. -/
theorem exec_readByte_released (hp : s.seq.phase = .l4) (hcs : s.lines.csH = false := by simp [*]) :
    exec .readByte s = .next (s.sampleD.goto .l5) :=
  (exec_readByte_l4 hp).trans (congrArg _ (if_neg (by simp [hcs])))

theorem exec_readByte_l5 (hp : s.seq.phase = .l5) : exec .readByte s = .next (s.finish .readByte s.seq.v statusOk) := by
  simp only [exec, execReadByte, hp]

end

/-- Settles O31: line 1 by whether the block drives D, line 4 by the level of CS, and the rule of each other line. -/
theorem readByteLines : Obligations.ReadByteLines := by
  intro s
  refine ⟨rfl, ?driving, exec_readByte_enter, exec_readByte_l2, exec_readByte_l3, ?asserted, ?released, exec_readByte_l5⟩
  case driving => exact fun hp hd => (exec_readByte_l1 hp).trans (if_pos hd)
  case asserted => exact fun hp hcs => (exec_readByte_l4 hp).trans (congrArg _ (if_pos hcs))
  case released => exact fun hp hcs => ⟨_, exec_readByte_released hp hcs, rfl⟩

/-! ## `read_bytes` (R223) -/

section
variable {buf count : Word} {s : State}

theorem exec_readBytes_l1 (hp : s.seq.phase = .l1) : exec (.readBytes buf count) s =
    if s.regs.ctrl.ddir then raise .busOwnership s else .next ((s.guardEnter.setIdx 0).arriveByte count .l7) := by
  simp only [exec, execReadBytes, hp]

/-- Line 1 while the block does not drive D. -/
theorem exec_readBytes_enter (hp : s.seq.phase = .l1) (hdir : s.regs.ctrl.ddir = false) :
    exec (.readBytes buf count) s = .next ((s.guardEnter.setIdx 0).arriveByte count .l7) :=
  (exec_readBytes_l1 hp).trans (if_neg (by simp [hdir]))

theorem exec_readBytes_l2 (hp : s.seq.phase = .l2) :
    exec (.readBytes buf count) s = .next ((s.setIrqPull true).goto .l3) := by
  simp only [exec, execReadBytes, hp]

theorem exec_readBytes_l3 (hp : s.seq.phase = .l3) :
    exec (.readBytes buf count) s = .next (if s.lines.csH then s.goto .l4 else s) := by
  simp only [exec, execReadBytes, hp, waitUntil_csAsserted]

theorem exec_readBytes_l4 (hp : s.seq.phase = .l4) :
    exec (.readBytes buf count) s = .next (if s.lines.csH then s else s.sampleD.goto .l5) := by
  simp only [exec, execReadBytes, hp, waitUntil_csReleased]

/-- The poll that sees CS released takes the sample. -/
theorem exec_readBytes_released (hp : s.seq.phase = .l4) (hcs : s.lines.csH = false := by simp [*]) :
    exec (.readBytes buf count) s = .next (s.sampleD.goto .l5) :=
  (exec_readBytes_l4 hp).trans (congrArg _ (if_neg (by simp [hcs])))

theorem exec_readBytes_l5 (hp : s.seq.phase = .l5) (ha : admitted s.params (effAddr buf s.seq.idx) = true) :
    exec (.readBytes buf count) s = .next ((s.store (effAddr buf s.seq.idx) s.seq.v).goto .l6) := by
  simp only [exec, execReadBytes, hp, waitUntil_eq, ha, if_true]

theorem exec_readBytes_l6 (hp : s.seq.phase = .l6) : exec (.readBytes buf count) s =
    .next (((s.setIrqPull false).setIdx (s.seq.idx + 1)).arriveByte count .l7) := by
  simp only [exec, execReadBytes, hp]

theorem exec_readBytes_l7 (hp : s.seq.phase = .l7) :
    exec (.readBytes buf count) s = .next (if s.lines.csH then s else s.goto .l8) := by
  simp only [exec, execReadBytes, hp, waitUntil_csReleased]

/-- The disconnect guard's poll that sees CS released. -/
theorem exec_readBytes_disconnected (hp : s.seq.phase = .l7) (hcs : s.lines.csH = false := by simp [*]) :
    exec (.readBytes buf count) s = .next (s.goto .l8) :=
  (exec_readBytes_l7 hp).trans (congrArg _ (if_neg (by simp [hcs])))

theorem exec_readBytes_l8 (hp : s.seq.phase = .l8) :
    exec (.readBytes buf count) s = .next (s.finish (.readBytes buf count) 0#8 statusOk) := by
  simp only [exec, execReadBytes, hp]

end

/-- Settles O33: line 1 by whether the block drives D, line 4 by the level of CS, the store of line 5 by the read-over-write rule,
and the rule of each other line. -/
theorem readBytesLines : Obligations.ReadBytesLines := by
  intro buf count s arrive
  refine ⟨?encoding, ?driving, exec_readBytes_enter, exec_readBytes_l2, exec_readBytes_l3, ?asserted, ?released, ?store,
    exec_readBytes_l6, exec_readBytes_l7, exec_readBytes_l8⟩
  case encoding =>
    rw [encode_of_bufferWords rfl, packW0_eq_or]
    simp [Instr.opcode, Instr.imm]
  case driving => exact fun hp hd => (exec_readBytes_l1 hp).trans (if_pos hd)
  case asserted => exact fun hp hcs => (exec_readBytes_l4 hp).trans (congrArg _ (if_pos hcs))
  case released => exact fun hp hcs => ⟨_, exec_readBytes_released hp hcs, rfl⟩
  case store =>
    intro hp ha
    refine ⟨_, exec_readBytes_l5 hp ha, ?_, fun a hne => ?_, rfl⟩
    · exact (Memory.read_write _ _ _ _).trans (if_pos rfl)
    · exact (Memory.read_write _ _ _ _).trans (if_neg hne)

end Sys2Proof.Machine
end

section
/-! PROOF. What the runs of a whole interrupt byte operation share (44_interrupt_byte_protocol): a run in parts, the moves of the
host with the byte on D, and the arrival at the next byte. -/

namespace Sys2Proof.Machine

/-- The state with the moves to come. Like the other updates it has a name, so that the states of a run stay small terms. -/
def State.withSched (r : List Move) (s : State) : State := { s with sched := r }

@[simp] theorem withSched_regs (r : List Move) (s : State) : (s.withSched r).regs = s.regs := rfl
@[simp] theorem withSched_seq (r : List Move) (s : State) : (s.withSched r).seq = s.seq := rfl
@[simp] theorem withSched_params (r : List Move) (s : State) : (s.withSched r).params = s.params := rfl
@[simp] theorem withSched_lines (r : List Move) (s : State) : (s.withSched r).lines = s.lines := rfl
@[simp] theorem withSched_current (r : List Move) (s : State) : (s.withSched r).current = s.current := rfl

/-! ## A line's updates keep the running operation -/

@[simp] theorem current_setDdir (v : Bool) (s : State) : (s.setDdir v).current = s.current := rfl
@[simp] theorem current_setIrqPull (v : Bool) (s : State) : (s.setIrqPull v).current = s.current := rfl
@[simp] theorem current_setDout (b : Byte) (s : State) : (s.setDout b).current = s.current := rfl
@[simp] theorem current_store (a : Nat) (b : Byte) (s : State) : (s.store a b).current = s.current := rfl
@[simp] theorem current_sampleD (s : State) : s.sampleD.current = s.current := rfl

/-! ## Runs in parts -/

/-- A run that goes on from the end of a shorter one. -/
theorem run_add {s t : State} {m : Nat} (n : Nat) (h : core.run m s = .next t) : core.run (n + m) s = core.run n t := by
  induction m generalizing s with
  | zero =>
    cases h
    rfl
  | succ m ih =>
    cases hu : core.step s with
    | next u =>
      rw [run_succ m hu] at h
      exact (run_succ (n + m) hu).trans (ih h)
    | fault x => simp [Host.Core.run, hu] at h
    | refused x => simp [Host.Core.run, hu] at h

section
variable {i : Instr} {s t : State} {r : List Move} {b : Byte}

/-- The issue of an operation in a session, and its line 1. -/
theorem run_start (hs : s.sched = .seq :: .seq :: r) (hf : s.regs.fault = 0#8) (hp : s.seq.phase = .idle)
    (hd : decode (s.prog.drop s.pc) = .ok i) (hi : s.regs.ctrl.init = true) (hb : ∀ mask, i ≠ .beginOp mask)
    (hl1 : exec i (State.latch i { s with sched := r }) = .next t) : core.run 2 s = .next t := by
  rw [run_succ 1 (step_issue hs hf hp hd hi hb)]
  exact run_line 0 rfl hf (by simp) (current_latch i { s with sched := .seq :: r }) hl1

/-- SEQ's step at a line, from a state that the context knows enough about. -/
theorem run_nextLine (n : Nat) (he : exec i s.popped = .next t) (hm : nextMove s = .seq := by rfl)
    (hp : s.seq.phase ≠ .idle := by nofun) (hf : s.regs.fault = 0#8 := by simp [*])
    (hc : s.current = some i := by simp; assumption) : core.run (n + 1) s = core.run n t :=
  run_succ n ((stepRunsTheDecodedOperation.2 s i hf hm hp hc).trans he)

/-! ## The host's moves -/

/-- A written latch drives D while the block alone does (R45). -/
theorem dataDriven_of_block (hdir : s.regs.ctrl.ddir = true) (hdh : s.lines.dh = none) (hdout : s.regs.dout = .holds b) :
    dataDriven s = some b := by
  simp [dataDriven, hdir, hdh, hdout]

/-- The host's byte drives D while the block does not (R45). -/
theorem dataDriven_of_host (hdir : s.regs.ctrl.ddir = false) (hdh : s.lines.dh = some b) : dataDriven s = some b := by
  simp [dataDriven, hdir, hdh]

/-- D carries the byte that drives it (R45). -/
theorem levelD_of_driven (h : dataDriven s = some b) : levelD s = b := by
  simp [levelD, h]

/-- The host's edge of CS to the level `a`, with the byte `b` on D. -/
def State.csEdge (a : Bool) (b : Byte) (s : State) : State :=
  { s with lines.csH := a, log := s.log ++ [.line .cs a b], draws := s.draws + 1 }

@[simp] theorem csEdge_regs (a : Bool) (b : Byte) (s : State) : (s.csEdge a b).regs = s.regs := rfl
@[simp] theorem csEdge_seq (a : Bool) (b : Byte) (s : State) : (s.csEdge a b).seq = s.seq := rfl
@[simp] theorem csEdge_current (a : Bool) (b : Byte) (s : State) : (s.csEdge a b).current = s.current := rfl

theorem hostMove_toggleCS {a : Bool} (hcs : s.lines.csH = !a) (hb : dataDriven s = some b) :
    hostMove .toggleCS s = .next (s.csEdge a b) := by
  obtain rfl : levelD { s with lines.csH := a } = b := levelD_of_driven hb
  simp only [hostMove, hcs, Bool.not_not]
  rfl

theorem run_csEdge (n : Nat) (a : Bool) (hb : dataDriven s = some b) (hm : nextMove s = .host .toggleCS := by rfl)
    (hcs : s.lines.csH = !a := by rfl) (hf : s.regs.fault = 0#8 := by simp [*]) :
    core.run (n + 1) s = core.run n (s.popped.csEdge a b) := by
  refine run_succ n ?_
  rw [step_eq s hf, hm]
  exact hostMove_toggleCS hcs hb

/-- The host's byte put on D. -/
def State.hostDrives (b : Byte) (s : State) : State :=
  { s with lines.dh := some b, log := s.log ++ [.data (some b) b], draws := s.draws + 1 }

@[simp] theorem hostDrives_regs (b : Byte) (s : State) : (s.hostDrives b).regs = s.regs := rfl
@[simp] theorem hostDrives_seq (b : Byte) (s : State) : (s.hostDrives b).seq = s.seq := rfl
@[simp] theorem hostDrives_params (b : Byte) (s : State) : (s.hostDrives b).params = s.params := rfl
@[simp] theorem hostDrives_lines (b : Byte) (s : State) : (s.hostDrives b).lines = { s.lines with dh := some b } := rfl
@[simp] theorem hostDrives_current (b : Byte) (s : State) : (s.hostDrives b).current = s.current := rfl

theorem hostMove_drive (hdir : s.regs.ctrl.ddir = false) : hostMove (.data (some b)) s = .next (s.hostDrives b) := by
  have hbyte : levelD { s with lines.dh := some b } = b := levelD_of_host hdir rfl
  refine (if_neg (by simp [hdir])).trans ?_
  rw [hbyte]
  rfl

theorem run_hostDrives (n : Nat) (hm : nextMove s = .host (.data (some b)) := by rfl)
    (hf : s.regs.fault = 0#8 := by simp [*]) (hdir : s.regs.ctrl.ddir = false := by simp [*]) :
    core.run (n + 1) s = core.run n (s.popped.hostDrives b) := by
  refine run_succ n ?_
  rw [step_eq s hf, hm]
  exact hostMove_drive hdir

/-- The events of a CS cycle with the byte on D at both edges (R34). -/
def csCycleEvents (b : Byte) : List Event := [.line .cs true b, .line .cs false b]

/-- The host's CS cycle with the byte `b` on D, after which SEQ is at line `q`. -/
def State.csCycle (b : Byte) (q : Phase) (s : State) : State :=
  { s with seq.phase := q, log := s.log ++ csCycleEvents b, draws := s.draws + 2 }

@[simp] theorem csCycle_regs (b : Byte) (q : Phase) (s : State) : (s.csCycle b q).regs = s.regs := rfl
@[simp] theorem csCycle_seq (b : Byte) (q : Phase) (s : State) : (s.csCycle b q).seq = { s.seq with phase := q } := rfl
@[simp] theorem csCycle_params (b : Byte) (q : Phase) (s : State) : (s.csCycle b q).params = s.params := rfl
@[simp] theorem csCycle_lines (b : Byte) (q : Phase) (s : State) : (s.csCycle b q).lines = s.lines := rfl
@[simp] theorem csCycle_current (b : Byte) (q : Phase) (s : State) : (s.csCycle b q).current = s.current := rfl

/-- At the wait for the assertion of CS, line `p`, the host's cycle lets SEQ go on to the wait for its release, line `q`. -/
theorem run_csCycle {p q : Phase} (n : Nat)
    (hwait : ∀ t, t.seq.phase = p → exec i t = .next (if t.lines.csH then t.goto q else t))
    (hb : dataDriven s = some b) (hs : s.sched = .host .toggleCS :: .seq :: .host .toggleCS :: r := by rfl)
    (hp : s.seq.phase = p := by rfl) (hne : p ≠ .idle := by nofun) (hcs : s.lines.csH = false := by simp [*])
    (hf : s.regs.fault = 0#8 := by simp [*]) (hc : s.current = some i := by simp; assumption) :
    core.run (n + 3) s = core.run n (s.popped.popped.popped.csCycle b q) := by
  have hgo (t : State) (hp : t.seq.phase = p) (hcs : t.lines.csH = true) : exec i t = .next (t.goto q) :=
    (hwait t hp).trans (congrArg _ (if_pos hcs))
  have hlines : { s.lines with csH := false } = s.lines := by rw [← hcs]
  have hlog : s.log ++ csCycleEvents b = s.log ++ [.line .cs true b] ++ [.line .cs false b] := by simp [csCycleEvents]
  refine Eq.trans (run_csEdge _ true hb (by rw [nextMove, hs]) hcs) ?_
  refine Eq.trans (run_nextLine _ (hgo _ hp rfl) (by simp [nextMove, State.csEdge, hs]) (by simp [hp, hne])) ?_
  refine Eq.trans (run_csEdge n false hb (by simp [nextMove, State.csEdge, hs])) ?_
  simp only [State.csCycle, State.csEdge, State.popped_log, hlog]
  conv_rhs => rw [State.popped_lines, State.popped_lines, State.popped_lines, ← hlines]
  rfl

end

/-! ## The end of a transfer -/

theorem finish_regs (i : Instr) (value status : Byte) (s : State) : (s.finish i value status).regs = { s.regs with
    ctrl := ⟨s.regs.ctrl.init, s.seq.savedJsusp, false, false, false⟩, res := packRes status value } := rfl

theorem finish_log (i : Instr) (value status : Byte) (s : State) :
    (s.finish i value status).log = s.log ++ [.done s.pc i.opcode (packRes status value)] := rfl

/-- The arrival at the next byte. -/
theorem arriveByte_next {count : Word} {s : State} (h : s.seq.idx ≠ count.toNat) (done : Phase) :
    s.arriveByte count done = s.goto .l2 := congrArg s.goto (if_neg h)

/-- The arrival past the last byte. -/
theorem arriveByte_done {count : Word} {s : State} (h : s.seq.idx = count.toNat) (done : Phase) :
    s.arriveByte count done = s.goto done := congrArg s.goto (if_pos h)

end Sys2Proof.Machine
end

section
/-! PROOF. Whole transfers to the host (44_interrupt_byte_protocol R220, R221): one byte, and the bytes of a buffer by induction on
their number. -/

namespace Sys2Proof.Machine

/-! ## `send_byte` (R220) -/

section
variable {b : Byte} {s : State} {r : List Move}

/-- From line 2 of `send_byte` to its end, with one CS cycle of the host at the wait. -/
theorem run_sendByte_rest (hf : s.regs.fault = 0#8) (hc : s.current = some (.sendByte b)) (hdir : s.regs.ctrl.ddir = true)
    (hdh : s.lines.dh = none) (hcs : s.lines.csH = false) :
    core.run 7 ((s.goto .l2).withSched ([.seq, .seq, .host .toggleCS, .seq, .host .toggleCS, .seq, .seq] ++ r)) =
    .next (State.finish (.sendByte b) 0#8 statusOk { s with
      regs.dout := .holds b, log := s.log ++ csCycleEvents b, draws := s.draws + 2, sched := r }) := by
  refine Eq.trans (run_nextLine 6 (exec_sendByte_l2 rfl)) ?_
  refine Eq.trans (run_nextLine 5 (exec_sendByte_l3 rfl)) ?_
  refine Eq.trans (run_csCycle 2 (fun _ => exec_sendByte_l4) (dataDriven_of_block hdir hdh rfl)) ?_
  refine Eq.trans (run_nextLine 1 (exec_sendByte_released rfl)) ?_
  refine Eq.trans (run_nextLine 0 (exec_sendByte_l6 rfl)) ?_
  simp only [Host.Core.run, State.finish, State.complete, State.guardExit, State.safeRelease, State.csCycle, State.goto,
    State.popped, State.withSched, State.setDout, State.setIrqPull]
  rfl

/-- Settles O28: the issue and line 1, then the rest, which restores `JSUSP` to what line 1 saved. -/
theorem sendByteDeliversTheByte : Obligations.SendByteDeliversTheByte := by
  intro b s rest hf hp hd hi hdh hcs hs
  have hstart := run_start hs hf hp hd hi nofun (exec_sendByte_acquire rfl hdh)
  have hrest := run_sendByte_rest (b := b) (r := rest) (s := (s.latch (.sendByte b)).guardEnter.setDdir true) hf rfl rfl hdh hcs
  refine ⟨_, (run_add 7 hstart).trans hrest, ?_, rfl, rfl, rfl, rfl, rfl, rfl, rfl, ?_⟩
  · simp [finish_regs, hi, packRes, statusOk]
  · simp [finish_log, csCycleEvents, Instr.opcode, packRes, statusOk]

end

/-! ## `send_bytes` (R221) -/

/-- The events of the CS cycles for the bytes `i` to `i + k - 1` of a buffer. -/
def sentEvents (m : Memory) (buf : Word) (i k : Nat) : List Event :=
  (List.range' i k).flatMap fun j => csCycleEvents (m.read (effAddr buf j))

theorem sentEvents_succ (m : Memory) (buf : Word) (i k : Nat) :
    sentEvents m buf i (k + 1) = csCycleEvents (m.read (effAddr buf i)) ++ sentEvents m buf (i + 1) k := by
  simp only [sentEvents, List.range'_succ, List.flatMap_cons]

/-- The state once the host has taken byte `I` of the buffer. -/
def State.byteSent (buf : Word) (s : State) : State :=
  { s with
    regs.ctrl.ddir := false
    regs.ctrl.irqPull := false
    regs.dout := .holds (s.mem.read (effAddr buf s.seq.idx))
    seq.idx := s.seq.idx + 1
    log := s.log ++ csCycleEvents (s.mem.read (effAddr buf s.seq.idx))
    draws := s.draws + 2 }

section
variable {buf count : Word} {s : State} {r : List Move}

section
variable (hf : s.regs.fault = 0#8) (hc : s.current = some (.sendBytes buf count)) (hdh : s.lines.dh = none)
  (hcs : s.lines.csH = false)
include hf hc hdh hcs

/-- One byte of `send_bytes`, with one CS cycle of the host at the wait. -/
theorem run_exchangeOut (n : Nat) (hadm : admitted s.params (effAddr buf s.seq.idx) = true) :
    core.run (n + 8) ((s.goto .l2).withSched (exchangeOut ++ r)) =
      core.run n (((s.byteSent buf).arriveByte count .l8).withSched r) := by
  refine Eq.trans (run_nextLine (n + 7) (exec_sendBytes_acquire rfl hdh)) ?_
  refine Eq.trans (run_nextLine (n + 6) (exec_sendBytes_l3 rfl (by simpa using hadm))) ?_
  refine Eq.trans (run_nextLine (n + 5) (exec_sendBytes_l4 rfl)) ?_
  refine Eq.trans (run_csCycle (n + 2) (fun _ => exec_sendBytes_l5) (dataDriven_of_block rfl hdh rfl)) ?_
  refine Eq.trans (run_nextLine (n + 1) (exec_sendBytes_released rfl)) ?_
  refine Eq.trans (run_nextLine n (exec_sendBytes_l7 rfl)) ?_
  simp only [State.byteSent, State.arriveByte, State.csCycle, State.goto, State.popped, State.withSched, State.setDout,
    State.setIrqPull, State.setDdir, State.setIdx]
  rfl

/-- From an arrival at line 2 with `k` bytes to go to the end of `send_bytes`, with one CS cycle of the host for each byte. -/
theorem run_sendBytes_rest (k : Nat) (hidx : s.seq.idx + k = count.toNat)
    (hadm : ∀ j, j < count.toNat → admitted s.params (effAddr buf j) = true) :
    ∃ d n m, core.run (8 * k + 1) ((s.arriveByte count .l8).withSched ((List.replicate k exchangeOut).flatten ++ .seq :: r)) =
      .next (State.finish (.sendBytes buf count) 0#8 statusOk { s with
        regs.dout := d
        seq.idx := n
        log := s.log ++ sentEvents s.mem buf s.seq.idx k
        draws := m
        sched := r }) := by
  induction k generalizing s with
  | zero =>
    rw [arriveByte_done hidx, sentEvents, List.range'_zero, List.flatMap_nil, List.append_nil]
    exact ⟨s.regs.dout, s.seq.idx, s.draws, run_nextLine 0 (exec_sendBytes_l8 rfl)⟩
  | succ k ih =>
    have hidx' : (s.byteSent buf).seq.idx + k = count.toNat := by
      simp only [State.byteSent]
      omega
    obtain ⟨d, n, m, hrest⟩ := ih (s := s.byteSent buf) hf hc hdh hcs hidx' hadm
    refine ⟨d, n, m, ?_⟩
    rw [arriveByte_next (by omega), List.replicate_succ, List.flatten_cons, List.append_assoc, sentEvents_succ]
    refine (run_exchangeOut hf hc hdh hcs (8 * k + 1) (hadm _ (by omega))).trans (hrest.trans ?_)
    simp only [State.byteSent, List.append_assoc]
    rfl

end

/-- Settles O30: the issue and line 1, then the induction over the bytes of the buffer. -/
theorem sendBytesDeliversTheBuffer : Obligations.SendBytesDeliversTheBuffer := by
  intro buf count s rest hf hp hd hi hdh hcs hadm hs
  have hs' : s.sched = .seq :: .seq :: ((List.replicate count.toNat exchangeOut).flatten ++ .seq :: rest) := by
    rw [hs]
    simp
  have hstart := run_start hs' hf hp hd hi nofun (exec_sendBytes_l1 rfl)
  obtain ⟨d, n, m, hrest⟩ := run_sendBytes_rest (buf := buf) (count := count) (r := rest)
    (s := (s.latch (.sendBytes buf count)).guardEnter.setIdx 0) hf rfl hdh hcs count.toNat (Nat.zero_add _) hadm
  have hlen : 3 + 8 * count.toNat = 8 * count.toNat + 1 + 2 := by omega
  rw [hlen]
  refine ⟨_, (run_add _ hstart).trans hrest, ?_, ?_, rfl, rfl, rfl, rfl, rfl, rfl, rfl, rfl, ?_⟩
  · simp [finish_regs, hi]
  · simp [finish_regs, packRes, statusOk]
  · simp [finish_log, sentEvents, csCycleEvents, Instr.opcode, packRes, statusOk, List.range_eq_range', effAddr]

end

end Sys2Proof.Machine
end

section
/-! PROOF. Whole transfers from the host (44_interrupt_byte_protocol R222, R223): one byte, and the bytes of a buffer by induction
on their list. -/

namespace Sys2Proof.Machine

/-! ## The sample of the read operations -/

/-- `v <- b`, for the byte `b` on D. -/
def State.sampled (b : Byte) (s : State) : State := { s with seq.v := b, draws := s.draws + 1 }

@[simp] theorem sampled_regs (b : Byte) (s : State) : (s.sampled b).regs = s.regs := rfl
@[simp] theorem sampled_seq (b : Byte) (s : State) : (s.sampled b).seq = { s.seq with v := b } := rfl
@[simp] theorem sampled_params (b : Byte) (s : State) : (s.sampled b).params = s.params := rfl
@[simp] theorem sampled_current (b : Byte) (s : State) : (s.sampled b).current = s.current := rfl

theorem sampleD_of_driven {s : State} {b : Byte} (h : dataDriven s = some b) : s.sampleD = s.sampled b := by
  simp only [State.sampleD, State.sampled, levelD_of_driven h]

/-- Line 4 of `read_byte` once CS is released, with the byte `b` on D. -/
theorem exec_readByte_sampled {s : State} {b : Byte} (hp : s.seq.phase = .l4) (hb : dataDriven s = some b)
    (hcs : s.lines.csH = false := by simp [*]) : exec .readByte s = .next ((s.sampled b).goto .l5) := by
  rw [exec_readByte_released hp hcs, sampleD_of_driven hb]

/-- Line 4 of `read_bytes` once CS is released, with the byte `b` on D. -/
theorem exec_readBytes_sampled {buf count : Word} {s : State} {b : Byte} (hp : s.seq.phase = .l4) (hb : dataDriven s = some b)
    (hcs : s.lines.csH = false := by simp [*]) : exec (.readBytes buf count) s = .next ((s.sampled b).goto .l5) := by
  rw [exec_readBytes_released hp hcs, sampleD_of_driven hb]

/-! ## `read_byte` (R222) -/

section
variable {b : Byte} {s : State} {r : List Move}

/-- From line 2 of `read_byte` to its end, with one CS cycle of a host that drives the byte. -/
theorem run_readByte_rest (hf : s.regs.fault = 0#8) (hc : s.current = some .readByte) (hdir : s.regs.ctrl.ddir = false)
    (hdh : s.lines.dh = some b) (hcs : s.lines.csH = false) :
    core.run 6 ((s.goto .l2).withSched ([.seq, .host .toggleCS, .seq, .host .toggleCS, .seq, .seq] ++ r)) =
    .next (State.finish .readByte b statusOk { s with
      seq.v := b, log := s.log ++ csCycleEvents b, draws := s.draws + 3, sched := r }) := by
  refine Eq.trans (run_nextLine 5 (exec_readByte_l2 rfl)) ?_
  refine Eq.trans (run_csCycle 2 (fun _ => exec_readByte_l3) (dataDriven_of_host hdir hdh)) ?_
  refine Eq.trans (run_nextLine 1 (exec_readByte_sampled rfl (dataDriven_of_host hdir hdh))) ?_
  refine Eq.trans (run_nextLine 0 (exec_readByte_l5 rfl)) ?_
  simp only [Host.Core.run, State.finish, State.complete, State.guardExit, State.safeRelease, State.csCycle, State.goto,
    State.popped, State.withSched, State.sampled, State.setIrqPull]
  rfl

/-- Settles O32: the issue and line 1, then the rest, which restores `JSUSP` to what line 1 saved. -/
theorem readByteReturnsTheByte : Obligations.ReadByteReturnsTheByte := by
  intro b s rest hf hp hd hi hdir hdh hcs hs
  have hstart := run_start hs hf hp hd hi nofun (exec_readByte_enter rfl hdir)
  have hrest := run_readByte_rest (r := rest) (s := (s.latch .readByte).guardEnter) hf rfl hdir hdh hcs
  refine ⟨_, (run_add 6 hstart).trans hrest, ?_, rfl, rfl, rfl, rfl, rfl, rfl, rfl, rfl, ?_⟩
  · simp [finish_regs, hi, packRes, statusOk]
  · simp [finish_log, csCycleEvents, Instr.opcode, packRes, statusOk]

end

/-! ## `read_bytes` (R223) -/

/-- Bytes written to memory from an address on. -/
def Memory.writeFrom (m : Memory) (a : Nat) : List Byte → Memory
  | [] => m
  | b :: bs => (m.write a b).writeFrom (a + 1) bs

theorem Memory.read_writeFrom_outside {a x : Nat} {bs : List Byte} (h : x < a ∨ a + bs.length ≤ x) (m : Memory) :
    (m.writeFrom a bs).read x = m.read x := by
  induction bs generalizing m a with
  | nil => rfl
  | cons b bs ih =>
    rw [List.length_cons] at h
    rw [Memory.writeFrom, ih (by omega), Memory.read_write, if_neg (by omega)]

theorem Memory.read_writeFrom_inside {k : Nat} {b : Byte} {bs : List Byte} (h : bs[k]? = some b) (m : Memory) (a : Nat) :
    (m.writeFrom a bs).read (a + k) = b := by
  induction bs generalizing m a k with
  | nil => cases h
  | cons c bs ih =>
    cases k with
    | zero =>
      obtain rfl : c = b := by simpa using h
      rw [Memory.writeFrom, Memory.read_writeFrom_outside (by omega), Memory.read_write, if_pos (Nat.add_zero a)]
    | succ k =>
      rw [Memory.writeFrom, ← Nat.add_assoc, Nat.add_right_comm]
      exact ih h _ _

/-- The state once byte `I` of the buffer has been read from the host. -/
def State.byteRead (buf : Word) (b : Byte) (s : State) : State :=
  { s with
    regs.ctrl.irqPull := false
    seq.idx := s.seq.idx + 1
    seq.v := b
    log := s.log ++ [.data (some b) b] ++ csCycleEvents b
    lines.dh := some b
    mem := s.mem.write (effAddr buf s.seq.idx) b
    draws := s.draws + 4 }

section
variable {buf count : Word} {b : Byte} {s : State} {r : List Move}

section
variable (hf : s.regs.fault = 0#8) (hc : s.current = some (.readBytes buf count)) (hdir : s.regs.ctrl.ddir = false)
  (hcs : s.lines.csH = false)
include hf hc hdir hcs

/-- One byte of `read_bytes`, driven by the host with one CS cycle. -/
theorem run_exchangeIn (n : Nat) (hadm : admitted s.params (effAddr buf s.seq.idx) = true) :
    core.run (n + 8) ((s.goto .l2).withSched (exchangeIn b ++ r)) =
      core.run n (((s.byteRead buf b).arriveByte count .l7).withSched r) := by
  refine Eq.trans (run_nextLine (n + 7) (exec_readBytes_l2 rfl)) ?_
  refine Eq.trans (run_hostDrives (b := b) (n + 6)) ?_
  refine Eq.trans (run_csCycle (n + 3) (fun _ => exec_readBytes_l3) (dataDriven_of_host hdir rfl)) ?_
  refine Eq.trans (run_nextLine (n + 2) (exec_readBytes_sampled rfl (dataDriven_of_host hdir rfl))) ?_
  refine Eq.trans (run_nextLine (n + 1) (exec_readBytes_l5 rfl (by simpa using hadm))) ?_
  refine Eq.trans (run_nextLine n (exec_readBytes_l6 rfl)) ?_
  simp only [State.byteRead, State.arriveByte, State.csCycle, State.goto, State.popped, State.withSched, State.hostDrives,
    State.sampled, State.store, State.setIrqPull, State.setIdx]
  rfl

/-- From an arrival at line 2 to the end of `read_bytes`, with one driven byte and one CS cycle of the host for each byte. -/
theorem run_readBytes_rest (bytes : List Byte) (hidx : s.seq.idx + bytes.length = count.toNat)
    (hadm : ∀ j, j < count.toNat → admitted s.params (effAddr buf j) = true) :
    ∃ n v l lg m, core.run (8 * bytes.length + 2)
        ((s.arriveByte count .l7).withSched (bytes.flatMap exchangeIn ++ .seq :: .seq :: r)) =
      .next (State.finish (.readBytes buf count) 0#8 statusOk { s with
        seq.idx := n
        seq.v := v
        log := lg
        lines := l
        mem := s.mem.writeFrom (effAddr buf s.seq.idx) bytes
        draws := m
        sched := r }) := by
  induction bytes generalizing s with
  | nil =>
    rw [arriveByte_done hidx]
    refine ⟨s.seq.idx, s.seq.v, s.lines, s.log, s.draws, ?_⟩
    exact (run_nextLine 1 (exec_readBytes_disconnected rfl)).trans (run_nextLine 0 (exec_readBytes_l8 rfl))
  | cons b bytes ih =>
    rw [List.length_cons] at hidx
    have hidx' : (s.byteRead buf b).seq.idx + bytes.length = count.toNat := by
      simp only [State.byteRead]
      omega
    obtain ⟨n, v, l, lg, m, hrest⟩ := ih (s := s.byteRead buf b) hf hc hdir hcs hidx' hadm
    refine ⟨n, v, l, lg, m, ?_⟩
    rw [arriveByte_next (by omega), List.flatMap_cons, List.append_assoc]
    exact (run_exchangeIn hf hc hdir hcs (8 * bytes.length + 2) (hadm _ (by omega))).trans hrest

end

/-- Settles O34: the issue and line 1, then the induction over the bytes, which are written in order. -/
theorem readBytesStoresTheBytes : Obligations.ReadBytesStoresTheBytes := by
  intro buf count bytes s rest hf hp hd hi hdir hcs hlen hadm hs
  have hs' : s.sched = .seq :: .seq :: (bytes.flatMap exchangeIn ++ .seq :: .seq :: rest) := by
    rw [hs]
    simp
  have hstart := run_start hs' hf hp hd hi nofun (exec_readBytes_enter rfl hdir)
  obtain ⟨n, v, l, lg, m, hrest⟩ := run_readBytes_rest (buf := buf) (count := count) (r := rest)
    (s := (s.latch (.readBytes buf count)).guardEnter.setIdx 0) hf rfl hdir hcs bytes ((Nat.zero_add _).trans hlen) hadm
  have hmoves : 4 + 8 * count.toNat = 8 * bytes.length + 2 + 2 := by omega
  rw [hmoves]
  refine ⟨_, (run_add _ hstart).trans hrest, ?_, rfl, rfl, rfl, rfl, rfl, fun k b hk => ?_, fun a ha => ?_⟩
  · simp [finish_regs, hi, packRes, statusOk]
  · exact Memory.read_writeFrom_inside hk s.mem buf.toNat
  · exact Memory.read_writeFrom_outside (hlen ▸ ha) s.mem

end

end Sys2Proof.Machine
end

section
/-! PROOF. The lines of the block operations (45_block_transfer R262, R263) with the slot reset and the checks of R176, R177 and
R265. -/

namespace Sys2Proof.Machine

/-! ## The byte slot (R176, R177) -/

/-- `CNT <- 0`, which asserts REQ, on the way to line `p`. -/
def State.openSlot (p : Phase) (s : State) : State := { s with regs.cnt := 0#16, seq.phase := p }

@[simp] theorem openSlot_regs (p : Phase) (s : State) : (s.openSlot p).regs = { s.regs with cnt := 0#16 } := rfl
@[simp] theorem openSlot_seq (p : Phase) (s : State) : (s.openSlot p).seq = { s.seq with phase := p } := rfl
@[simp] theorem openSlot_ovr (p : Phase) (s : State) : (s.openSlot p).ovr = s.ovr := rfl
@[simp] theorem openSlot_params (p : Phase) (s : State) : (s.openSlot p).params = s.params := rfl
@[simp] theorem openSlot_lines (p : Phase) (s : State) : (s.openSlot p).lines = s.lines := rfl

section
variable {s : State}

/-- The slot before was overrun: the abort line, with the counter unchanged. -/
theorem slotReset_abort (h : s.seq.idx ≠ 0 ∧ overrun s.params s.regs.cnt = true) (onAbort onOk : Phase) :
    slotReset onAbort onOk s = s.goto onAbort := if_pos h

theorem slotReset_open (h : ¬ (s.seq.idx ≠ 0 ∧ overrun s.params s.regs.cnt = true)) (onAbort onOk : Phase) :
    slotReset onAbort onOk s = s.openSlot onOk := if_neg h

/-- The wait of a slot polls the counter. -/
theorem waitUntil_tick (act still : State) :
    waitUntil (s.regs.cnt != 0#16) act still = .next (if s.regs.cnt = 0#16 then still else act) := by
  by_cases h : s.regs.cnt = 0#16 <;> simp [waitUntil, h]

/-- The read of an unwritten `SAMPLE` faults (10_state R32). -/
theorem storeSample_unwritten (hs : s.regs.sample = .unwritten) (buf count : Word) :
    storeSample buf count s = raise .unwritten s := by
  simp only [storeSample, hs]

/-- Some byte is stored at `BUF + I`: the captured one, except after a second edge with strict validation off (R272). -/
theorem storeSample_holds {h : Half} (hs : s.regs.sample = .holds h) (buf count : Word) :
    ∃ b n, storeSample buf count s =
        .next ((((s.drawn n).store (effAddr buf s.seq.idx) b).setIdx (s.seq.idx + 1)).arriveSlot count) ∧
      (s.params.strict = true ∨ s.ovr = false → b = sampleByte h ∧ n = 0) := by
  simp only [storeSample, hs]
  split
  case isTrue hfree =>
    obtain ⟨hstrict, hovr⟩ : s.params.strict = false ∧ s.ovr = true := by simpa using hfree
    exact ⟨_, 1, rfl, by simp [hstrict, hovr]⟩
  case isFalse => exact ⟨_, 0, rfl, fun _ => ⟨rfl, rfl⟩⟩

end

/-! ## `FinalCheck` and the two exits, which both operations share -/

section
variable {i : Instr} {buf count : Word} {s : State} (hi : i = .readBlock buf count ∨ i = .writeBlock buf count)
include hi

theorem exec_block_l5 (hp : s.seq.phase = .l5) : exec i s = .next s.finalCheck := by
  rcases hi with rfl | rfl
  · simp only [exec, execReadBlock, hp]
  · simp only [exec, execWriteBlock, hp]

/-- `FinalCheck` after an overrun of the last slot. -/
theorem exec_block_l5_abort (hp : s.seq.phase = .l5) (h : overrun s.params s.regs.cnt = true) : exec i s = .next (s.goto .l7) :=
  (exec_block_l5 hi hp).trans (by simp only [State.finalCheck, h, if_true])

theorem exec_block_l5_ok (hp : s.seq.phase = .l5) (h : ¬ overrun s.params s.regs.cnt = true) : exec i s = .next (s.goto .l6) :=
  (exec_block_l5 hi hp).trans (by simp only [State.finalCheck, if_neg h])

theorem exec_block_l6 (hp : s.seq.phase = .l6) : exec i s = .next (s.finish i 0#8 statusOk) := by
  rcases hi with rfl | rfl
  · simp only [exec, execReadBlock, hp]
  · simp only [exec, execWriteBlock, hp]

theorem exec_block_l7 (hp : s.seq.phase = .l7) : exec i s = .next (s.finish i 0#8 statusIntegrity) := by
  rcases hi with rfl | rfl
  · simp only [exec, execReadBlock, hp]
  · simp only [exec, execWriteBlock, hp]

/-- The normal and the abort exit, by the line. -/
theorem exec_block_exit (hp : s.seq.phase = .l6 ∨ s.seq.phase = .l7) :
    exec i s = .next (s.finish i 0#8 (if s.seq.phase = .l6 then statusOk else statusIntegrity)) := by
  rcases hp with hp | hp
  · simp [exec_block_l6 hi hp, hp]
  · simp [exec_block_l7 hi hp, hp]

end

/-! ## `read_block` (R262) -/

section
variable {buf count : Word} {s : State}

theorem exec_readBlock_l1 (hp : s.seq.phase = .l1) : exec (.readBlock buf count) s =
    if s.regs.ctrl.ddir then raise .busOwnership s else .next (s.blockStart.arriveSlot count) := by
  simp only [exec, execReadBlock, hp]

/-- Line 1 while the block does not drive D. -/
theorem exec_readBlock_enter (hp : s.seq.phase = .l1) (hdir : s.regs.ctrl.ddir = false) :
    exec (.readBlock buf count) s = .next (s.blockStart.arriveSlot count) :=
  (exec_readBlock_l1 hp).trans (if_neg (by simp [hdir]))

theorem exec_readBlock_l2 (hp : s.seq.phase = .l2) : exec (.readBlock buf count) s = .next (slotReset .l7 .l3 s) := by
  simp only [exec, execReadBlock, hp]

theorem exec_readBlock_abort (hp : s.seq.phase = .l2) (h : s.seq.idx ≠ 0 ∧ overrun s.params s.regs.cnt = true) :
    exec (.readBlock buf count) s = .next (s.goto .l7) :=
  (exec_readBlock_l2 hp).trans (congrArg _ (slotReset_abort h _ _))

theorem exec_readBlock_open (hp : s.seq.phase = .l2) (h : ¬ (s.seq.idx ≠ 0 ∧ overrun s.params s.regs.cnt = true)) :
    exec (.readBlock buf count) s = .next (s.openSlot .l3) :=
  (exec_readBlock_l2 hp).trans (congrArg _ (slotReset_open h _ _))

theorem exec_readBlock_l3 (hp : s.seq.phase = .l3) :
    exec (.readBlock buf count) s = .next (if s.regs.cnt = 0#16 then s else s.goto .l4) := by
  simp only [exec, execReadBlock, hp, waitUntil_tick]

/-- The poll that sees the slot's tick. -/
theorem exec_readBlock_ticked (hp : s.seq.phase = .l3) (hc : s.regs.cnt ≠ 0#16) :
    exec (.readBlock buf count) s = .next (s.goto .l4) :=
  (exec_readBlock_l3 hp).trans (congrArg _ (if_neg hc))

theorem exec_readBlock_l4 (hp : s.seq.phase = .l4) (ha : admitted s.params (effAddr buf s.seq.idx) = true) :
    exec (.readBlock buf count) s = storeSample buf count s := by
  simp only [exec, execReadBlock, hp, ha, if_true]

end

/-- Settles O35: line 1 by whether the block drives D, lines 2 and 5 by the strict check, line 4 by the sample and the
read-over-write rule, and the rule of each other line. -/
theorem readBlockLines : Obligations.ReadBlockLines := by
  intro buf count s arrive overran
  have hover : overran ↔ overrun s.params s.regs.cnt = true := (overrun_iff _ _).symm
  rw [hover]
  refine ⟨?encoding, ?driving, exec_readBlock_enter, exec_readBlock_abort, exec_readBlock_open, exec_readBlock_l3, ?unwritten,
    ?stored, exec_block_l5_abort (.inl rfl), exec_block_l5_ok (.inl rfl), ?exits⟩
  case encoding =>
    rw [encode_of_bufferWords rfl, packW0_eq_or]
    simp [Instr.opcode, Instr.imm]
  case driving => exact fun hp hd => (exec_readBlock_l1 hp).trans (if_pos hd)
  case unwritten =>
    intro hp ha hs
    rw [exec_readBlock_l4 hp ha, storeSample_unwritten hs]
    rfl
  case stored =>
    intro h hp ha hs
    obtain ⟨b, n, he, hb⟩ := storeSample_holds hs buf count
    refine ⟨_, (exec_readBlock_l4 hp ha).trans he, fun hok => ?_, fun a hne => ?_, rfl⟩
    · obtain ⟨rfl, -⟩ := hb hok
      exact (Memory.read_write _ _ _ _).trans (if_pos rfl)
    · exact (Memory.read_write _ _ _ _).trans (if_neg hne)
  case exits =>
    intro hp
    rw [exec_block_exit (.inl rfl) hp]
    rcases hp with hp | hp <;> simp only [hp] <;> rfl

/-! ## `write_block` (R263) -/

section
variable {buf count : Word} {s : State}

theorem exec_writeBlock_l1 (hp : s.seq.phase = .l1) : exec (.writeBlock buf count) s =
    if s.lines.dh.isSome then raise .busContention s else .next ((s.blockStart.setDdir true).arriveSlot count) := by
  simp only [exec, execWriteBlock, hp]

/-- Line 1 while the host does not drive D. -/
theorem exec_writeBlock_acquire (hp : s.seq.phase = .l1) (hdh : s.lines.dh = none) :
    exec (.writeBlock buf count) s = .next ((s.blockStart.setDdir true).arriveSlot count) :=
  (exec_writeBlock_l1 hp).trans (if_neg (by simp [hdh]))

theorem exec_writeBlock_l2 (hp : s.seq.phase = .l2) (ha : admitted s.params (effAddr buf s.seq.idx) = true) :
    exec (.writeBlock buf count) s = .next ((s.setDout (s.mem.read (effAddr buf s.seq.idx))).goto .l3) := by
  simp only [exec, execWriteBlock, hp, waitUntil_eq, ha, if_true]

theorem exec_writeBlock_l3 (hp : s.seq.phase = .l3) : exec (.writeBlock buf count) s = .next (slotReset .l7 .l4 s) := by
  simp only [exec, execWriteBlock, hp]

theorem exec_writeBlock_abort (hp : s.seq.phase = .l3) (h : s.seq.idx ≠ 0 ∧ overrun s.params s.regs.cnt = true) :
    exec (.writeBlock buf count) s = .next (s.goto .l7) :=
  (exec_writeBlock_l3 hp).trans (congrArg _ (slotReset_abort h _ _))

theorem exec_writeBlock_open (hp : s.seq.phase = .l3) (h : ¬ (s.seq.idx ≠ 0 ∧ overrun s.params s.regs.cnt = true)) :
    exec (.writeBlock buf count) s = .next (s.openSlot .l4) :=
  (exec_writeBlock_l3 hp).trans (congrArg _ (slotReset_open h _ _))

theorem exec_writeBlock_l4 (hp : s.seq.phase = .l4) : exec (.writeBlock buf count) s =
    .next (if s.regs.cnt = 0#16 then s else (s.setIdx (s.seq.idx + 1)).arriveSlot count) := by
  simp only [exec, execWriteBlock, hp, waitUntil_tick]

/-- The poll that sees the slot's tick. -/
theorem exec_writeBlock_ticked (hp : s.seq.phase = .l4) (hc : s.regs.cnt ≠ 0#16) :
    exec (.writeBlock buf count) s = .next ((s.setIdx (s.seq.idx + 1)).arriveSlot count) :=
  (exec_writeBlock_l4 hp).trans (congrArg _ (if_neg hc))

end

/-- Settles O36: line 1 by whether the host drives D, lines 3 and 5 by the strict check, line 4 by the counter, and the rule of each
other line. -/
theorem writeBlockLines : Obligations.WriteBlockLines := by
  intro buf count s arrive overran
  have hover : overran ↔ overrun s.params s.regs.cnt = true := (overrun_iff _ _).symm
  rw [hover]
  refine ⟨?encoding, ?contended, exec_writeBlock_acquire, exec_writeBlock_l2, exec_writeBlock_abort, exec_writeBlock_open,
    ?waiting, exec_writeBlock_ticked, exec_block_l5_abort (.inr rfl), exec_block_l5_ok (.inr rfl), ?exits⟩
  case encoding =>
    rw [encode_of_bufferWords rfl, packW0_eq_or]
    simp [Instr.opcode, Instr.imm]
  case contended => exact fun hp hdh => (exec_writeBlock_l1 hp).trans (if_pos (Option.isSome_iff_ne_none.mpr hdh))
  case waiting => exact fun hp h0 => (exec_writeBlock_l4 hp).trans (congrArg _ (if_pos h0))
  case exits =>
    intro hp
    rw [exec_block_exit (.inr rfl) hp]
    rcases hp with hp | hp <;> simp only [hp] <;> rfl

end Sys2Proof.Machine
end

section
/-! PROOF. What the runs of a whole block operation share (45_block_transfer): the host's ACK pulse with the tick of a byte slot,
the strict check after one tick, and the end of the operation. -/

namespace Sys2Proof.Machine

@[simp] theorem withSched_ovr (r : List Move) (s : State) : (s.withSched r).ovr = s.ovr := rfl
@[simp] theorem hostDrives_ovr (b : Byte) (s : State) : (s.hostDrives b).ovr = s.ovr := rfl
@[simp] theorem current_setIdx (n : Nat) (s : State) : (s.setIdx n).current = s.current := rfl

/-! ## The ACK pulse (49 R302, R303) -/

/-- The timer counts ACK edges and its trigger captures at the count 1, as `begin` configures them (42 R160). -/
def TimerBegun (s : State) : Prop := s.regs.ccrTrig = 1#16 ∧ s.regs.tcfg = Tcfg.begun ∧ s.regs.dcfg = Dcfg.begun

/-- In a session the timer is as `begin` configured it. -/
theorem Inv.timerBegun {s : State} (h : Inv s) (hi : s.regs.ctrl.init = true) : TimerBegun s := by
  obtain ⟨-, htimer⟩ := h.configured hi
  exact htimer

/-- The events of an ACK pulse with the byte `b` on D, whose tick makes the count `c`. -/
def pulseEvents (c : Half) (cap : Bool) (b : Byte) : List Event := [.line .ack true b, .tick c cap, .line .ack false b]

/-- The host's ACK pulse with the byte `b` on D: its edges leave ACK as it was, and the first is counted. -/
def State.ackPulse (b : Byte) (s : State) : State :=
  { s with
    regs.cnt := s.regs.cnt + 1#16
    regs.sample := if captures s then .holds (portIn s) else s.regs.sample
    ovr := s.ovr || secondEdge (s.regs.cnt + 1#16) s
    log := s.log ++ pulseEvents (s.regs.cnt + 1#16) (captures s) b
    draws := s.draws + 3 }

/-- The first pulse of a slot: its tick captures the byte `b` (42 R172). -/
def State.slotPulse (b : Byte) (s : State) : State :=
  { s with
    regs.cnt := 1#16
    regs.sample := .holds (b ++ Config.drawByte (s.draws + 1))
    log := s.log ++ pulseEvents 1#16 true b
    draws := s.draws + 3 }

/-- A second pulse in the slot: its tick is an overrun and captures nothing (42 R170, R173). -/
def State.extraPulse (b : Byte) (s : State) : State :=
  { s with
    regs.cnt := 2#16
    ovr := true
    log := s.log ++ pulseEvents 2#16 false b
    draws := s.draws + 3 }

section
variable (b : Byte) (s : State)

@[simp] theorem slotPulse_regs : (s.slotPulse b).regs =
    { s.regs with cnt := 1#16, sample := .holds (b ++ Config.drawByte (s.draws + 1)) } := rfl
@[simp] theorem slotPulse_seq : (s.slotPulse b).seq = s.seq := rfl
@[simp] theorem slotPulse_ovr : (s.slotPulse b).ovr = s.ovr := rfl
@[simp] theorem slotPulse_lines : (s.slotPulse b).lines = s.lines := rfl
@[simp] theorem slotPulse_params : (s.slotPulse b).params = s.params := rfl
@[simp] theorem slotPulse_current : (s.slotPulse b).current = s.current := rfl

@[simp] theorem extraPulse_regs : (s.extraPulse b).regs = { s.regs with cnt := 2#16 } := rfl
@[simp] theorem extraPulse_seq : (s.extraPulse b).seq = s.seq := rfl
@[simp] theorem extraPulse_params : (s.extraPulse b).params = s.params := rfl

end

section
variable {s : State} {b : Byte} {r : List Move}

/-- The port with the byte `b` on D. -/
theorem portIn_of_driven (hb : dataDriven s = some b) : portIn s = b ++ Config.drawByte (s.draws + 1) := by
  rw [portIn, levelD_of_driven hb]

theorem ackPulse_of_cnt_zero (ht : TimerBegun s) (hb : dataDriven s = some b) (h0 : s.regs.cnt = 0#16) :
    s.ackPulse b = s.slotPulse b := by
  have hcap : captures s = true := by
    obtain ⟨htrig, htcfg, hdcfg⟩ := ht
    rw [captures, h0, htrig, htcfg, hdcfg]
    rfl
  simp [State.ackPulse, State.slotPulse, secondEdge, hcap, h0, portIn_of_driven hb]

theorem ackPulse_of_cnt_one (ht : TimerBegun s) (hreq : s.regs.ctrl.reqMode = true) (h1 : s.regs.cnt = 1#16) :
    s.ackPulse b = s.extraPulse b := by
  have hcap : captures s = false := by
    obtain ⟨htrig, -, -⟩ := ht
    simp [captures, h1, htrig]
  simp [State.ackPulse, State.extraPulse, secondEdge, hcap, h1, hreq]

/-- The host's move at an asserted ACK is the rising edge, with the byte `b` on D. -/
theorem step_ackRise (hf : s.regs.fault = 0#8) (hm : nextMove s = .host .ackRise) (ha : s.lines.ackH = true)
    (hb : dataDriven s = some b) : step s =
      .next { s.popped with lines.ackH := false, log := s.log ++ [.line .ack false b], draws := s.draws + 1 } := by
  obtain rfl : levelD { s.popped with lines.ackH := false } = b := levelD_of_driven hb
  rw [step_eq s hf, hm]
  exact if_pos ha

/-- The state after the falling edge with its tick. -/
def State.ackTicked (s : State) : State := (tick (portIn s) s.ackAsserted).drawn 2

/-- The host's ACK pulse below the counter's top. -/
theorem run_ackPulse (n : Nat) (ht : TimerBegun s) (hb : dataDriven s = some b) (ha : s.lines.ackH = false)
    (hc : s.regs.cnt ≠ 0xFFFF#16) (hs : s.sched = .host .ackFall :: .host .ackRise :: r) (hf : s.regs.fault = 0#8) :
    core.run (n + 2) s = core.run n (s.popped.popped.ackPulse b) := by
  have hten : s.regs.tcfg.ten = true := by
    obtain ⟨-, htcfg, -⟩ := ht
    rw [htcfg]
    rfl
  have hfall : step s = .next s.popped.ackTicked :=
    step_ackFall_tick hf (by rw [nextMove, hs]) ha hten hc
  have hrise : step s.popped.ackTicked = .next (s.popped.popped.ackPulse b) := by
    have hm : nextMove s.popped.ackTicked = .host .ackRise := by
      simp [nextMove, State.ackTicked, tick, State.ackAsserted, hs]
    have hbyte : levelD s.popped = b := levelD_of_driven hb
    have hlines : { s.lines with ackH := false } = s.lines := by rw [← ha]
    have hlog : s.popped.ackTicked.log ++ [.line .ack false b] =
        s.log ++ pulseEvents (s.regs.cnt + 1#16) (captures s.popped.ackAsserted) b := by
      simp [State.ackTicked, tick_log, State.ackAsserted, pulseEvents, hbyte]
    rw [step_ackRise (s := s.popped.ackTicked) hf hm rfl hb, hlog]
    simp only [State.ackPulse, State.popped_lines]
    conv_rhs => rw [← hlines]
    rfl
  exact (run_succ (n + 1) hfall).trans (run_succ n hrise)

/-- The host's pulse in a slot that has no tick yet. -/
theorem run_slotPulse (n : Nat) (ht : TimerBegun s) (hb : dataDriven s = some b)
    (hs : s.sched = .host .ackFall :: .host .ackRise :: r := by rfl) (h0 : s.regs.cnt = 0#16 := by simp [*])
    (ha : s.lines.ackH = false := by simp [*]) (hf : s.regs.fault = 0#8 := by simp [*]) :
    core.run (n + 2) s = core.run n (s.popped.popped.slotPulse b) :=
  (run_ackPulse n ht hb ha (by simp [h0]) hs hf).trans (congrArg _ (ackPulse_of_cnt_zero ht hb h0))

/-- The host's pulse in a slot that has its tick. -/
theorem run_extraPulse (n : Nat) (ht : TimerBegun s) (hb : dataDriven s = some b)
    (hs : s.sched = .host .ackFall :: .host .ackRise :: r := by rfl) (h1 : s.regs.cnt = 1#16 := by simp [*])
    (hreq : s.regs.ctrl.reqMode = true := by simp [*]) (ha : s.lines.ackH = false := by simp [*])
    (hf : s.regs.fault = 0#8 := by simp [*]) : core.run (n + 2) s = core.run n (s.popped.popped.extraPulse b) :=
  (run_ackPulse n ht hb ha (by simp [h1]) hs hf).trans (congrArg _ (ackPulse_of_cnt_one ht hreq h1))

end

/-! ## The strict check (42 R177) -/

/-- One tick in a slot is no overrun (00_scope R8: `OVR_T ≥ 2`). -/
theorem not_overrun_one {p : Params} (hw : p.wf = true) : ¬ overrun p 1#16 = true := by
  have hthreshold : 2 ≤ p.ovrT.toNat := by simpa [Params.wf] using hw
  rw [overrun_iff]
  rintro ⟨-, hle⟩
  exact absurd hle (by simp; omega)

/-- Every slot before has had one tick. -/
def OneTickEach (s : State) : Prop := s.seq.idx ≠ 0 → s.regs.cnt = 1#16

/-- Then the slot before was not overrun. -/
theorem OneTickEach.not_overrun {s : State} (h : OneTickEach s) (hw : s.params.wf = true) :
    ¬ (s.seq.idx ≠ 0 ∧ overrun s.params s.regs.cnt = true) := by
  rintro ⟨h0, hover⟩
  rw [h h0] at hover
  exact not_overrun_one hw hover

/-! ## The end of a block operation -/

/-- The arrival at the next slot. -/
theorem arriveSlot_next {count : Word} {s : State} (h : s.seq.idx ≠ count.toNat) : s.arriveSlot count = s.goto .l2 :=
  congrArg s.goto (if_neg h)

/-- The arrival past the last slot, in strict mode with at least one byte. -/
theorem arriveSlot_check {count : Word} {s : State} (h : s.seq.idx = count.toNat)
    (hs : s.params.strict = true ∧ count.toNat ≠ 0) : s.arriveSlot count = s.goto .l5 :=
  congrArg s.goto ((if_pos h).trans (if_pos hs))

/-- The arrival past the last slot without a `FinalCheck`. -/
theorem arriveSlot_exit {count : Word} {s : State} (h : s.seq.idx = count.toNat)
    (hs : ¬ (s.params.strict = true ∧ count.toNat ≠ 0)) : s.arriveSlot count = s.goto .l6 :=
  congrArg s.goto ((if_pos h).trans (if_neg hs))

/-- From the arrival past the last slot to the end: `FinalCheck` finds no overrun. -/
theorem run_block_end {i : Instr} {buf count : Word} {s : State} {r : List Move}
    (hi : i = .readBlock buf count ∨ i = .writeBlock buf count) (hf : s.regs.fault = 0#8) (hc : s.current = some i)
    (hw : s.params.wf = true) (hidx : s.seq.idx = count.toNat) (hone : OneTickEach s) :
    core.run ((finalCheckMoves s.params count.toNat).length + 1)
        ((s.arriveSlot count).withSched (finalCheckMoves s.params count.toNat ++ .seq :: r)) =
      .next ((s.withSched r).finish i 0#8 statusOk) := by
  by_cases hs : s.params.strict = true ∧ count.toNat ≠ 0
  · rw [arriveSlot_check hidx hs, finalCheckMoves, if_pos hs]
    have hno : ¬ overrun s.params s.regs.cnt = true := fun ho => hone.not_overrun hw ⟨hidx ▸ hs.2, ho⟩
    refine Eq.trans (run_nextLine 1 (exec_block_l5_ok hi rfl hno)) ?_
    exact run_nextLine 0 (exec_block_l6 hi rfl)
  · rw [arriveSlot_exit hidx hs, finalCheckMoves, if_neg hs]
    exact run_nextLine 0 (exec_block_l6 hi rfl)

end Sys2Proof.Machine
end

section
/-! PROOF. Whole block transfers (45_block_transfer R262 to R268): the slots of each operation by induction on their number, and the
abort after a double acknowledge. -/

namespace Sys2Proof.Machine

/-! ## `write_block` (R263) -/

/-- The events of the slots for the bytes `i` to `i + k - 1` of a buffer (R271). -/
def slotEvents (m : Memory) (buf : Word) (i k : Nat) : List Event :=
  (List.range' i k).flatMap fun j => pulseEvents 1#16 true (m.read (effAddr buf j))

theorem slotEvents_succ (m : Memory) (buf : Word) (i k : Nat) : slotEvents m buf i (k + 1) =
    pulseEvents 1#16 true (m.read (effAddr buf i)) ++ slotEvents m buf (i + 1) k := by
  simp only [slotEvents, List.range'_succ, List.flatMap_cons]

/-- The state once the host has acknowledged byte `I` of the buffer. -/
def State.slotWritten (buf : Word) (s : State) : State :=
  ((s.setDout (s.mem.read (effAddr buf s.seq.idx))).slotPulse (s.mem.read (effAddr buf s.seq.idx))).setIdx (s.seq.idx + 1)

section
variable {buf count : Word} {s : State} {r : List Move}

section
variable (hf : s.regs.fault = 0#8) (hc : s.current = some (.writeBlock buf count)) (ht : TimerBegun s)
  (hdir : s.regs.ctrl.ddir = true) (hdh : s.lines.dh = none) (hack : s.lines.ackH = false) (hw : s.params.wf = true)
  (hone : OneTickEach s)
include hf hc ht hdir hdh hack hw hone

/-- One slot of `write_block`, with one ACK pulse of the host. -/
theorem run_slotOut (n : Nat) (hadm : admitted s.params (effAddr buf s.seq.idx) = true) :
    core.run (n + 5) ((s.goto .l2).withSched (slotOut ++ r)) =
      core.run n (((s.slotWritten buf).arriveSlot count).withSched r) := by
  refine Eq.trans (run_nextLine (n + 4) (exec_writeBlock_l2 rfl (by simpa using hadm))) ?_
  refine Eq.trans (run_nextLine (n + 3) (exec_writeBlock_open rfl (hone.not_overrun hw))) ?_
  refine Eq.trans (run_slotPulse (n + 1) ht (dataDriven_of_block hdir hdh rfl)) ?_
  refine Eq.trans (run_nextLine n (exec_writeBlock_ticked rfl (by simp))) ?_
  simp only [State.slotWritten, State.arriveSlot, State.slotPulse, State.openSlot, State.goto, State.popped, State.withSched,
    State.setDout, State.setIdx]
  rfl

/-- From an arrival at line 2 with `k` slots to go to the end of `write_block`, with one ACK pulse of the host in each slot. -/
theorem run_writeBlock_rest (k : Nat) (hidx : s.seq.idx + k = count.toNat)
    (hadm : ∀ j, j < count.toNat → admitted s.params (effAddr buf j) = true) :
    ∃ d c h n m, core.run (5 * k + ((finalCheckMoves s.params count.toNat).length + 1))
        ((s.arriveSlot count).withSched
          ((List.replicate k slotOut).flatten ++ (finalCheckMoves s.params count.toNat ++ .seq :: r))) =
      .next (State.finish (.writeBlock buf count) 0#8 statusOk { s with
        regs.dout := d
        regs.cnt := c
        regs.sample := h
        seq.idx := n
        log := s.log ++ slotEvents s.mem buf s.seq.idx k
        draws := m
        sched := r }) ∧ (count.toNat ≠ 0 → c = 1#16) := by
  induction k generalizing s with
  | zero =>
    have hidx : s.seq.idx = count.toNat := hidx
    refine ⟨s.regs.dout, s.regs.cnt, s.regs.sample, s.seq.idx, s.draws, ?_, fun h0 => hone (hidx ▸ h0)⟩
    rw [slotEvents, List.range'_zero, List.flatMap_nil, List.append_nil, Nat.mul_zero, Nat.zero_add]
    exact run_block_end (.inr rfl) hf hc hw hidx hone
  | succ k ih =>
    have hidx' : (s.slotWritten buf).seq.idx + k = count.toNat := by
      simp only [State.slotWritten, State.setIdx_seq]
      omega
    obtain ⟨d, c, h, n, m, hrest, hcnt⟩ := ih (s := s.slotWritten buf) hf hc ht hdir hdh hack hw (fun _ => rfl) hidx' hadm
    refine ⟨d, c, h, n, m, ?_, hcnt⟩
    rw [arriveSlot_next (by omega), List.replicate_succ, List.flatten_cons, List.append_assoc, slotEvents_succ,
      ← List.append_assoc s.log, Nat.mul_succ, Nat.add_right_comm]
    exact (run_slotOut hf hc ht hdir hdh hack hw hone _ (hadm _ (by omega))).trans hrest

end

/-- Settles O38: the issue and line 1, then the induction over the slots. -/
theorem writeBlockDeliversTheBuffer : Obligations.WriteBlockDeliversTheBuffer := by
  intro buf count s rest hf hp hd hinv hi hdh hack hw hadm hs
  have hs' : s.sched = .seq :: .seq ::
      ((List.replicate count.toNat slotOut).flatten ++ (finalCheckMoves s.params count.toNat ++ .seq :: rest)) := by
    rw [hs]
    simp
  have hjsusp : s.regs.ctrl.jsusp = false := hinv.jsusp.trans (inside_idle hp)
  have hstart := run_start hs' hf hp hd hi nofun (exec_writeBlock_acquire rfl hdh)
  obtain ⟨d, c, h, n, m, hrest, hcnt⟩ := run_writeBlock_rest (buf := buf) (count := count) (r := rest)
    (s := (s.latch (.writeBlock buf count)).blockStart.setDdir true) hf rfl (hinv.timerBegun hi) rfl hdh hack hw
    (fun h0 => absurd rfl h0) count.toNat (Nat.zero_add _) hadm
  have hlen : 3 + 5 * count.toNat + (finalCheckMoves s.params count.toNat).length =
      5 * count.toNat + ((finalCheckMoves s.params count.toNat).length + 1) + 2 := by omega
  rw [hlen]
  refine ⟨_, (run_add _ hstart).trans hrest, ?_, hf, ?_, hcnt, rfl, rfl, rfl, rfl, rfl, rfl, rfl, ?_⟩
  · simp [finish_regs, packRes, statusOk]
  · simp [finish_regs, hi, hjsusp]
  · simp [finish_log, slotEvents, pulseEvents, Instr.opcode, packRes, statusOk, List.range_eq_range', effAddr]

end

/-! ## `read_block` (R262) -/

/-- The state once the host's byte `I` has been stored. -/
def State.slotRead (buf : Word) (b : Byte) (s : State) : State :=
  (((s.hostDrives b).slotPulse b).store (effAddr buf s.seq.idx) b).setIdx (s.seq.idx + 1)

section
variable {buf count : Word} {b : Byte} {s : State} {r : List Move}

/-- Line 4 of `read_block` stores the captured byte. -/
theorem exec_readBlock_store {low : Byte} (hp : s.seq.phase = .l4) (ha : admitted s.params (effAddr buf s.seq.idx) = true)
    (hs : s.regs.sample = .holds (b ++ low)) (hok : s.params.strict = true ∨ s.ovr = false) :
    exec (.readBlock buf count) s =
      .next (((s.store (effAddr buf s.seq.idx) b).setIdx (s.seq.idx + 1)).arriveSlot count) := by
  obtain ⟨c, n, he, hc⟩ := storeSample_holds hs buf count
  obtain ⟨rfl, rfl⟩ := hc hok
  have hbyte : sampleByte (b ++ low) = b := status_packRes b low
  rw [exec_readBlock_l4 hp ha, he, hbyte]
  rfl

section
variable (hf : s.regs.fault = 0#8) (hc : s.current = some (.readBlock buf count)) (ht : TimerBegun s)
  (hdir : s.regs.ctrl.ddir = false) (hack : s.lines.ackH = false) (hw : s.params.wf = true) (hovr : s.ovr = false)
  (hone : OneTickEach s)
include hf hc ht hdir hack hw hovr hone

/-- One slot of `read_block`, with the host's byte and one ACK pulse. -/
theorem run_slotIn (n : Nat) (hadm : admitted s.params (effAddr buf s.seq.idx) = true) :
    core.run (n + 6) ((s.goto .l2).withSched (slotIn b ++ r)) =
      core.run n (((s.slotRead buf b).arriveSlot count).withSched r) := by
  refine Eq.trans (run_nextLine (n + 5) (exec_readBlock_open rfl (hone.not_overrun hw))) ?_
  refine Eq.trans (run_hostDrives (b := b) (n + 4)) ?_
  refine Eq.trans (run_slotPulse (n + 2) ht (dataDriven_of_host hdir rfl)) ?_
  refine Eq.trans (run_nextLine (n + 1) (exec_readBlock_ticked rfl (by simp))) ?_
  refine Eq.trans (run_nextLine n (exec_readBlock_store rfl (by simpa using hadm) rfl (.inr (by simpa using hovr)))) ?_
  simp only [State.slotRead, State.arriveSlot, State.slotPulse, State.openSlot, State.goto, State.popped, State.withSched,
    State.hostDrives, State.store, State.setIdx]
  rfl

/-- From an arrival at line 2 to the end of `read_block`, with one driven byte and one ACK pulse of the host in each slot. -/
theorem run_readBlock_rest (bytes : List Byte) (hidx : s.seq.idx + bytes.length = count.toNat)
    (hadm : ∀ j, j < count.toNat → admitted s.params (effAddr buf j) = true) :
    ∃ c h n l lg m, core.run (6 * bytes.length + ((finalCheckMoves s.params count.toNat).length + 1))
        ((s.arriveSlot count).withSched (bytes.flatMap slotIn ++ (finalCheckMoves s.params count.toNat ++ .seq :: r))) =
      .next (State.finish (.readBlock buf count) 0#8 statusOk { s with
        regs.cnt := c
        regs.sample := h
        seq.idx := n
        log := lg
        lines := l
        mem := s.mem.writeFrom (effAddr buf s.seq.idx) bytes
        draws := m
        sched := r }) ∧ (count.toNat ≠ 0 → c = 1#16) := by
  induction bytes generalizing s with
  | nil =>
    have hidx : s.seq.idx = count.toNat := hidx
    refine ⟨s.regs.cnt, s.regs.sample, s.seq.idx, s.lines, s.log, s.draws, ?_, fun h0 => hone (hidx ▸ h0)⟩
    rw [List.length_nil, Nat.mul_zero, Nat.zero_add]
    exact run_block_end (.inl rfl) hf hc hw hidx hone
  | cons b bytes ih =>
    rw [List.length_cons] at hidx
    have hidx' : (s.slotRead buf b).seq.idx + bytes.length = count.toNat := by
      simp only [State.slotRead, State.setIdx_seq]
      omega
    obtain ⟨c, h, n, l, lg, m, hrest, hcnt⟩ := ih (s := s.slotRead buf b) hf hc ht hdir hack hw hovr (fun _ => rfl) hidx' hadm
    refine ⟨c, h, n, l, lg, m, ?_, hcnt⟩
    rw [arriveSlot_next (by omega), List.flatMap_cons, List.append_assoc, List.length_cons, Nat.mul_succ, Nat.add_right_comm]
    exact (run_slotIn hf hc ht hdir hack hw hovr hone _ (hadm _ (by omega))).trans hrest

end

/-- Settles O37: the issue and line 1, then the induction over the bytes, which are written in order. -/
theorem readBlockStoresTheBytes : Obligations.ReadBlockStoresTheBytes := by
  intro buf count bytes s rest hf hp hd hinv hi hdir hack hw hlen hadm hs
  have hs' : s.sched = .seq :: .seq :: (bytes.flatMap slotIn ++ (finalCheckMoves s.params count.toNat ++ .seq :: rest)) := by
    rw [hs]
    simp
  have hjsusp : s.regs.ctrl.jsusp = false := hinv.jsusp.trans (inside_idle hp)
  have hstart := run_start hs' hf hp hd hi nofun (exec_readBlock_enter rfl hdir)
  obtain ⟨c, h, n, l, lg, m, hrest, hcnt⟩ := run_readBlock_rest (buf := buf) (count := count) (r := rest)
    (s := (s.latch (.readBlock buf count)).blockStart) hf rfl (hinv.timerBegun hi) hdir hack hw rfl
    (fun h0 => absurd rfl h0) bytes ((Nat.zero_add _).trans hlen) hadm
  have hmoves : 3 + 6 * count.toNat + (finalCheckMoves s.params count.toNat).length =
      6 * bytes.length + ((finalCheckMoves s.params count.toNat).length + 1) + 2 := by omega
  rw [hmoves]
  refine ⟨_, (run_add _ hstart).trans hrest, ?_, hf, ?_, hcnt, rfl, rfl, rfl, rfl, rfl, fun k b hk => ?_, fun a ha => ?_⟩
  · simp [finish_regs, packRes, statusOk]
  · simp [finish_regs, hi, hjsusp]
  · exact Memory.read_writeFrom_inside hk s.mem buf.toNat
  · exact Memory.read_writeFrom_outside (hlen ▸ ha) s.mem

/-! ## A double acknowledge (R265 to R267) -/

/-- A state is at its own line, with its own moves to come. -/
theorem goto_withSched_self {p : Phase} (hp : s.seq.phase = p) (hs : s.sched = r) : (s.goto p).withSched r = s := by
  subst hp hs
  rfl

/-- In a state that meets the invariant a running operation is at one of its lines. -/
theorem Inv.runsAt {i : Instr} (h : Inv s) (hr : running s = some i) : RunsAt i s := by
  obtain ⟨hp, hc⟩ := running_iff.mp hr
  obtain ⟨j, hj, hrun⟩ := h.op hp
  obtain rfl : i = j := Option.some.inj (hc.symm.trans hj)
  exact ⟨h, hc, hrun⟩

/-- The state after a double acknowledge of byte `I`, whose first edge was stored. -/
def State.slotOverrun (buf : Word) (b : Byte) (s : State) : State :=
  (((s.slotPulse b).extraPulse b).store (effAddr buf s.seq.idx) b).setIdx (s.seq.idx + 1)

/-- From the wait of a slot that is not the last to the abort at the next slot reset, with two ACK pulses of the host. -/
theorem run_readBlock_doubleAck (hf : s.regs.fault = 0#8) (hc : s.current = some (.readBlock buf count)) (ht : TimerBegun s)
    (h0 : s.regs.cnt = 0#16) (hreq : s.regs.ctrl.reqMode = true) (hb : dataDriven s = some b) (hack : s.lines.ackH = false)
    (hstrict : s.params.strict = true) (hthr : s.params.ovrT = 2#16) (hidx : s.seq.idx + 1 ≠ count.toNat)
    (hadm : admitted s.params (effAddr buf s.seq.idx) = true) :
    core.run 8 ((s.goto .l3).withSched
        ([.host .ackFall, .host .ackRise, .host .ackFall, .host .ackRise, .seq, .seq, .seq, .seq] ++ r)) =
      .next (((s.slotOverrun buf b).withSched r).finish (.readBlock buf count) 0#8 statusIntegrity) := by
  have hover : overrun s.params 2#16 = true := by simp [overrun, hstrict, hthr]
  refine Eq.trans (run_slotPulse 6 ht hb) ?_
  refine Eq.trans (run_extraPulse 4 ht hb) ?_
  refine Eq.trans (run_nextLine 3 (exec_readBlock_ticked rfl (by simp))) ?_
  refine Eq.trans (run_nextLine 2 (exec_readBlock_store rfl (by simpa using hadm) rfl (.inl (by simpa using hstrict)))) ?_
  rw [arriveSlot_next (by simpa using hidx)]
  refine Eq.trans (run_nextLine 1 (exec_readBlock_abort rfl (by simpa using hover))) ?_
  refine Eq.trans (run_nextLine 0 (exec_block_l7 (.inl rfl) rfl)) ?_
  simp only [Host.Core.run, State.finish, State.complete, State.guardExit, State.safeRelease, State.slotOverrun, State.slotPulse,
    State.extraPulse, State.goto, State.popped, State.withSched, State.store, State.setIdx]
  rfl

/-- Settles O39: the two pulses, the store, and the abort. -/
theorem doubleAckAbortsStrictReadBlock : Obligations.DoubleAckAbortsStrictReadBlock := by
  intro buf count b s rest hf hinv hr hp h0 hstrict hthr hidx hadm hdh hack hreqE hs
  have w : RunsAt (.readBlock buf count) s := hinv.runsAt hr
  have hi : s.regs.ctrl.init = true := w.running.session
  have g := w.guarded hp
  have hb : dataDriven s = some b := dataDriven_of_host (w.samples hp) hdh
  have hrest := run_readBlock_doubleAck (r := rest) hf w.current (hinv.timerBegun hi) h0 g.reqMode hb hack hstrict hthr hidx.ne hadm
  rw [goto_withSched_self hp hs] at hrest
  refine ⟨_, hrest, ?_, hf, rfl, rfl, rfl, ?_, ?_, ?_, fun a ha => ?_, ?_⟩
  · simp [finish_regs, packRes, statusIntegrity]
  · simp [finish_ctrl, State.slotOverrun, hi, g.saved]
  · have hline : (((s.slotOverrun buf b).withSched rest).finish (.readBlock buf count) 0#8 statusIntegrity).lines.reqE = false :=
      hreqE
    simp [levelREQ, blockRequests, finish_ctrl, hline]
  · exact (Memory.read_write _ _ _ _).trans (if_pos rfl)
  · exact (Memory.read_write _ _ _ _).trans (if_neg ha)
  · simp [finish_log, State.slotOverrun, State.withSched, State.slotPulse, State.extraPulse, pulseEvents, Instr.opcode,
      packRes, statusIntegrity]

end

end Sys2Proof.Machine
end

section
/-! PROOF. The steps of the host and of the other devices but the ACK falling edge (49_environment_steps R301, R303 to R305): one
line, one event. -/

namespace Sys2Proof.Machine

section
variable {s : State} (hf : s.regs.fault = 0#8)
include hf

theorem step_of_host {m : HostMove} (hm : nextMove s = .host m) : step s = hostMove m s.popped := by
  rw [step_eq s hf, hm]
  rfl

theorem step_of_env {m : EnvMove} (hm : nextMove s = .env m) : step s = envMove m s.popped := by
  rw [step_eq s hf, hm]
  rfl

end

/-- The rising edge of ACK is a move only while ACK is asserted (R303). -/
theorem hostMove_ackRise {s : State} (ha : s.lines.ackH = true) :
    hostMove .ackRise s = .next (State.logLine .ack false { s with lines.ackH := false }) := if_pos ha

/-- An ACK edge that is not enabled changes nothing. -/
theorem hostMove_ackFall_disabled {s : State} (ha : s.lines.ackH = true) : hostMove .ackFall s = .next s := if_pos ha

theorem hostMove_ackRise_disabled {s : State} (ha : s.lines.ackH = false) : hostMove .ackRise s = .next s := if_neg (by simp [ha])

/-- A byte driven onto D while the block drives it (R304). -/
theorem hostMove_data_contended {s : State} {v : Option Byte} (hv : v ≠ none) (hdir : s.regs.ctrl.ddir = true) :
    hostMove (.data v) s = raise .busContention s := if_pos (by simp [hdir, Option.isSome_iff_ne_none.mpr hv])

/-- The host's data step without contention: D is given up, or the block does not drive it (R304). -/
theorem hostMove_data {s : State} {v : Option Byte} (h : v = none ∨ s.regs.ctrl.ddir = false) :
    hostMove (.data v) s =
      .next ((State.emit (.data v (levelD { s with lines.dh := v })) { s with lines.dh := v }).drawn 1) := by
  refine if_neg ?_
  rcases h with rfl | hdir
  · simp
  · simp [hdir]

/-- Settles O23, move by move. -/
theorem hostAndDevicesMoveOneLine : Obligations.HostAndDevicesMoveOneLine := by
  intro s hf
  refine ⟨fun hm => ⟨_, step_of_host hf hm, rfl⟩, fun hm => ⟨_, step_of_host hf hm, rfl⟩, fun hm ha => ?rise,
    fun hm => ⟨_, step_of_env hf hm, rfl⟩, fun hm => ⟨_, step_of_env hf hm, rfl⟩,
    fun v hm => ⟨fun hv hdir => ?contended, fun h => ?driven⟩, ?disabled⟩
  case rise => exact ⟨_, (step_of_host hf hm).trans (hostMove_ackRise ha), rfl⟩
  case contended => exact (step_of_host hf hm).trans (hostMove_data_contended hv hdir)
  case driven => exact ⟨_, (step_of_host hf hm).trans (hostMove_data h), rfl⟩
  case disabled =>
    rintro (⟨hm, ha⟩ | ⟨hm, ha⟩)
    · exact (step_of_host hf hm).trans (hostMove_ackFall_disabled ha)
    · exact (step_of_host hf hm).trans (hostMove_ackRise_disabled ha)

end Sys2Proof.Machine
end

section
/-! PROOF. The watchdog (49_environment_steps R307): where it is enabled, and its reset. -/

namespace Sys2Proof.Machine

theorem waitsAt_idle (i : Instr) : waitsAt i .idle = false := by cases i <;> rfl

/-- SEQ is stuck at a line with an access that is not admitted (20 R71). -/
theorem stuckAccess_iff {i : Instr} {s : State} : stuckAccess i s = true ↔
    ∃ a, accessAt i s.seq.phase s.seq.idx = some a ∧ admitted s.params a = false := by
  unfold stuckAccess
  split <;> simp_all

theorem stuckAccess_idle (i : Instr) {s : State} (hp : s.seq.phase = .idle) : stuckAccess i s = false := by
  rw [stuckAccess, hp, accessAt_idle]

/-- The watchdog is enabled only while an operation runs. -/
theorem watchdogEnabled_iff {s : State} : watchdogEnabled s = true ↔
    ∃ i, running s = some i ∧ (waitsAt i s.seq.phase = true ∨ stuckAccess i s = true) := by
  by_cases hp : s.seq.phase = .idle
  · simp only [watchdogEnabled, hp, waitsAt_idle, stuckAccess_idle _ hp, running_iff]
    cases s.current <;> simp
  · cases hc : s.current <;> simp [watchdogEnabled, running_iff, hp, hc]

/-- Settles O43: the lines of the statement are the waits and the accesses of the running operation, which decide the move. -/
theorem watchdogResetsAtWaitsOnly : Obligations.WatchdogResetsAtWaitsOnly := by
  intro s hf hm at_ waits
  have hstep : step s = if watchdogEnabled s then .next (blockReset .watchdog s.popped) else .next s.popped := by
    rw [step_eq s hf, hm]
    rfl
  have hwaits : waits ↔ watchdogEnabled s = true := by
    rw [watchdogEnabled_iff]
    cases hr : running s with
    | none => simp [waits, at_, hr]
    | some i => cases i <;> simp [waits, at_, hr, waitsAt, stuckAccess_iff, accessAt, or_assoc, exists_or, and_comm, and_assoc]
  refine ⟨fun hw => ?_, fun hw => hstep.trans (if_neg (mt hwaits.mpr hw))⟩
  refine ⟨_, hstep.trans (if_pos (hwaits.mp hw)), ?_, rfl, rfl, rfl, ?_, rfl, ?_, rfl, rfl, rfl, rfl, rfl, rfl, rfl, rfl, rfl⟩
  · show Ctrl.reset.word = 0#32
    decide
  · show Tcfg.reset.word = 0#8
    decide
  · show Dcfg.reset.word = 0#16
    decide

end Sys2Proof.Machine
end

section
/-! PROOF. A CS pulse between two polls of SEQ (49_environment_steps R310). -/

namespace Sys2Proof.Machine

/-- The line of an interrupt-byte operation that waits for the assertion of CS (44 R220 to R223). -/
def csWait : Instr → Option Phase
  | .sendByte _ => some .l4
  | .sendBytes _ _ => some .l5
  | .readByte => some .l3
  | .readBytes _ _ => some .l3
  | .beginOp _ | .endOp | .readStrobe | .readAck | .isIdle | .driveData _ | .releaseData | .acquireData | .pullIrq | .releaseIrq
  | .waitCommand _ | .readBlock _ _ | .writeBlock _ _ => none

/-- SEQ's poll there while CS is released. -/
theorem exec_csWait_released {i : Instr} {s : State} (hw : csWait i = some s.seq.phase) (hcs : s.lines.csH = false) :
    exec i s = .next s := by
  have hstill (u : State) : (if s.lines.csH = true then u else s) = s := if_neg (by simp [hcs])
  cases i with
  | sendByte b => rw [exec_sendByte_l4 (Option.some.inj hw).symm, hstill]
  | sendBytes buf count => rw [exec_sendBytes_l5 (Option.some.inj hw).symm, hstill]
  | readByte => rw [exec_readByte_l3 (Option.some.inj hw).symm, hstill]
  | readBytes buf count => rw [exec_readBytes_l3 (Option.some.inj hw).symm, hstill]
  | _ => cases hw

/-- The state after the host's next move, a change of CS. -/
def State.csToggled (s : State) : State := State.logLine .cs (!s.lines.csH) { s.popped with lines.csH := !s.lines.csH }

@[simp] theorem csToggled_seq (s : State) : s.csToggled.seq = s.seq := rfl
@[simp] theorem csToggled_regs (s : State) : s.csToggled.regs = s.regs := rfl
@[simp] theorem csToggled_lines (s : State) : s.csToggled.lines = { s.lines with csH := !s.lines.csH } := rfl
@[simp] theorem csToggled_mem (s : State) : s.csToggled.mem = s.mem := rfl
@[simp] theorem csToggled_pc (s : State) : s.csToggled.pc = s.pc := rfl
@[simp] theorem csToggled_sched (s : State) : s.csToggled.sched = s.sched.tail := rfl
@[simp] theorem csToggled_current (s : State) : s.csToggled.current = s.current := rfl

theorem run_toggleCS {s : State} (n : Nat) (hm : nextMove s = .host .toggleCS) (hf : s.regs.fault = 0#8) :
    core.run (n + 1) s = core.run n s.csToggled := by
  refine run_succ n ?_
  rw [step_eq s hf, hm]
  rfl

/-- Settles O50: after the pulse CS is released again, so that the poll goes on waiting. -/
theorem csPulseBetweenPollsIsMissed : Obligations.CsPulseBetweenPollsIsMissed := by
  intro i s rest hf hr hline hcs hs
  have hwait : csWait i = some s.seq.phase := by
    rcases hline with ⟨⟨b, rfl⟩, hp⟩ | ⟨⟨buf, count, rfl⟩, hp⟩ | ⟨rfl, hp⟩ | ⟨⟨buf, count, rfl⟩, hp⟩ <;> simp [csWait, hp]
  obtain ⟨hp, hc⟩ := running_iff.mp hr
  have hpoll : exec i s.csToggled.csToggled.popped = .next s.csToggled.csToggled.popped :=
    exec_csWait_released hwait (by simp [hcs])
  refine ⟨s.csToggled.csToggled.popped, ?_, by simp⟩
  calc core.run 3 s
    _ = core.run 2 s.csToggled := run_toggleCS 2 (by simp [nextMove, hs]) hf
    _ = core.run 1 s.csToggled.csToggled := run_toggleCS 1 (by simp [nextMove, hs]) (by simpa using hf)
    _ = core.run 0 s.csToggled.csToggled.popped :=
      run_nextLine 0 hpoll (by simp [nextMove, hs]) (by simpa using hp) (by simpa using hf) (by simpa using hc)

end Sys2Proof.Machine
end

section
/-! PROOF. A host that keeps off D (49_environment_steps R304, R306): what a step that raises `BUS_CONTENTION` is. -/

namespace Sys2Proof.Machine

/-- The line of an operation that acquires D (41 R136, 44 R220, R221, 45 R263). -/
def acquireLine : Instr → Option Phase
  | .acquireData => some .l1
  | .sendByte _ => some .l1
  | .sendBytes _ _ => some .l2
  | .writeBlock _ _ => some .l1
  | .beginOp _ | .endOp | .readStrobe | .readAck | .isIdle | .driveData _ | .releaseData | .pullIrq | .releaseIrq
  | .waitCommand _ | .readByte | .readBytes _ _ | .readBlock _ _ => none

theorem acquireLine_ne_idle (i : Instr) : acquireLine i ≠ some .idle := by cases i <;> nofun

theorem acquires_of_line {i : Instr} {s : State} (hr : running s = some i) (ha : acquireLine i = some s.seq.phase) :
    acquires s = true := by
  rw [acquires, hr]
  cases i <;> simp_all [acquireLine]

/-- The operation acquires D while the host drives it. -/
def Contends (i : Instr) (s : State) : Prop := acquireLine i = some s.seq.phase ∧ s.lines.dh.isSome = true

/-- A step from `s` to `t` that raises `BUS_CONTENTION` is such an acquire. -/
def RaisesContentionAtAcquire (i : Instr) (s t : State) : Prop := t.regs.fault = FaultCode.busContention.code → Contends i s

section
variable {s : State} (hf : s.regs.fault = 0#8)
include hf

theorem storeSample_raisesContention (buf count : Word) :
    Ends (RaisesContentionAtAcquire (.readBlock buf count) s) True (storeSample buf count s) := by
  unfold storeSample
  split <;> simp [RaisesContentionAtAcquire, hf, FaultCode.code]

/-- Only an acquire of D raises `BUS_CONTENTION`: every other line raises another code or leaves `FAULT` as it is. -/
theorem exec_raisesContention (i : Instr) : Ends (RaisesContentionAtAcquire i s) True (exec i s) := by
  cases i <;> simp only [exec, execBeginOp, execEndOp, execReadStrobe, execReadAck, execIsIdle, execDriveData, execReleaseData,
    execAcquireData, execPullIrq, execReleaseIrq, execWaitCommand, execSendByte, execSendBytes, execReadByte, execReadBytes,
    execReadBlock, execWriteBlock, issueBegin, issue] <;> split <;>
    simp only [ends_next, ends_fault, ends_raise, ends_ite, ends_waitUntil, storeSample_raisesContention hf, *] <;>
    simp [RaisesContentionAtAcquire, Contends, acquireLine, FaultCode.code, State.finish, arrivePoll, beginSetup, endTeardown, *]

/-- SEQ raises `BUS_CONTENTION` at a line of the running operation, not at an issue. -/
theorem seqStep_raisesContention {t : State} (h : seqStep s = .next t) (h8 : t.regs.fault = FaultCode.busContention.code) :
    ∃ i, running s = some i ∧ Contends i s := by
  rcases seqStep_cases h with ⟨hp, -, i, -, he⟩ | ⟨-, -, -, hr⟩ | ⟨-, -, -, hr⟩ | ⟨-, -, -, hr⟩ | ⟨-, -, rfl⟩ | ⟨hp, i, hc, he⟩
  · obtain ⟨ha, -⟩ := (exec_raisesContention hf i).of_next he h8
    exact absurd (hp ▸ ha) (acquireLine_ne_idle i)
  · cases hr
    cases h8
  · cases hr
    cases h8
  · cases hr
    cases h8
  · cases hf.symm.trans h8
  · exact ⟨i, running_iff.mpr ⟨hp, hc⟩, (exec_raisesContention hf i).of_next he h8⟩

/-- The host raises `BUS_CONTENTION` where it drives D while the block does (R304). -/
theorem hostMove_raisesContention (m : HostMove) :
    Ends (fun t => t.regs.fault = FaultCode.busContention.code → ∃ b, m = .data (some b) ∧ s.regs.ctrl.ddir = true) True
      (hostMove m s) := by
  cases m with
  | data drive => cases drive <;> simp [hostMove, FaultCode.code, hf]
  | ackFall => simp [hostMove, ackFalls, tick, FaultCode.code, hf]
  | _ => simp [hostMove, FaultCode.code, hf]

end

/-- Settles O58: contention is an acquire of D that the host drives, or a byte driven onto D that the block drives. -/
theorem noDriveHostIsNeverContended : Obligations.NoDriveHostIsNeverContended := by
  intro s t hf hduty h h8
  obtain ⟨hkeepsOff, hstopped⟩ := hduty
  obtain ⟨-, ⟨hm, hs⟩ | ⟨m, hm, hs⟩ | ⟨m, -, hs⟩ | ⟨-, hs⟩⟩ := step_cases h
  · obtain ⟨i, hr, hline, hdh⟩ := seqStep_raisesContention (s := s.popped) hf hs h8
    have hnone : s.lines.dh = none := hstopped hm (acquires_of_line hr hline)
    cases hnone ▸ hdh
  · obtain ⟨b, rfl, hdir⟩ := (hostMove_raisesContention (s := s.popped) hf m).of_next hs h8
    cases hdir.symm.trans (hkeepsOff b hm)
  · cases ((envMove_fault (s := s.popped) hf m).of_next hs).symm.trans h8
  · cases ((watchdogMove_fault (s := s.popped) hf).of_next hs).symm.trans h8

end Sys2Proof.Machine
end

section
/-! PROOF. A host that acknowledges each byte slot once (49_environment_steps R309, 42 R177): what a step can do to the count of an
open slot. -/

namespace Sys2Proof.Machine

/-! ## Where a slot is open -/

/-- The lines of a block operation, with its byte index, at which a byte slot is open. -/
def slotOpenAt (i : Instr) (p : Phase) (n : Nat) : Bool :=
  match i with
  | .readBlock _ _ => p != .idle && p != .l1 && (p == .l3 || p == .l4 || n != 0)
  | .writeBlock _ _ => p != .idle && p != .l1 && (p == .l4 || n != 0)
  | .beginOp _ | .endOp | .readStrobe | .readAck | .isIdle | .driveData _ | .releaseData | .acquireData | .pullIrq | .releaseIrq
  | .waitCommand _ | .sendByte _ | .sendBytes _ _ | .readByte | .readBytes _ _ => false

theorem slotOpen_line {s : State} {i : Instr} (hc : s.current = some i) :
    slotOpen s = slotOpenAt i s.seq.phase s.seq.idx := by
  by_cases hp : s.seq.phase = .idle
  · cases i <;> simp [slotOpen, running, slotOpenAt, hp]
  · have hne : (s.seq.phase != .idle) = true := by simpa using hp
    cases i <;> simp [slotOpen, running, slotOpenAt, hp, hne, hc]

theorem slotOpen_idle {s : State} (hp : s.seq.phase = .idle) : slotOpen s = false := by
  simp [slotOpen, running, hp]

theorem slotOpenAt_of_not_block {i : Instr} (hb : isBlock i = false) (p : Phase) (n : Nat) : slotOpenAt i p n = false := by
  cases i <;> simp_all [isBlock, slotOpenAt]

/-! ## SEQ keeps the latched operation -/

@[simp] theorem current_slotReset (pa po : Phase) (s : State) : (slotReset pa po s).current = s.current := by
  rcases slotReset_cases pa po s with ⟨-, -, he⟩ | ⟨-, he⟩ <;> rw [he] <;> rfl

theorem storeSample_current (buf count : Word) (s : State) :
    Ends (fun t => t.current = s.current) True (storeSample buf count s) := by
  unfold storeSample
  split
  · exact rfl
  · simp only [ends_ite, ends_next]
    exact ⟨fun _ => rfl, fun _ => rfl⟩

/-- Only the issue writes the latched descriptor (30 R108). -/
theorem exec_current {i : Instr} {s : State} (hp : s.seq.phase ≠ .idle) : Ends (fun t => t.current = s.current) True (exec i s) := by
  cases i <;> simp only [exec, execBeginOp, execEndOp, execReadStrobe, execReadAck, execIsIdle, execDriveData, execReleaseData,
    execAcquireData, execPullIrq, execReleaseIrq, execWaitCommand, execSendByte, execSendBytes, execReadByte, execReadBytes,
    execReadBlock, execWriteBlock, issueBegin, issue] <;> split <;>
    simp only [ends_next, ends_fault, ends_raise, ends_ite, ends_waitUntil, storeSample_current, current_slotReset] <;>
    simp_all [State.current, State.arriveByte, State.arriveSlot, State.finalCheck, State.finish, arrivePoll, beginSetup,
      endTeardown]

/-! ## A step of a block operation -/

/-- SEQ is at a line of the operation with a slot open. -/
def OpenSlot (i : Instr) (s : State) : Prop := slotOpenAt i s.seq.phase s.seq.idx = true

/-- A line of a block operation that leaves a slot open resets its count, or finds the slot open and keeps the count; and it goes
to the abort line from an open slot with an overrun. -/
structure SlotEffect (i : Instr) (s t : State) : Prop where
  count : OpenSlot i t → t.regs.cnt = 0#16 ∨ OpenSlot i s ∧ t.regs.cnt = s.regs.cnt
  abort : t.seq.phase = .l7 → OpenSlot i s ∧ overrun s.params s.regs.cnt = true

section
variable {i : Instr} {buf count : Word} {s t : State}

/-- A line that opens no slot, keeps the count and does not abort. -/
theorem SlotEffect.of_kept (ho : OpenSlot i t → OpenSlot i s) (hc : t.regs.cnt = s.regs.cnt) (h7 : t.seq.phase ≠ .l7) :
    SlotEffect i s t :=
  ⟨fun h => .inr ⟨ho h, hc⟩, fun h => absurd h h7⟩

/-- A line that leaves no slot open, and is not an abort. -/
theorem SlotEffect.of_closed (hn : ¬ OpenSlot i t) (h7 : t.seq.phase ≠ .l7) : SlotEffect i s t :=
  ⟨fun h => absurd h hn, fun h => absurd h h7⟩

theorem arriveSlot_phase_ne_l7 (count : Word) (s : State) : (s.arriveSlot count).seq.phase ≠ .l7 := by
  rcases arriveSlot_cases count s with ⟨-, -, he⟩ | ⟨-, he⟩ | ⟨-, he⟩ <;> simp [he]

/-- Line 1 opens no slot: the index is 0. -/
theorem slotEffect_start (hi : i = .readBlock buf count ∨ i = .writeBlock buf count) (h0 : t.seq.idx = 0) :
    SlotEffect i s (t.arriveSlot count) := by
  refine .of_closed ?_ (arriveSlot_phase_ne_l7 count t)
  rcases hi with rfl | rfl <;> rcases arriveSlot_cases count t with ⟨-, -, he⟩ | ⟨-, he⟩ | ⟨-, he⟩ <;>
    simp [OpenSlot, slotOpenAt, he, h0]

/-- The slot reset opens a slot with the count 0, or aborts on an overrun of the slot before. -/
theorem slotEffect_reset {po : Phase} (hi : i = .readBlock buf count ∨ i = .writeBlock buf count)
    (hp : s.seq.phase = .l2 ∨ s.seq.phase = .l3) (hpo : po ≠ .l7) : SlotEffect i s (slotReset .l7 po s) := by
  rcases slotReset_cases .l7 po s with ⟨h0, hover, he⟩ | ⟨-, he⟩ <;> rw [he]
  · have ho : OpenSlot i s := by
      rcases hi with rfl | rfl <;> rcases hp with hp | hp <;> simp [OpenSlot, slotOpenAt, hp, h0]
    exact ⟨fun _ => .inr ⟨ho, rfl⟩, fun _ => ⟨ho, hover⟩⟩
  · exact ⟨fun _ => .inl rfl, fun h => absurd h hpo⟩

/-- `FinalCheck` keeps the last slot open, and aborts on its overrun. -/
theorem slotEffect_finalCheck (ho : OpenSlot i s) : SlotEffect i s s.finalCheck := by
  rcases finalCheck_cases s with ⟨hover, he⟩ | ⟨-, he⟩ <;> rw [he]
  · exact ⟨fun _ => .inr ⟨ho, rfl⟩, fun _ => ⟨ho, hover⟩⟩
  · exact .of_kept (fun _ => ho) rfl nofun

/-- The completion closes the last slot. -/
theorem slotEffect_finish (hi : i = .readBlock buf count ∨ i = .writeBlock buf count) (status : Byte) :
    SlotEffect i s (s.finish i 0#8 status) := by
  refine .of_closed ?_ nofun
  rcases hi with rfl | rfl <;> simp [OpenSlot, slotOpenAt, State.finish]

/-- Line 4 of `read_block` keeps the slot open, at the fault too. -/
theorem slotEffect_storeSample (ho : OpenSlot (.readBlock buf count) s) (hp : s.seq.phase = .l4) :
    Ends (SlotEffect (.readBlock buf count) s) True (storeSample buf count s) := by
  unfold storeSample
  split
  · exact .of_kept (fun _ => ho) rfl (by simp [hp])
  · simp only [ends_ite, ends_next]
    constructor <;> exact fun _ => .of_kept (fun _ => ho) rfl (arriveSlot_phase_ne_l7 _ _)

theorem execReadBlock_slotEffect (w : RunsAt (.readBlock buf count) s) :
    Ends (SlotEffect (.readBlock buf count) s) True (execReadBlock buf count s) := by
  rcases hasLine_readBlock w.running.line with hp | hp | hp | hp | hp | hp | hp <;>
    simp only [execReadBlock, hp, ends_ite, ends_raise, ends_next, ends_waitUntil]
  · exact ⟨fun _ => .of_closed (by simp [OpenSlot, hp, slotOpenAt]) (by simp [hp]), fun _ => slotEffect_start (.inl rfl) rfl⟩
  · exact slotEffect_reset (.inl rfl) (.inl hp) nofun
  · have ho : OpenSlot (.readBlock buf count) s := by simp [OpenSlot, hp, slotOpenAt]
    exact ⟨fun _ => .of_kept (fun _ => ho) rfl nofun, fun _ => .of_kept (fun _ => ho) rfl (by simp [hp])⟩
  · have ho : OpenSlot (.readBlock buf count) s := by simp [OpenSlot, hp, slotOpenAt]
    exact ⟨fun _ => slotEffect_storeSample ho hp, fun _ => .of_kept (fun _ => ho) rfl (by simp [hp])⟩
  · obtain ⟨-, h0⟩ : s.seq.idx = count.toNat ∧ s.seq.idx ≠ 0 := by simpa [indexOk] using w.index hp
    exact slotEffect_finalCheck (by simp [OpenSlot, hp, slotOpenAt, h0])
  · exact slotEffect_finish (.inl rfl) _
  · exact slotEffect_finish (.inl rfl) _

theorem execWriteBlock_slotEffect (w : RunsAt (.writeBlock buf count) s) :
    Ends (SlotEffect (.writeBlock buf count) s) True (execWriteBlock buf count s) := by
  rcases hasLine_writeBlock w.running.line with hp | hp | hp | hp | hp | hp | hp <;>
    simp only [execWriteBlock, hp, ends_ite, ends_raise, ends_next, ends_waitUntil]
  · exact ⟨fun _ => .of_closed (by simp [OpenSlot, hp, slotOpenAt]) (by simp [hp]), fun _ => slotEffect_start (.inr rfl) rfl⟩
  · exact ⟨fun _ => .of_kept (by simp [OpenSlot, hp, slotOpenAt]) rfl nofun, fun _ => .of_kept id rfl (by simp [hp])⟩
  · exact slotEffect_reset (.inr rfl) (.inr hp) nofun
  · have ho : OpenSlot (.writeBlock buf count) s := by simp [OpenSlot, hp, slotOpenAt]
    exact ⟨fun _ => .of_kept (fun _ => ho) rfl (arriveSlot_phase_ne_l7 _ _), fun _ => .of_kept (fun _ => ho) rfl (by simp [hp])⟩
  · obtain ⟨-, h0⟩ : s.seq.idx = count.toNat ∧ s.seq.idx ≠ 0 := by simpa [indexOk] using w.index hp
    exact slotEffect_finalCheck (by simp [OpenSlot, hp, slotOpenAt, h0])
  · exact slotEffect_finish (.inr rfl) _
  · exact slotEffect_finish (.inr rfl) _

end

/-! ## One step -/

section
variable {s t : State}

theorem exec_slotEffect {i : Instr} (w : RunsAt i s) (hb : isBlock i = true) : Ends (SlotEffect i s) True (exec i s) := by
  cases i with
  | readBlock buf count => exact execReadBlock_slotEffect w
  | writeBlock buf count => exact execWriteBlock_slotEffect w
  | _ => cases hb

/-- A slot that is open has had at most one tick. -/
def AtMostOneTick (s : State) : Prop := slotOpen s = true → s.regs.cnt.toNat ≤ 1

theorem AtMostOneTick.of_not_open (h : slotOpen t = false) : AtMostOneTick t := by
  intro ho
  rw [h] at ho
  cases ho

/-- An issue leads to line 1, where no slot is open, or faults. -/
theorem exec_idle_not_open (i : Instr) (hp : s.seq.phase = .idle) : Ends (fun t => slotOpen t = false) True (exec i s) := by
  have hlatched : slotOpen (s.latch i) = false := by
    rw [slotOpen_line (current_latch i s)]
    cases i <;> rfl
  rw [exec_idle_opcode i hp]
  simp only [ends_ite, ends_raise, ends_next]
  exact ⟨fun _ => slotOpen_idle hp, fun _ => ⟨fun _ => slotOpen_idle hp, fun _ => hlatched⟩⟩

/-- A line of the running operation keeps the count of an open slot, or resets it. -/
theorem AtMostOneTick.exec {i : Instr} (h1 : AtMostOneTick s) (h : Inv s) (hr : running s = some i) (he : exec i s = .next t) :
    AtMostOneTick t := by
  obtain ⟨hp, hc⟩ := running_iff.mp hr
  have hct : t.current = some i := ((exec_current hp).of_next he).trans hc
  by_cases hb : isBlock i = true
  · intro ho
    rw [slotOpen_line hct] at ho
    rcases ((exec_slotEffect (h.runsAt hr) hb).of_next he).count ho with h0 | ⟨hopen, hsame⟩
    · simp [h0]
    · rw [hsame]
      exact h1 ((slotOpen_line hc).trans hopen)
  · exact .of_not_open ((slotOpen_line hct).trans (slotOpenAt_of_not_block (by simpa using hb) _ _))

theorem AtMostOneTick.seqStep (h1 : AtMostOneTick s) (h : Inv s) (hs : seqStep s = .next t) : AtMostOneTick t := by
  rcases seqStep_cases hs with ⟨hp, -, i, -, he⟩ | ⟨hp, -, -, hr⟩ | ⟨hp, -, -, hr⟩ | ⟨hp, -, -, hr⟩ | ⟨-, -, rfl⟩ | ⟨hp, i, hc, he⟩
  · exact .of_not_open ((exec_idle_not_open i hp).of_next he)
  · cases hr
    exact h1
  · cases hr
    exact h1
  · cases hr
    exact h1
  · exact h1
  · exact h1.exec h (running_iff.mpr ⟨hp, hc⟩) he

/-- The edge that ticks finds the count of an open slot at 0 (`H_ONE_ACK`). -/
theorem AtMostOneTick.ackFalls (h1 : AtMostOneTick s) (hfirst : slotOpen s = true → s.regs.cnt = 0#16) :
    Ends AtMostOneTick True (ackFalls s) := by
  simp only [Machine.ackFalls, ends_ite, ends_raise, ends_next]
  refine ⟨fun _ => ⟨fun _ => h1, fun _ ho => ?_⟩, fun _ => h1⟩
  have h0 : s.regs.cnt = 0#16 := hfirst ho
  simp [tick, h0]

theorem AtMostOneTick.hostMove {m : HostMove} (h1 : AtMostOneTick s) (hduty : hOneAck s (.host m)) :
    Ends AtMostOneTick True (hostMove m s) := by
  cases m with
  | toggleCS => exact h1
  | toggleA1 => exact h1
  | ackFall =>
    simp only [Machine.hostMove, ends_ite, ends_next]
    exact ⟨fun _ => h1, fun ha => h1.ackFalls (hduty (by simpa [ackEdge] using ha)).2⟩
  | ackRise =>
    simp only [Machine.hostMove, ends_ite, ends_next]
    exact ⟨fun _ => h1, fun _ => h1⟩
  | data drive =>
    simp only [Machine.hostMove, ends_ite, ends_raise, ends_next]
    exact ⟨fun _ => h1, fun _ => h1⟩

theorem AtMostOneTick.watchdogMove (h1 : AtMostOneTick s) : Ends AtMostOneTick True (watchdogMove s) := by
  simp only [Machine.watchdogMove, ends_ite, ends_next]
  exact ⟨fun _ => .of_not_open (slotOpen_idle rfl), fun _ => h1⟩

/-- A step keeps it while the host makes at most one ACK falling edge in each slot. -/
theorem AtMostOneTick.step (h1 : AtMostOneTick s) (h : Inv s) (hduty : hOneAck s (nextMove s)) (hstep : step s = .next t) :
    AtMostOneTick t := by
  have hpop : AtMostOneTick s.popped := h1
  obtain ⟨-, ⟨-, hs⟩ | ⟨m, hm, hs⟩ | ⟨m, -, hs⟩ | ⟨-, hs⟩⟩ := step_cases hstep
  · exact hpop.seqStep h.popped hs
  · exact (hpop.hostMove (hm ▸ hduty)).of_next hs
  · cases m <;> cases hs <;> exact hpop
  · exact hpop.watchdogMove.of_next hs

/-- A count of at most one tick is no overrun (00_scope R8: `OVR_T ≥ 2`). -/
theorem not_overrun_of_le_one {p : Params} {c : Half} (hw : p.wf = true) (hc : c.toNat ≤ 1) : ¬ overrun p c = true := by
  have hthreshold : 2 ≤ p.ovrT.toNat := by simpa [Params.wf] using hw
  rw [overrun_iff]
  rintro ⟨-, hle⟩
  omega

/-- A block operation then never goes to its abort line: that takes an open slot with an overrun. -/
theorem AtMostOneTick.phase_ne_l7 (h1 : AtMostOneTick s) (h : Inv s) (hw : s.params.wf = true) (hin : inside isBlock s = true)
    (hs : Machine.seqStep s = .next t) : t.seq.phase ≠ .l7 := by
  intro h7
  cases hr : running s with
  | none => simp [inside, hr] at hin
  | some i =>
    obtain ⟨hp, hc⟩ := running_iff.mp hr
    have hb : isBlock i = true := by
      rw [inside_line hp hc, Bool.and_eq_true] at hin
      exact hin.1
    rw [seqStep_line hp hc] at hs
    obtain ⟨hopen, hover⟩ := ((exec_slotEffect (h.runsAt hr) hb).of_next hs).abort h7
    exact not_overrun_of_le_one hw (h1 ((slotOpen_line hc).trans hopen)) hover

end

/-- Settles O57: both parts rest on the one tick of an open slot, which the step keeps. -/
theorem oneAckHostIsNeverAborted : Obligations.OneAckHostIsNeverAborted := by
  intro s t h hw h1 hduty hstep
  have hone : AtMostOneTick s := h1
  refine ⟨hone.step h hduty hstep, fun hm _ hin => ?_⟩
  have hs : seqStep s.popped = .next t := by
    rwa [step_eq s (step_cases hstep).1, hm] at hstep
  exact AtMostOneTick.phase_ne_l7 (s := s.popped) hone h.popped hw hin hs

end Sys2Proof.Machine
end

section
/-! PROOF. The model faults (60_exceptions R340, R341): whatever raises a code writes `FAULT` alone, under the condition of the code's
row. -/

namespace Sys2Proof.Machine

theorem Ends.mono {P Q : State → Prop} {stop : Prop} {o : Out} (h : Ends P stop o) (hi : ∀ t, P t → Q t) : Ends Q stop o := by
  cases o with
  | next t => exact hi t h
  | fault r => exact h
  | refused r => exact h

/-- A step from `s` to `t` that raises a fault writes `FAULT` alone (R341), with a code that has its cause. -/
def RaisesOnly (cause : FaultCode → Prop) (s t : State) : Prop :=
  t.regs.fault ≠ 0#8 → ∃ c, cause c ∧ t = { s with regs.fault := c.code }

section
variable {cause : FaultCode → Prop} {s t : State}

theorem raisesOnly_of_no_fault (h : t.regs.fault = 0#8) : RaisesOnly cause s t := fun hne => absurd h hne

theorem raisesOnly_of_cause {c : FaultCode} (h : cause c) : RaisesOnly cause s { s with regs.fault := c.code } :=
  fun _ => ⟨c, h, rfl⟩

theorem RaisesOnly.mono {cause' : FaultCode → Prop} (h : RaisesOnly cause s t) (hc : ∀ c, cause c → cause' c) :
    RaisesOnly cause' s t := by
  intro hne
  obtain ⟨c, hcause, ht⟩ := h hne
  exact ⟨c, hc c hcause, ht⟩

end

/-! ## The rows of R340 -/

/-- The faults of an operation's line 0 (R343). -/
def IssueCause (i : Instr) (s : State) : FaultCode → Prop
  | .uninit => s.regs.ctrl.init = false ∧ isBegin i = false
  | .reinit => s.regs.ctrl.init = true ∧ ∃ mask, i = .beginOp mask
  | _ => False

/-- The faults of an operation's other lines. -/
def LineCause (i : Instr) (s : State) : FaultCode → Prop
  | .notAcquired => s.seq.phase = .l1 ∧ s.regs.ctrl.ddir = false ∧ ∃ b, i = .driveData b
  | .busOwnership => s.seq.phase = .l1 ∧ s.regs.ctrl.ddir = true ∧ isSampling i = true
  | .busContention => Contends i s
  | .unwritten => ReadsUnwritten i s
  | _ => False

/-- The faults of SEQ's step: of the words it fetches, of line 0 and of the running operation. -/
def SeqCause (s : State) (c : FaultCode) : Prop :=
  match c with
  | .illegalOp => s.seq.phase = .idle ∧ fetch s = .illegalOp
  | .truncated => s.seq.phase = .idle ∧ fetch s = .truncated
  | .reservedBits => s.seq.phase = .idle ∧ fetch s = .reservedBits
  | .uninit | .reinit => s.seq.phase = .idle ∧ ∃ i, fetch s = .ok i ∧ IssueCause i s c
  | .notAcquired | .busOwnership | .busContention | .unwritten => ∃ i, running s = some i ∧ LineCause i s c
  | .counterWrap => False

/-- The faults of a host move. -/
def HostCause (m : HostMove) (s : State) : FaultCode → Prop
  | .busContention => s.regs.ctrl.ddir = true ∧ ∃ b, m = .data (some b)
  | .counterWrap => m = .ackFall ∧ s.lines.ackH = false ∧ s.regs.tcfg.ten = true ∧ s.regs.cnt = 0xFFFF#16
  | _ => False

/-! ## The agents -/

@[simp] theorem beginSetup_fault (mask : Byte) (s : State) : (beginSetup mask s).regs.fault = s.regs.fault := rfl

@[simp] theorem endTeardown_fault (s : State) : (endTeardown s).regs.fault = s.regs.fault := rfl

section
variable {s : State} (hf : s.regs.fault = 0#8)
include hf

theorem exec_idle_raisesOnly (i : Instr) (hp : s.seq.phase = .idle) :
    Ends (RaisesOnly (IssueCause i s) s) True (exec i s) := by
  rw [exec_idle_opcode i hp]
  simp only [ends_ite, ends_raise, ends_next]
  refine ⟨fun ⟨hne, hinit⟩ => raisesOnly_of_cause (c := .uninit) ⟨hinit, ?_⟩, fun _ => ⟨fun ⟨heq, hinit⟩ => ?_, fun _ => ?_⟩⟩
  · cases i <;> simp_all [isBegin, Instr.opcode]
  · refine raisesOnly_of_cause (c := .reinit) ⟨hinit, ?_⟩
    cases i <;> simp_all [Instr.opcode]
  · exact raisesOnly_of_no_fault hf

theorem storeSample_raisesOnly {buf count : Word} (hp : s.seq.phase = .l4) :
    Ends (RaisesOnly (LineCause (.readBlock buf count) s) s) True (storeSample buf count s) := by
  unfold storeSample
  split
  case h_1 hs => exact raisesOnly_of_cause (c := .unwritten) ⟨hp, hs, buf, count, rfl⟩
  case h_2 => simp [raisesOnly_of_no_fault, hf]

/-- Line by line: a raise stands under the test of its row, and every other end leaves `FAULT` as it is. -/
theorem exec_line_raisesOnly (i : Instr) (hp : s.seq.phase ≠ .idle) :
    Ends (RaisesOnly (LineCause i s) s) True (exec i s) := by
  have drive (h1 : s.seq.phase = .l1) (hd : s.regs.ctrl.ddir = false) (hi : ∃ b, i = .driveData b) :
      RaisesOnly (LineCause i s) s { s with regs.fault := FaultCode.notAcquired.code } := raisesOnly_of_cause ⟨h1, hd, hi⟩
  have sample (h1 : s.seq.phase = .l1) (hd : s.regs.ctrl.ddir = true) (hi : isSampling i = true) :
      RaisesOnly (LineCause i s) s { s with regs.fault := FaultCode.busOwnership.code } := raisesOnly_of_cause ⟨h1, hd, hi⟩
  have acquire (hi : acquireLine i = some s.seq.phase) (hd : s.lines.dh.isSome = true) :
      RaisesOnly (LineCause i s) s { s with regs.fault := FaultCode.busContention.code } := raisesOnly_of_cause ⟨hi, hd⟩
  cases i <;> simp only [exec, execBeginOp, execEndOp, execReadStrobe, execReadAck, execIsIdle, execDriveData, execReleaseData,
    execAcquireData, execPullIrq, execReleaseIrq, execWaitCommand, execSendByte, execSendBytes, execReadByte, execReadBytes,
    execReadBlock, execWriteBlock, issueBegin, issue] <;> split <;>
    simp only [ends_next, ends_fault, ends_raise, ends_ite, ends_waitUntil, storeSample_raisesOnly hf, *] <;>
    simp_all [raisesOnly_of_no_fault, acquireLine, isSampling, State.finish, arrivePoll]

theorem seqStep_raisesOnly : Ends (RaisesOnly (SeqCause s) s) True (seqStep s) := by
  by_cases hp : s.seq.phase = .idle
  · rw [seqStep, if_pos hp, issueStep, ends_ite]
    refine ⟨fun _ => ?_, fun _ => raisesOnly_of_no_fault hf⟩
    split
    case h_1 i hi =>
      refine (exec_idle_raisesOnly hf i hp).mono fun _ h => h.mono fun c hc => ?_
      cases c with
      | uninit | reinit => exact ⟨hp, i, hi, hc⟩
      | _ => exact hc.elim
    case h_2 hi => exact raisesOnly_of_cause (c := .illegalOp) ⟨hp, hi⟩
    case h_3 hi => exact raisesOnly_of_cause (c := .truncated) ⟨hp, hi⟩
    case h_4 hi => exact raisesOnly_of_cause (c := .reservedBits) ⟨hp, hi⟩
  · rw [seqStep, if_neg hp, lineStep]
    split
    case h_1 i hi =>
      refine (exec_line_raisesOnly hf i hp).mono fun _ h => h.mono fun c hc => ?_
      cases c with
      | notAcquired | busOwnership | busContention | unwritten => exact ⟨i, running_iff.mpr ⟨hp, hi⟩, hc⟩
      | _ => exact hc.elim
    case h_2 => trivial

theorem hostMove_raisesOnly (m : HostMove) : Ends (RaisesOnly (HostCause m s) s) True (hostMove m s) := by
  cases m with
  | data drive =>
    simp only [hostMove, ends_ite, ends_raise, ends_next, Bool.and_eq_true]
    refine ⟨fun ⟨hdrive, hddir⟩ => ?_, fun _ => raisesOnly_of_no_fault hf⟩
    obtain ⟨b, rfl⟩ := Option.isSome_iff_exists.mp hdrive
    exact raisesOnly_of_cause (c := .busContention) ⟨hddir, b, rfl⟩
  | ackFall =>
    simp only [hostMove, ackFalls, ends_ite, ends_raise, ends_next]
    refine ⟨fun _ => raisesOnly_of_no_fault hf, fun hack => ⟨fun hten => ⟨fun htop => ?_, fun _ => ?_⟩, fun _ => ?_⟩⟩
    · exact raisesOnly_of_cause (c := .counterWrap) ⟨rfl, by simpa using hack, hten, htop⟩
    · exact raisesOnly_of_no_fault hf
    · exact raisesOnly_of_no_fault hf
  | ackRise =>
    simp only [hostMove, ends_ite, ends_next]
    exact ⟨fun _ => raisesOnly_of_no_fault hf, fun _ => raisesOnly_of_no_fault hf⟩
  | toggleCS | toggleA1 => exact raisesOnly_of_no_fault hf

end

/-- A step that raises a fault is SEQ's or the host's, and writes `FAULT` alone. -/
theorem step_raises {s t : State} (h : step s = .next t) (hne : t.regs.fault ≠ 0#8) :
    ∃ c, t = { s.popped with regs.fault := c.code } ∧
      (nextMove s = .seq ∧ SeqCause s c ∨ ∃ m, nextMove s = .host m ∧ HostCause m s c) := by
  obtain ⟨hf, ⟨hm, hs⟩ | ⟨m, hm, hs⟩ | ⟨m, -, hs⟩ | ⟨-, hs⟩⟩ := step_cases h
  · obtain ⟨c, hc, ht⟩ := (seqStep_raisesOnly (s := s.popped) hf).of_next hs hne
    exact ⟨c, ht, .inl ⟨hm, hc⟩⟩
  · obtain ⟨c, hc, ht⟩ := (hostMove_raisesOnly (s := s.popped) hf m).of_next hs hne
    exact ⟨c, ht, .inr ⟨m, hm, hc⟩⟩
  · exact absurd ((envMove_fault (s := s.popped) hf m).of_next hs) hne
  · exact absurd ((watchdogMove_fault (s := s.popped) hf).of_next hs) hne

/-- Settles O11: a raise writes `FAULT` alone, and every step asks `FAULT = 0`. -/
theorem faultedStateIsFinal : Obligations.FaultedStateIsFinal := by
  refine ⟨fun s t _ h hne => ?_, fun s hne => if_pos hne⟩
  obtain ⟨c, rfl, -⟩ := step_raises h hne
  exact ⟨rfl, rfl, rfl⟩

/-- Settles O12: the raising agent is SEQ or the host, and each code has one row of `SeqCause` or of `HostCause`. -/
theorem faultCodesHaveTheirCauses : Obligations.FaultCodesHaveTheirCauses := by
  intro s t _ h hne
  obtain ⟨c, rfl, ⟨hm, hc⟩ | ⟨m, hm, hc⟩⟩ := step_raises h hne
  · cases c with
    | illegalOp => exact .inl ⟨rfl, hm, hc⟩
    | truncated => exact .inr (.inl ⟨rfl, hm, hc⟩)
    | reservedBits => exact .inr (.inr (.inl ⟨rfl, hm, hc⟩))
    | uninit =>
      obtain ⟨hp, i, hi, hinit, hbegin⟩ := hc
      iterate 3 right
      exact .inl ⟨rfl, hm, hp, hinit, i, hi, hbegin⟩
    | reinit =>
      obtain ⟨hp, i, hi, hinit, mask, rfl⟩ := hc
      iterate 4 right
      exact .inl ⟨rfl, hm, hp, hinit, mask, hi⟩
    | notAcquired =>
      obtain ⟨i, hr, hl1, hddir, b, rfl⟩ := hc
      iterate 5 right
      exact .inl ⟨rfl, hm, hl1, hddir, b, (running_iff.mp hr).2⟩
    | busOwnership =>
      obtain ⟨i, hr, hl1, hddir, hsampling⟩ := hc
      iterate 6 right
      exact .inl ⟨rfl, hm, hl1, hddir, i, (running_iff.mp hr).2, hsampling⟩
    | busContention =>
      obtain ⟨i, hr, hline, hdh⟩ := hc
      iterate 7 right
      exact .inl ⟨rfl, hm, acquires_of_line hr hline, Option.isSome_iff_ne_none.mp hdh⟩
    | counterWrap => exact hc.elim
    | unwritten =>
      obtain ⟨i, hr, hl4, hsample, buf, count, rfl⟩ := hc
      iterate 10 right
      exact ⟨rfl, hm, hl4, hsample, buf, count, (running_iff.mp hr).2⟩
  · cases c with
    | busContention =>
      obtain ⟨hddir, b, rfl⟩ := hc
      iterate 8 right
      exact .inl ⟨rfl, hddir, b, hm⟩
    | counterWrap =>
      obtain ⟨rfl, hack, hten, htop⟩ := hc
      iterate 9 right
      exact .inl ⟨rfl, hm, hack, hten, htop⟩
    | _ => exact hc.elim

end Sys2Proof.Machine
end

section
/-! PROOF. No step reads `JSUSP` or its saved copy but to write the one from the other (70_reset_and_hazards R394, 41 R140): with any
values put there, every meaning gives the same outcome up to these two fields. As for `DEVMASK`, each proof brings the two outcomes
to the same tree of tests, whose leaves then agree by computation. -/

namespace Sys2Proof.Machine

/-- The state with values put in `JSUSP` and in its saved copy. -/
def State.withJsusp (j k : Bool) (s : State) : State := { s with regs.ctrl.jsusp := j, seq.savedJsusp := k }

/-- The state with `JSUSP` and its saved copy forgotten. -/
abbrev State.sansJsusp (s : State) : State := s.withJsusp false false

section
variable (j k : Bool) (s : State)

@[simp] theorem withJsusp_phase : (s.withJsusp j k).seq.phase = s.seq.phase := rfl

@[simp] theorem withJsusp_sample : (s.withJsusp j k).regs.sample = s.regs.sample := rfl

@[simp] theorem withJsusp_fetch : fetch (s.withJsusp j k) = fetch s := rfl

@[simp] theorem withJsusp_current : (s.withJsusp j k).current = s.current := rfl

theorem slotReset_withJsusp (pa po : Phase) : (slotReset pa po (s.withJsusp j k)).sansJsusp = (slotReset pa po s).sansJsusp := by
  simp only [slotReset, apply_ite State.sansJsusp]
  rfl

theorem storeSample_withJsusp (buf count : Word) :
    Out.seen .sansJsusp (storeSample buf count (s.withJsusp j k)) = Out.seen .sansJsusp (storeSample buf count s) := by
  simp only [storeSample, withJsusp_sample]
  split
  · rfl
  · simp only [seen_ite, seen_next]
    rfl

/-- Line by line: only `GuardEnter` and `GuardExit` read the two fields, and they write them alone. -/
theorem exec_withJsusp (i : Instr) :
    Out.seen .sansJsusp (exec i (s.withJsusp j k)) = Out.seen .sansJsusp (exec i s) := by
  cases i <;> simp only [exec, execBeginOp, execEndOp, execReadStrobe, execReadAck, execIsIdle, execDriveData, execReleaseData,
    execAcquireData, execPullIrq, execReleaseIrq, execWaitCommand, execSendByte, execSendBytes, execReadByte, execReadBytes,
    execReadBlock, execWriteBlock, issueBegin, issue, withJsusp_phase] <;> split <;>
    simp only [seen_next, seen_fault, seen_raise, seen_ite, seen_waitUntil, slotReset_withJsusp, storeSample_withJsusp] <;> rfl

theorem issueStep_withJsusp : Out.seen .sansJsusp (issueStep (s.withJsusp j k)) = Out.seen .sansJsusp (issueStep s) := by
  simp only [issueStep, withJsusp_fetch, seen_ite]
  refine if_congr Iff.rfl ?_ rfl
  split
  · exact exec_withJsusp j k s _
  all_goals rfl

theorem lineStep_withJsusp : Out.seen .sansJsusp (lineStep (s.withJsusp j k)) = Out.seen .sansJsusp (lineStep s) := by
  simp only [lineStep, withJsusp_current]
  split
  · exact exec_withJsusp j k s _
  · rfl

theorem seqStep_withJsusp : Out.seen .sansJsusp (seqStep (s.withJsusp j k)) = Out.seen .sansJsusp (seqStep s) := by
  simp only [seqStep, seen_ite]
  exact if_congr Iff.rfl (issueStep_withJsusp j k s) (lineStep_withJsusp j k s)

theorem hostMove_withJsusp (m : HostMove) :
    Out.seen .sansJsusp (hostMove m (s.withJsusp j k)) = Out.seen .sansJsusp (hostMove m s) := by
  cases m <;> simp only [hostMove, ackFalls, seen_next, seen_raise, seen_ite] <;> rfl

theorem agentStep_withJsusp (m : Move) :
    Out.seen .sansJsusp (agentStep m (s.withJsusp j k)) = Out.seen .sansJsusp (agentStep m s) := by
  cases m with
  | seq => exact seqStep_withJsusp j k s
  | host m => exact hostMove_withJsusp j k s m
  | env m => cases m <;> rfl
  | wdog =>
    simp only [agentStep, watchdogMove, seen_ite, seen_next]
    rfl

theorem step_withJsusp : Out.seen .sansJsusp (step (s.withJsusp j k)) = Out.seen .sansJsusp (step s) := by
  simp only [step, seen_ite]
  exact if_congr Iff.rfl rfl (agentStep_withJsusp j k s.popped (nextMove s))

end

/-- Settles O49: with other values in the two fields the step has the same outcome up to them. -/
theorem jsuspChangesNothingElse : Obligations.JsuspChangesNothingElse := by
  intro s t j k ht
  have hsame := step_withJsusp j k s
  rw [ht, seen_next] at hsame
  exact exists_next_of_seen _ hsame

end Sys2Proof.Machine
end

section
/-! PROOF. Power-on and the normal end of a run (70_reset_and_hazards R381, R385 to R387). -/

namespace Sys2Proof.Machine

/-! ## The normal end -/

/-- SEQ has no step at the end of the program. -/
theorem seqStep_end {s : State} (hp : s.seq.phase = .idle) (hpc : s.pc = s.prog.length) : seqStep s = .next s := by
  rw [seqStep, if_pos hp, issueStep, if_neg (by omega)]

/-- The watchdog has no step while SEQ is idle. -/
theorem watchdogMove_idle {s : State} (hp : s.seq.phase = .idle) : watchdogMove s = .next s := by
  have hoff : ¬ watchdogEnabled s = true := fun h => by
    obtain ⟨i, hr, -⟩ := watchdogEnabled_iff.mp h
    exact (running_iff.mp hr).1 hp
  rw [watchdogMove, if_neg hoff]

/-- Settles O10, agent by agent. -/
theorem normalEndHasNoSeqStep : Obligations.NormalEndHasNoSeqStep := by
  intro s hf hp hpc hm
  rw [step_eq s hf]
  rcases hm with hm | hm <;> rw [hm]
  · exact seqStep_end (s := s.popped) hp hpc
  · exact watchdogMove_idle (s := s.popped) hp

/-! ## Power-on -/

/-- `State.reset` is the launch of the empty program with the default arguments. -/
theorem launched_default : State.launched [] [] Params.launch Lines.launch [] = State.reset := rfl

/-- At power-on SEQ is idle outside any session and the block drives no line, whatever the launch arguments are. -/
theorem inv_launched (prog : List Word) {mem : Memory} (p : Params) (l : Lines) (sched : List Move) (hm : mem.wf = true) :
    Inv (State.launched prog mem p l sched) := by
  have hinit : ¬ (State.launched prog mem p l sched).regs.ctrl.init = true := Bool.false_ne_true
  have hddir : ¬ (State.launched prog mem p l sched).regs.ctrl.ddir = true := Bool.false_ne_true
  have hstatus : (State.launched prog mem p l sched).regs.res.extractLsb' 8 8 = 0x00#8 :=
    show (0x0000#16).extractLsb' 8 8 = 0x00#8 by decide
  exact Inv.of_idle (hp := rfl) (hm := hm) (hone := (absurd · hddir)) (hpc := Nat.zero_le _) (hconf := (absurd · hinit))
    (hstop := fun _ => ⟨rfl, rfl⟩) (hcnt := (absurd · hinit)) (hreq := rfl) (hjs := rfl) (hst := .inl hstatus) (hf := Nat.zero_le _)

/-- Settles O51: the reset state is a launch too. -/
theorem launchMeetsTheInvariant : Obligations.LaunchMeetsTheInvariant :=
  ⟨launched_default ▸ inv_launched [] _ _ [] Memory.wf_nil, fun prog _ p l sched => inv_launched prog p l sched⟩

end Sys2Proof.Machine
end
